-- ==== Sys2Proof/Word.lean ====
section
/-! DEFINITION. The word types of HUFFCORE: what the spec treats as bits, each at its one width
(00_scope.md R7, R8), and the symbol index 0..256 (00_scope.md R13). -/

namespace Sys2Proof

/-- A 32-bit word: a host register, a command word, a count (`CW`), the magic number (`MAGIC_W`). -/
abbrev Word := BitVec 32

/-- One 8-bit unit of source or decoded data (`BITS_PER_WORD`; the spec's "word", 00_scope.md R13). -/
abbrev Byte := BitVec 8

/-- A node weight, `WW` = 41 bits (00_scope.md R8, 46_control.md R201). -/
abbrev Weight := BitVec 41

/-- A priority-queue sequence number, `SEQ_W` = 10 bits (00_scope.md R8, 10_state.md R31). -/
abbrev Seq := BitVec 10

/-- The 9-bit symbol field of a header leaf, `SYM_W` (00_scope.md R7): 0..511, of which 0..256 are legal. -/
abbrev SymField := BitVec 9

/-- A byte offset into the 4 KiB host register window, 0x000 to 0xFFF (20_memory.md R59). -/
abbrev Offset := BitVec 12

/-- A finite bit sequence, first bit first (00_scope.md R10). -/
abbrev Bits := List Bool

/-- A symbol: 0..255 a literal byte, 256 the end-of-stream marker (00_scope.md R13). -/
abbrev Symbol := Fin 257

end Sys2Proof
end

