-- ==== Sys2Proof/Config.lean ====
section
/-! DEFINITION. What is fixed for the machine (00_scope.md R7, R8) and the free values.
An `opaque` constant has no body: no proof can see what it is. -/

namespace Sys2Proof

/-- The reserved end-of-stream symbol, 256 (00_scope.md R7). -/
def Config.pseudoEof : Symbol := 256

/-- The number of symbols, `ALPH` (00_scope.md R7). -/
def Config.alph : Nat := 257

/-- The greatest number of nodes a tree may hold, `NODE_CAP` = 2 × 257 − 1 (00_scope.md R8). -/
def Config.nodeCap : Nat := 513

/-- The greatest code length in bits, `CODE_MAX` (00_scope.md R8). -/
def Config.codeMax : Nat := 256

/-- The greatest count, 2^32 − 1 (40_count.md R110, 46_control.md R200). -/
def Config.countMax : Word := 0xFFFFFFFF

/-- FREE. The open parameter `MAGIC` (00_scope.md R8, decision D3, U2): the value `State.reset` hands to
the field `State.magic`. The spec gives no value, so nothing here does (log 1). -/
opaque Config.magic : Word

/-- FREE. What stands in `OUT.bits` beyond its old length after a fault: "any value" (60_exceptions.md R213, U1;
log 7). Also what a reset that cuts a command short leaves there (70_reset_and_hazards.md R242; log 9). -/
opaque Config.freeOutBits : Nat → Bits

/-- FREE. Where a reset that cuts a reading command short leaves `IN.pos`: "wherever it stood"
(70_reset_and_hazards.md R242; log 9). The model bounds it by what the command does to the
cursor when it runs to its end (10_state.md R25). -/
opaque Config.freeInPos : Nat → Nat

/-- FREE. The bits of STATUS other than BUSY in a read made while a command runs
(U5, 70_reset_and_hazards.md R254; log 10). -/
opaque Config.freeStatus : Nat → Word

end Sys2Proof
end

