-- ==== Sys2Proof/Syntax.lean ====
section
/-! DEFINITION. The instructions: one constructor per row of spec/opcode_table.json. Fourteen host
commands without operands (30_encoding.md R88, R89) and three stream tokens, which the engine
itself fetches from the input channel (30_encoding.md R81, R82; log 5). -/

namespace Sys2Proof

/-- One row of the opcode table each, in the table's order. -/
inductive Instr where
  /-- CLEAR, 0x01 (46_control.md R195). -/
  | clear
  /-- COUNT, 0x02 (40_count.md R110). -/
  | count
  /-- BUILD, 0x03 (41_treebuild.md R120). -/
  | build
  /-- GENCODES, 0x04 (42_codegen.md R135). -/
  | gencodes
  /-- WRHDR, 0x05 (43_header.md R145). -/
  | wrhdr
  /-- RDHDR, 0x06 (43_header.md R147). -/
  | rdhdr
  /-- WRMAGIC, 0x07 (44_compress.md R160). -/
  | wrmagic
  /-- RDMAGIC, 0x08 (45_decompress.md R180). -/
  | rdmagic
  /-- REWIND, 0x09 (44_compress.md R161). -/
  | rewind
  /-- ENCODE, 0x0A (44_compress.md R162). -/
  | encode
  /-- DECODE, 0x0B (45_decompress.md R181). -/
  | decode
  /-- CLOSE, 0x0C (44_compress.md R165). -/
  | close
  /-- COMPRESS, 0x10 (44_compress.md R166). -/
  | compress
  /-- DECOMPRESS, 0x11 (45_decompress.md R185). -/
  | decompress
  /-- STREAM.MAGIC: the 32-bit magic field of a stream, `m` what stands there (30_encoding.md R81). -/
  | streamMagic (m : Word)
  /-- STREAM.HDR_INTERNAL: the 1-bit token of an internal node (30_encoding.md R82). -/
  | streamHdrInternal
  /-- STREAM.HDR_LEAF: the 10-bit token of a leaf, `v` its 9-bit value field (30_encoding.md R82). -/
  | streamHdrLeaf (v : SymField)
deriving DecidableEq, Repr

/-- Is it one of the fourteen host commands (30_encoding.md R89)? The rest are stream tokens. -/
def Instr.isCommand : Instr → Bool
  | .clear | .count | .build | .gencodes | .wrhdr | .rdhdr | .wrmagic | .rdmagic | .rewind
  | .encode | .decode | .close | .compress | .decompress => true
  | .streamMagic _ | .streamHdrInternal | .streamHdrLeaf _ => false

end Sys2Proof
end

