-- ==== Sys2Proof/WellFormed.lean ====
section
/-! DEFINITION. Which instruction terms are legal. A command has no operand, so each is legal
(30_encoding.md R88). A leaf token is legal with a value of 0..256 (R82, R87 (b)), a magic field when it
holds `MAGIC` (R81, R87 (a)), which is the run's parameter. -/

namespace Sys2Proof

/-- The legal instructions of a run whose parameter `MAGIC` is `magic`. An illegal token still decodes,
and running it raises the fault the spec names for it. -/
def Instr.wf (magic : Word) : Instr → Bool
  | .clear | .count | .build | .gencodes | .wrhdr | .rdhdr | .wrmagic | .rdmagic | .rewind
  | .encode | .decode | .close | .compress | .decompress => true
  | .streamMagic m => m == magic
  | .streamHdrInternal => true
  | .streamHdrLeaf v => decide (v.toNat ≤ 256)

end Sys2Proof
end

