-- ==== Sys2Proof/Decode.lean ====
section
/-! DEFINITION. Bit order, the decoder (total, rejecting by name) and the encoder. Three fetch spaces:
the CMD register (30_encoding.md R88 to R91), the magic field of a stream (R81), a header of a
stream (R82). -/

namespace Sys2Proof

/-- The bits of an `n`-bit value, bit `n − 1` first (00_scope.md R9, 20_memory.md R54). -/
def bitsMsb {n : Nat} (v : BitVec n) : Bits :=
  (List.range n).map fun k => v.getMsbD k

/-- A bit string read as a binary numeral, first bit most significant (20_memory.md R52). -/
def natOfBits (bs : Bits) : Nat :=
  bs.foldl (fun acc b => 2 * acc + b.toNat) 0

/-- The `n`-bit value of a bit string, first bit most significant (20_memory.md R52, 30_encoding.md R86). -/
def ofBitsMsb (n : Nat) (bs : Bits) : BitVec n :=
  BitVec.ofNat n (natOfBits bs)

/-- What the decoder is given: the word written to CMD, or the bits that stand at the input cursor
where a magic field or a header token is due. -/
inductive Fetched where
  | command (w : Word)
  | magic (bits : Bits)
  | header (bits : Bits)
deriving DecidableEq, Repr

/-- Why a decoder rejects. -/
inductive DecodeError where
  /-- Bits 31:8 of a command word are not 0 (30_encoding.md R90). -/
  | zeroFieldNotZero
  /-- The opcode is 0x00, 0x0D to 0x0F or 0x12 to 0xFF (30_encoding.md R90). -/
  | reservedOpcode
  /-- Fewer than 32 bits where a magic field is due (45_decompress.md R180). -/
  | shortMagic
  /-- No bit where a header token's discriminator is due (43_header.md R147). -/
  | noDiscriminator
  /-- Fewer than 9 bits where a leaf's value is due (43_header.md R148 (a)). -/
  | shortLeafValue
deriving DecidableEq, Repr

/-- The opcode map of 30_encoding.md R89. -/
def commandOfOpcode : Nat → Option Instr
  | 0x01 => some .clear
  | 0x02 => some .count
  | 0x03 => some .build
  | 0x04 => some .gencodes
  | 0x05 => some .wrhdr
  | 0x06 => some .rdhdr
  | 0x07 => some .wrmagic
  | 0x08 => some .rdmagic
  | 0x09 => some .rewind
  | 0x0A => some .encode
  | 0x0B => some .decode
  | 0x0C => some .close
  | 0x10 => some .compress
  | 0x11 => some .decompress
  | _ => none

/-- The command of a word written to CMD (30_encoding.md R88 to R90). -/
def decodeCommand (w : Word) : Except DecodeError Instr :=
  if w.extractLsb' 8 24 ≠ 0#24 then .error .zeroFieldNotZero
  else
    match commandOfOpcode (w.extractLsb' 0 8).toNat with
    | some i => .ok i
    | none => .error .reservedOpcode

/-- The magic field at the front of `bits` (30_encoding.md R81). -/
def decodeMagic (bits : Bits) : Except DecodeError Instr :=
  if 32 ≤ bits.length then .ok (.streamMagic (ofBitsMsb 32 (bits.take 32)))
  else .error .shortMagic

/-- The header token at the front of `bits` (30_encoding.md R82). A value of 257..511 decodes; running
the token raises MalformedHeaderError (43_header.md R148 (b)). -/
def decodeHeader : Bits → Except DecodeError Instr
  | [] => .error .noDiscriminator
  | false :: _ => .ok .streamHdrInternal
  | true :: rest =>
    if 9 ≤ rest.length then .ok (.streamHdrLeaf (ofBitsMsb 9 (rest.take 9)))
    else .error .shortLeafValue

/-- The decoder, total on whatever is fetched. -/
def decode : Fetched → Except DecodeError Instr
  | .command w => decodeCommand w
  | .magic bits => decodeMagic bits
  | .header bits => decodeHeader bits

/-- The encoder, written from 30_encoding.md R81, R82, R89. -/
def encode : Instr → Fetched
  | .clear => .command 0x00000001
  | .count => .command 0x00000002
  | .build => .command 0x00000003
  | .gencodes => .command 0x00000004
  | .wrhdr => .command 0x00000005
  | .rdhdr => .command 0x00000006
  | .wrmagic => .command 0x00000007
  | .rdmagic => .command 0x00000008
  | .rewind => .command 0x00000009
  | .encode => .command 0x0000000A
  | .decode => .command 0x0000000B
  | .close => .command 0x0000000C
  | .compress => .command 0x00000010
  | .decompress => .command 0x00000011
  | .streamMagic m => .magic (bitsMsb m)
  | .streamHdrInternal => .header [false]
  | .streamHdrLeaf v => .header (true :: bitsMsb v)

/-- The same fetch with further bits of the stream behind it; a command word has nothing behind it. -/
def Fetched.followedBy (f : Fetched) (rest : Bits) : Fetched :=
  match f with
  | .command w => .command w
  | .magic bits => .magic (bits ++ rest)
  | .header bits => .header (bits ++ rest)

/-- How many stream bits a fetch takes. -/
def Fetched.size : Fetched → Nat
  | .command _ => 32
  | .magic bits => bits.length
  | .header bits => bits.length

/-- The bits of a table row of the stream, first bit first: a row of 1 bit fills one byte's low bit, a
row of 10 bits two bytes' low ten, and 32 bits that are no command word are the magic row's (log 19). -/
def tableTokenBits (nbits w : Nat) : Option Bits :=
  if nbits = 1 ∨ nbits = 8 then
    if w < 2 then some (bitsMsb (BitVec.ofNat 1 w)) else none
  else if nbits = 10 ∨ nbits = 16 then
    if w < 1024 then some (bitsMsb (BitVec.ofNat 10 w)) else none
  else if nbits = 32 ∧ w < 2 ^ 32 then
    match decodeCommand (BitVec.ofNat 32 w) with
    | .ok _ => none
    | .error _ => some (bitsMsb (BitVec.ofNat 32 w))
  else none

/-- The instruction of a table row's bits: 32 bits are the command row they match, else the magic row, whose
bits are all operand; fewer are a header token (log 19). CMD itself never takes a magic field: `decode`. -/
def decodeTableWord (nbits w : Nat) : Option Instr :=
  match tableTokenBits nbits w with
  | some bits => (decode (if nbits = 32 then .magic bits else .header bits)).toOption
  | none =>
    if nbits = 32 ∧ w < 2 ^ 32 then (decodeCommand (BitVec.ofNat 32 w)).toOption else none

end Sys2Proof
end

