-- ==== Sys2Proof/Machine/State.lean ====
section
/-! DEFINITION. The state of HUFFCORE and of its environment as plain data (10_state.md R20, 20_memory.md
R50), the reasons a step can stop, and the state after reset (70_reset_and_hazards.md R241). -/

namespace Sys2Proof.Machine

open Sys2Proof

/-- A strict binary tree (00_scope.md R11, 10_state.md R27). An internal node has no symbol. -/
inductive Tree where
  | leaf (v : Symbol) (w : Weight)
  | node (w : Weight) (l r : Tree)
deriving DecidableEq, Repr

/-- `ST`, the engine's mode (10_state.md R35). -/
inductive Mode where
  | idle
  | faulted
deriving DecidableEq, Repr

/-- The eight faults of 60_exceptions.md R210. They are exceptions the machine takes: a next state in
mode FAULTED, not a stop of the model. -/
inductive Cause where
  | formatError
  | truncatedHeaderError
  | truncatedBodyError
  | malformedHeaderError
  | countOverflowError
  | missingCodeError
  | sequenceError
  | illegalCommandError
deriving DecidableEq, Repr

/-- One entry of the priority queue: weight, sequence number, tree (10_state.md R31). -/
structure Entry where
  w : Weight
  q : Seq
  t : Tree
deriving DecidableEq, Repr

/-- The input channel: its bits and the index of the next unread one (20_memory.md R51). -/
structure InChan where
  bits : Bits
  pos : Nat
deriving DecidableEq, Repr

/-- The output channel: what has been appended, and the closed flag (20_memory.md R54). -/
structure OutChan where
  bits : Bits
  closed : Bool
deriving DecidableEq, Repr

/-- Where a reading command stands that is not at its end (log 5): nowhere; at RDMAGIC's 32-bit read;
inside RDHDR, with room for `room` more nodes (the spec's 513 − n) and the open internal nodes,
innermost first, each with its left subtree once that has been read; or inside DECODE, which began when
OUT held `start` bits (log 6). -/
inductive Reader where
  | off
  | magic
  | header (room : Nat) (openNodes : List (Option Tree))
  | body (start : Nat)
deriving DecidableEq, Repr

/-- What the host does to the window and the channels (70_reset_and_hazards.md R253). -/
inductive Access where
  /-- Attach an input channel with these bits (20_memory.md R58). -/
  | attachIn (bits : Bits)
  /-- Attach a fresh output channel (20_memory.md R58). -/
  | attachOut
  /-- A window write of `width` bits (20_memory.md R59, R60). -/
  | write (width : Nat) (off : Offset) (v : Word)
  /-- A window read of `width` bits (20_memory.md R59, R60). -/
  | read (width : Nat) (off : Offset)
  /-- Read the bytes of OUT (70 R253). -/
  | readOut
deriving DecidableEq, Repr

/-- What can happen to the engine from outside while a command runs (70_reset_and_hazards.md R246,
R240, R251; U4, U5). DESIGN CHOICE: one event at most falls into one command (log 21). -/
inductive BusyEvent where
  /-- An access of the host; a STATUS read is the one it may make (R246, U5). -/
  | access (a : Access)
  /-- Reset strikes before the command has ended (R240, R242). -/
  | reset
  /-- The first channel the command reaches does not answer it (R251, U4). -/
  | channelHangs
deriving DecidableEq, Repr

/-- The host's moves (70_reset_and_hazards.md R253). -/
inductive Move where
  /-- The reset event (R240). -/
  | reset
  /-- An access while no command runs. -/
  | access (a : Access)
  /-- Write `w` to CMD, and `e` happens while the command that this starts runs. DESIGN CHOICE, unsafe: one event,
  where R246 bounds the STATUS reads of the host by no number (log 21). -/
  | during (w : Word) (e : BusyEvent)
deriving DecidableEq, Repr

/-- What the host gets back from a move (70_reset_and_hazards.md R253; log 4). -/
inductive Reply where
  | nothing
  | word (w : Word)
  | bytes (bs : List Byte)
deriving DecidableEq, Repr

/-- Why a step can stop with a fault of the model. The spec's own faults are `Cause`. -/
inductive Fault where
  /-- U4: a channel does not answer, and the spec calls the machine stuck. Raised by the move `during` with
  `channelHangs`. Safe: nothing can be proved of a run that meets it. -/
  | channelBlocked
deriving DecidableEq, Repr

/-- Why a step can refuse. -/
inductive Refusal where
  /-- An instruction with no meaning yet. Raised by arms of `exec` only. Safe. -/
  | notModelled (mnemonic : String)
  /-- U6: a window access of a width other than 32 bits or at an offset that is no multiple of 4
  (20_memory.md R60: "a model refuses it"). Raised by the accesses `write` and `read`. Safe. -/
  | badAccess
  /-- U5: an access other than a STATUS read while a command runs (70_reset_and_hazards.md R246, R253:
  "while BUSY other than STATUS ... refused"). Raised by the move `during` with an `access`. Safe. -/
  | accessWhileBusy
  /-- R253, R248: the bytes of OUT are read before it is closed. Raised by the access `readOut`. Safe. -/
  | outputNotClosed
deriving DecidableEq, Repr

/-- The state: the spec's own (R20, R50), then the model's own fields (logs 1, 3, 4, 5, 16). -/
structure State where
  /-- `ST` (10_state.md R35). -/
  st : Mode
  /-- `ERR[3:0]`; `ERR[31:4]` reads 0 and is not stored (10_state.md R36). -/
  err : BitVec 4
  /-- `FREQ[0..255]`; `FREQ[256]` is hardwired and not stored (10_state.md R22, R23). -/
  freq : Vector Word 256
  /-- `TREE` (10_state.md R27). -/
  tree : Option Tree
  /-- `CODES_VALID` (10_state.md R30). -/
  codesValid : Bool
  /-- `CODE[0..256]` (10_state.md R29). -/
  code : Vector (Option Bits) 257
  /-- `PQ`, least entry first (10_state.md R31, R32). -/
  pq : List Entry
  /-- `CUR` (10_state.md R33). -/
  cur : Option Tree
  /-- `IN` (20_memory.md R51). -/
  inp : InChan
  /-- `OUT` (20_memory.md R54). -/
  out : OutChan
  /-- The place inside a reading command, off between commands (log 5). -/
  rd : Reader
  /-- The run's parameter `MAGIC` (00_scope.md R8, U2; log 1). No step writes it. -/
  magic : Word
  /-- The host's moves that are still to come (70_reset_and_hazards.md R254; log 3). -/
  moves : List Move
  /-- What the host got back from its last move (log 4). -/
  reply : Reply
  /-- The counter the free values are applied to (log 16). -/
  freeCtr : Nat
deriving DecidableEq, Repr

/-- The state after reset (70_reset_and_hazards.md R241), with nothing attached (log 2) and no host move
to come (log 3). -/
def State.reset : State where
  st := .idle
  err := 0
  freq := Vector.replicate 256 0
  tree := none
  codesValid := false
  code := Vector.replicate 257 none
  pq := []
  cur := none
  inp := { bits := [], pos := 0 }
  out := { bits := [], closed := false }
  rd := .off
  magic := Config.magic
  moves := []
  reply := .nothing
  freeCtr := 0

/-- The outcome of a step. -/
abbrev Result := Host.Outcome State Fault Refusal

/-- How a command's body ends: at its last line, or at a `raise` (60_exceptions.md R212). -/
inductive Ending where
  | done (s : State)
  | raised (e : Cause) (s : State)

end Sys2Proof.Machine
end

