-- ==== Sys2Proof/Machine/Ops.lean ====
section
/-! DEFINITION. The shared operations: the register files with their hardwired entry, the channels, the
priority queue, the tree, and taking a fault and returning from one. -/

namespace Sys2Proof.Machine

open Sys2Proof

/-! ### The register files FREQ and CODE -/

/-- A byte as an index of the stored counts. -/
def byteIndex (w : Byte) : Fin 256 := ⟨w.toNat, w.isLt⟩

/-- `FREQ[s]`: `FREQ[256]` reads 1 always (10_state.md R23). -/
def freqRead (f : Vector Word 256) (s : Symbol) : Word :=
  if h : s.val < 256 then f[s.val] else 1

/-- `FREQ[s] <- v`: a write to `FREQ[256]` changes nothing (10_state.md R23). -/
def freqWrite (f : Vector Word 256) (s : Symbol) (v : Word) : Vector Word 256 :=
  if h : s.val < 256 then f.set s.val v else f

/-- FREQ at its reset value (10_state.md R24). -/
def freqZero : Vector Word 256 := Vector.replicate 256 0

/-- A literal byte as a symbol. -/
def byteSymbol (w : Byte) : Symbol := ⟨w.toNat, Nat.lt_succ_of_lt w.isLt⟩

/-- `CODE[s]` (10_state.md R29). -/
def codeRead (codes : Vector (Option Bits) 257) (s : Symbol) : Option Bits := codes[s.val]

/-- `CODE[s] <- p` (42_codegen.md R135). -/
def codeWrite (codes : Vector (Option Bits) 257) (s : Symbol) (p : Bits) : Vector (Option Bits) 257 :=
  codes.set s.val (some p)

/-- CODE at its reset value (10_state.md R29). -/
def codeNone : Vector (Option Bits) 257 := Vector.replicate 257 none

/-- The symbols in ascending order (00_scope.md R12). -/
def allSymbols : List Symbol := List.finRange 257

/-! ### The input channel -/

/-- The bits not yet read. -/
def InChan.rest (c : InChan) : Bits := c.bits.drop c.pos

/-- `IN.readBits(n)` (20_memory.md R52): a value and the cursor behind it, or EOF (`none`) and the cursor at
the end. -/
def InChan.readBits (n : Nat) (c : InChan) : Option (BitVec n) × InChan :=
  if c.pos + n ≤ c.bits.length then
    (some (ofBitsMsb n (c.rest.take n)), { c with pos := c.pos + n })
  else (none, { c with pos := c.bits.length })

/-- `IN.resetToStart()` (20_memory.md R53). -/
def InChan.resetToStart (c : InChan) : InChan := { c with pos := 0 }

/-- The cursor at the end, where a read that finds too few bits leaves it (20_memory.md R52). -/
def InChan.toEnd (c : InChan) : InChan := { c with pos := c.bits.length }

/-- The cursor such that exactly `rest` is left unread, for a `rest` that ends the channel's bits. -/
def InChan.leaving (c : InChan) (rest : Bits) : InChan :=
  { c with pos := c.bits.length - rest.length }

/-- The 8-bit words that repeated `readBits(8)` gives until EOF: a trailing partial word is dropped
(20_memory.md R52, 40_count.md R110). -/
def wordsOfBits : Bits → List Byte
  | b7 :: b6 :: b5 :: b4 :: b3 :: b2 :: b1 :: b0 :: rest =>
    ofBitsMsb 8 [b7, b6, b5, b4, b3, b2, b1, b0] :: wordsOfBits rest
  | _ => []

/-- The words left to read. -/
def InChan.words (c : InChan) : List Byte := wordsOfBits c.rest

/-- The bit sequence of a byte sequence, most significant bit first (20_memory.md R51). -/
def bitsOfBytes (bs : List Byte) : Bits := bs.flatMap fun b => bitsMsb b

/-! ### The output channel -/

/-- `OUT.writeCode(p)` (20_memory.md R55). -/
def OutChan.writeCode (p : Bits) (o : OutChan) : OutChan := { o with bits := o.bits ++ p }

/-- `OUT.writeBits(n, v)` (20_memory.md R54). -/
def OutChan.writeBits {n : Nat} (v : BitVec n) (o : OutChan) : OutChan := o.writeCode (bitsMsb v)

/-- How many zero bits close appends to `n` bits (20_memory.md R56). -/
def padLength (n : Nat) : Nat := (8 - n % 8) % 8

/-- `OUT.close()` (20_memory.md R56). -/
def OutChan.close (o : OutChan) : OutChan where
  bits := o.bits ++ List.replicate (padLength o.bits.length) false
  closed := true

/-- The byte sequence a consumer sees after close (20_memory.md R56). -/
def OutChan.bytes (o : OutChan) : List Byte := wordsOfBits o.bits

/-- The channel when it held `n` bits, for an `n` no greater than what it holds now: it is append-only
(20_memory.md R54). -/
def OutChan.firstBits (n : Nat) (o : OutChan) : OutChan := { o with bits := o.bits.take n }

/-- A fresh output channel (20_memory.md R54). -/
def OutChan.fresh : OutChan := { bits := [], closed := false }

/-- The form every step keeps of the machine's "memory", its two channels: the cursor stands inside
the input (20_memory.md R51) and a closed output is a whole number of bytes (R56). -/
def Memory.wf (i : InChan) (o : OutChan) : Bool :=
  decide (i.pos ≤ i.bits.length) && (!o.closed || o.bits.length % 8 == 0)

/-! ### Trees -/

/-- `weight(t)` (00_scope.md R11). -/
def Tree.weight : Tree → Weight
  | .leaf _ w => w
  | .node w _ _ => w

/-- `nodes(t)` (00_scope.md R11). -/
def Tree.nodes : Tree → Nat
  | .leaf _ _ => 1
  | .node _ l r => 1 + l.nodes + r.nodes

/-- `leaves(t)` (00_scope.md R11). -/
def Tree.leaves : Tree → Nat
  | .leaf _ _ => 1
  | .node _ l r => l.leaves + r.leaves

/-- `depth(t)` (00_scope.md R11). -/
def Tree.depth : Tree → Nat
  | .leaf _ _ => 0
  | .node _ l r => 1 + max l.depth r.depth

/-- The child a branch bit selects: 0 left, 1 right (45_decompress.md R183). A leaf has no child; the walk
never asks for one. -/
def Tree.child : Tree → Bool → Tree
  | .node _ l r, b => if b then r else l
  | .leaf v w, _ => .leaf v w

/-! ### The priority queue -/

/-- The total order of 10_state.md R32: by weight, then by sequence number, both unsigned. -/
def Entry.before (a b : Entry) : Bool :=
  decide (a.w < b.w) || (decide (a.w = b.w) && decide (a.q < b.q))

/-- `PQ.insert` (10_state.md R32) into a queue held least entry first, so that `removeMin` takes the head. -/
def pqInsert (e : Entry) : List Entry → List Entry
  | [] => [e]
  | x :: xs => if e.before x then e :: x :: xs else x :: pqInsert e xs

/-! ### Faults (60_exceptions.md) -/

/-- `code(E)` (60_exceptions.md R210). -/
def Cause.code : Cause → BitVec 4
  | .formatError => 1
  | .truncatedHeaderError => 2
  | .truncatedBodyError => 3
  | .malformedHeaderError => 4
  | .countOverflowError => 5
  | .missingCodeError => 6
  | .sequenceError => 7
  | .illegalCommandError => 8

/-- The faults that write nothing to OUT: FormatError, those of a `require` line, and the word that is no
command (60_exceptions.md R213, U1, 30_encoding.md R90). -/
def Cause.writesNothing : Cause → Bool
  | .formatError | .sequenceError | .illegalCommandError => true
  | .truncatedHeaderError | .truncatedBodyError | .malformedHeaderError | .countOverflowError
  | .missingCodeError => false

/-- What the fault `e` leaves of OUT (60_exceptions.md R213, U1), `o0` the channel before the command and `o`
where the `raise` found it: any bits follow what was there before, unless the fault writes nothing
or the channel is closed (log 7). The closed flag stays. -/
def outAfterFault (e : Cause) (o0 o : OutChan) (ctr : Nat) : OutChan × Nat :=
  if e.writesNothing || o.closed then (o, ctr)
  else ({ o with bits := o0.bits ++ Config.freeOutBits ctr }, ctr + 1)

/-- TAKING A FAULT, `raise E` (60_exceptions.md R212): `ERR <- code(E)`, `ST <- FAULTED`, nothing saved; every other
change the body made before the `raise` stands, but for the output (R213). No command runs any
longer, so PQ is empty and CUR is none (10_state.md R31, R33; log 8). `s0` is the state before the
command. -/
def takeFault (s0 : State) (e : Cause) (s : State) : State :=
  { s with
    st := .faulted
    err := e.code
    pq := []
    cur := none
    rd := .off
    out := (outAfterFault e s0.out s.out s.freeCtr).1
    freeCtr := (outAfterFault e s0.out s.out s.freeCtr).2 }

/-- THE RETURN FROM A FAULT, and the reset event: every piece of engine state to its reset value, the
channels untouched (46_control.md R195, 70_reset_and_hazards.md R240, R241). -/
def resetEngine (s : State) : State :=
  { s with
    st := .idle
    err := 0
    freq := freqZero
    tree := none
    codesValid := false
    code := codeNone
    pq := []
    cur := none
    rd := .off }

/-- `discard` at the successful end of a composite (44_compress.md R168). -/
def discard (s : State) : State :=
  { s with freq := freqZero, tree := none, codesValid := false, code := codeNone }

/-! ### Running a command -/

/-- One body after another: a `raise` in the first skips the second (44_compress.md R166). -/
def Ending.andThen (r : Ending) (body : State → Ending) : Ending :=
  match r with
  | .done s => body s
  | .raised e s => .raised e s

/-- The end of a command, `s0` the state before it: success, or the fault taken (70_reset_and_hazards.md R254). -/
def finish (s0 : State) : Ending → Result
  | .done s => .next s
  | .raised e s => .next (takeFault s0 e s)

/-- A command other than CLEAR: ignored while FAULTED, else run to its end (30_encoding.md R91). -/
def runCommand (body : State → Ending) (s : State) : Result :=
  match s.st with
  | .faulted => .next s
  | .idle => finish s (body s)

/-- `require c else raise SequenceError` (00_scope.md R12). -/
def requireElse (c : Bool) (s : State) (body : Ending) : Ending :=
  if c then body else .raised .sequenceError s

end Sys2Proof.Machine
end

