-- ==== Sys2Proof/Machine/Operands.lean ====
section
/-! DEFINITION. Operand forms. Commands have none (30_encoding.md R88); what an access names is a register of
the host window (20_memory.md R59), and what a stream token carries is a 9-bit value (30_encoding.md R86). -/

namespace Sys2Proof.Machine

open Sys2Proof

/-- What stands at a word offset of the window (20_memory.md R59). -/
inductive WindowReg where
  | cmd
  | status
  | err
  | freq (s : Symbol)
  | reserved
deriving DecidableEq, Repr

/-- The register map of 20_memory.md R59, for an offset that is a multiple of 4. -/
def windowReg (off : Offset) : WindowReg :=
  let n := off.toNat
  if n = 0x000 then .cmd
  else if n = 0x004 then .status
  else if n = 0x008 then .err
  else if h : 0x400 ≤ n ∧ n ≤ 0x800 then .freq ⟨(n - 0x400) / 4, by omega⟩
  else .reserved

/-- Is it an access the spec gives a meaning: 32 bits at a multiple of 4 (20_memory.md R60)? -/
def goodAccess (width : Nat) (off : Offset) : Bool :=
  width == 32 && off.toNat % 4 == 0

/-- A leaf's value field as a symbol: 0..256 are legal, 257..511 are not (43_header.md R148 (b)). -/
def symbolOfField (v : SymField) : Option Symbol :=
  if h : v.toNat < 257 then some ⟨v.toNat, h⟩ else none

/-- A symbol as the 9-bit value field of a leaf (30_encoding.md R82). -/
def fieldOfSymbol (s : Symbol) : SymField := BitVec.ofNat 9 s.val

end Sys2Proof.Machine
end

