-- ==== Sys2Proof/Machine/Flags.lean ====
section
/-! DEFINITION. The four status flags and the words STATUS and ERR (10_state.md R26, R36). -/

namespace Sys2Proof.Machine

open Sys2Proof

/-- `BUSY`: a command is running. Commands are atomic, so this is false in every state a host can see; it is
true of a state that stands inside a command (10_state.md R26, R31, R33; log 6). -/
def State.busy (s : State) : Bool :=
  s.rd != .off || s.cur.isSome || !s.pq.isEmpty

/-- `FAULT` is a function of `ST` (10_state.md R26). -/
def State.faultFlag (s : State) : Bool := s.st == .faulted

/-- `TREE_VALID` is a function of `TREE` (10_state.md R26). -/
def State.treeValid (s : State) : Bool := s.tree.isSome

/-- The word STATUS reads: [0] BUSY, [1] FAULT, [2] TREE_VALID, [3] CODES_VALID, the rest 0 (10_state.md R36). -/
def State.statusWord (s : State) : Word :=
  (0#28 ++ BitVec.ofBool s.codesValid ++ BitVec.ofBool s.treeValid
    ++ BitVec.ofBool s.faultFlag ++ BitVec.ofBool s.busy).setWidth 32

/-- The word ERR reads: [3:0] the fault code, the rest 0 (10_state.md R36). -/
def State.errWord (s : State) : Word := s.err.setWidth 32

/-- What STATUS reads while a command runs: BUSY = 1, the other bits any value (U5; log 10). -/
def busyStatusWord (ctr : Nat) : Word := Config.freeStatus ctr ||| 1

end Sys2Proof.Machine
end

