-- ==== Sys2Proof/Machine/Count.lean ====
section
/-! DEFINITION. The frequency counter: COUNT (40_count.md). -/

namespace Sys2Proof.Machine

open Sys2Proof

/-- How the counting loop ends: at EOF, or at the word that would take a count past 2^32 − 1; `k` is how many
words have been read by then, that word among them. -/
inductive CountEnd where
  | counted (f : Vector Word 256)
  | overflow (f : Vector Word 256) (k : Nat)

/-- The loop of 40_count.md R110 over the words of IN; `k` words have been read already. -/
def countWords (f : Vector Word 256) (k : Nat) : List Byte → CountEnd
  | [] => .counted f
  | w :: ws =>
    let c := freqRead f (byteSymbol w)
    if c = Config.countMax then .overflow f (k + 1)
    else countWords (freqWrite f (byteSymbol w) (c + 1)) (k + 1) ws

/-- COUNT (40_count.md R110). -/
def countBody (s : State) : Ending :=
  match countWords freqZero 0 s.inp.words with
  | .counted f => .done { s with freq := f, inp := s.inp.toEnd }
  | .overflow f k =>
    .raised .countOverflowError { s with freq := f, inp := { s.inp with pos := s.inp.pos + 8 * k } }

/-- COUNT as a command. -/
def execCount (s : State) : Result := runCommand countBody s

end Sys2Proof.Machine
end

