-- ==== Sys2Proof/Machine/TreeBuild.lean ====
section
/-! DEFINITION. The tree builder: BUILD (41_treebuild.md). -/

namespace Sys2Proof.Machine

open Sys2Proof

/-- The leaf seeded for a symbol, sequence number the symbol (41_treebuild.md R121). -/
def leafEntry (f : Vector Word 256) (s : Symbol) : Entry where
  w := (freqRead f s).setWidth 41
  q := BitVec.ofNat 10 s.val
  t := .leaf s ((freqRead f s).setWidth 41)

/-- The symbols that get a leaf: those with a positive count, in ascending order (41_treebuild.md R121). -/
def seeded (f : Vector Word 256) : List Symbol :=
  allSymbols.filter fun s => freqRead f s != 0

/-- The queue after seeding (41_treebuild.md R120, first loop). -/
def seedQueue (f : Vector Word 256) : List Entry :=
  (seeded f).foldl (fun pq s => pqInsert (leafEntry f s) pq) []

/-- The node that merge `k` makes of the first and the second entry removed (41_treebuild.md R122). -/
def mergedEntry (k : Nat) (a b : Entry) : Entry where
  w := a.w + b.w
  q := BitVec.ofNat 10 (257 + k)
  t := .node (a.w + b.w) a.t b.t

/-- The merge loop of 41_treebuild.md R120, from merge `k` on. Each round takes one entry off the queue's
length, so as many rounds as the queue is long are enough. -/
def mergeAll : Nat → Nat → List Entry → List Entry
  | n + 1, k, a :: b :: rest => mergeAll n (k + 1) (pqInsert (mergedEntry k a b) rest)
  | _, _, pq => pq

/-- The queue's last entry becomes TREE, and the queue is empty again (41_treebuild.md R120, last two lines). -/
def takeRoot (s : State) : State :=
  match s.pq with
  | [] => s
  | e :: rest => { s with tree := some e.t, pq := rest }

/-- BUILD (41_treebuild.md R120). -/
def buildBody (s : State) : Ending :=
  let seededState := { s with codesValid := false, pq := seedQueue s.freq }
  .done (takeRoot { seededState with pq := mergeAll seededState.pq.length 0 seededState.pq })

/-- BUILD as a command. -/
def execBuild (s : State) : Result := runCommand buildBody s

/-- One transition inside BUILD, from a state whose queue is not empty (log 6): the next merge, its number
being how many entries fewer there are than were seeded (FREQ does not change in BUILD), or the end. -/
def buildStep (s : State) : State :=
  match s.pq with
  | a :: b :: rest =>
    let k := (seeded s.freq).length - s.pq.length
    { s with pq := pqInsert (mergedEntry k a b) rest }
  | _ => takeRoot s

end Sys2Proof.Machine
end

