-- ==== Sys2Proof/Machine/CodeGen.lean ====
section
/-! DEFINITION. The code table generator: GENCODES (42_codegen.md). -/

namespace Sys2Proof.Machine

open Sys2Proof

/-- `walk(t, p)` of 42_codegen.md R135, left before right, so that of two leaves with one symbol the later one
in preorder keeps the entry (R137). -/
def genWalk : Tree → Bits → Vector (Option Bits) 257 → Vector (Option Bits) 257
  | .leaf v _, p, c => codeWrite c v p
  | .node _ l r, p, c => genWalk r (p ++ [true]) (genWalk l (p ++ [false]) c)

/-- The code file of a tree. -/
def codeTable (t : Tree) : Vector (Option Bits) 257 := genWalk t [] codeNone

/-- GENCODES (42_codegen.md R135). -/
def gencodesBody (s : State) : Ending :=
  match s.tree with
  | none => .raised .sequenceError s
  | some t => .done { s with code := codeTable t, codesValid := true }

/-- GENCODES as a command. -/
def execGencodes (s : State) : Result := runCommand gencodesBody s

end Sys2Proof.Machine
end

