-- ==== Sys2Proof/Machine/Header.lean ====
section
/-! DEFINITION. The header codec: WRHDR, RDHDR and the two header tokens (43_header.md, 30_encoding.md R82). -/

namespace Sys2Proof.Machine

open Sys2Proof

/-! ### Writing -/

/-- `emit(t)` of 43_header.md R145. -/
def emitHeader : Tree → OutChan → OutChan
  | .node _ l r, o => emitHeader r (emitHeader l (o.writeBits 0#1))
  | .leaf v _, o => (o.writeBits 1#1).writeBits (fieldOfSymbol v)

/-- WRHDR (43_header.md R145). -/
def wrhdrBody (s : State) : Ending :=
  match s.tree with
  | none => .raised .sequenceError s
  | some t => requireElse (!s.out.closed) s (.done { s with out := emitHeader t s.out })

/-- WRHDR as a command. -/
def execWrhdr (s : State) : Result := runCommand wrhdrBody s

/-! ### Reading: one token -/

/-- What a token does to a header that is being read. -/
inductive Fed where
  | more (room : Nat) (openNodes : List (Option Tree))
  | root (t : Tree)
  | malformed

/-- A finished subtree goes to the innermost open node: as its left child, or as its right child, which
finishes that node, weight 0, and so on outwards (43_header.md R147). With none open it is the root. -/
def deliver (room : Nat) : Tree → List (Option Tree) → Fed
  | t, [] => .root t
  | t, none :: rest => .more room (some t :: rest)
  | t, some l :: rest => deliver room (.node 0 l t) rest

/-- The token of an internal node: one node more, whose left child is due next, if there is room for a node
(43_header.md R148 (c)). -/
def feedInternal (room : Nat) (openNodes : List (Option Tree)) : Fed :=
  match room with
  | 0 => .malformed
  | room + 1 => .more room (none :: openNodes)

/-- The token of a leaf: one node more, of weight 0, if there is room for a node and the value is legal
(43_header.md R148 (c), (b)). -/
def feedLeaf (room : Nat) (openNodes : List (Option Tree)) (v : SymField) : Fed :=
  match room with
  | 0 => .malformed
  | room + 1 =>
    match symbolOfField v with
    | none => .malformed
    | some sym => deliver room (.leaf sym 0) openNodes

/-- The state after a token of a header: still inside RDHDR, or at its end with the tree in TREE. -/
def applyFed (s : State) : Fed → Ending
  | .more room openNodes => .done { s with rd := .header room openNodes }
  | .root t => .done { s with tree := some t, rd := .off }
  | .malformed => .raised .malformedHeaderError s

/-- The header that is being read; outside one, a header at its first token (log 5). -/
def Reader.place : Reader → Nat × List (Option Tree)
  | .header room openNodes => (room, openNodes)
  | .off | .magic | .body _ => (Config.nodeCap, [])

/-- The token of an internal node, taken by the header reader (30_encoding.md R82, 43_header.md R147). -/
def streamHdrInternalBody (s : State) : Ending :=
  applyFed s (feedInternal s.rd.place.1 s.rd.place.2)

/-- STREAM.HDR_INTERNAL as an instruction. -/
def execStreamHdrInternal (s : State) : Result := runCommand streamHdrInternalBody s

/-- The token of a leaf, taken by the header reader (30_encoding.md R82, 43_header.md R147, R148 (b)). -/
def streamHdrLeafBody (v : SymField) (s : State) : Ending :=
  applyFed s (feedLeaf s.rd.place.1 s.rd.place.2 v)

/-- STREAM.HDR_LEAF as an instruction. -/
def execStreamHdrLeaf (v : SymField) (s : State) : Result := runCommand (streamHdrLeafBody v) s

/-! ### Reading: the whole header -/

/-- How `readNode()` of 43_header.md R147 ends, with the bits left unread. -/
inductive HeaderEnd where
  | tree (t : Tree) (rest : Bits)
  | truncated
  | malformed (rest : Bits)

/-- RDHDR's recursion over the unread bits, its stack held in `openNodes`; `room` is 513 − n. With no room
left the next node is refused before its discriminator is read (43_header.md R148 (c)); then EOF at
the discriminator, EOF in the value, and the value's range are tested in that order
(60_exceptions.md R216). -/
def readHeader : Nat → List (Option Tree) → Bits → HeaderEnd
  | 0, _, bits => .malformed bits
  | _ + 1, _, [] => .truncated
  | room + 1, openNodes, false :: bits => readHeader room (none :: openNodes) bits
  | room + 1, openNodes, true :: bits =>
    if bits.length < 9 then .truncated
    else
      match feedLeaf (room + 1) openNodes (ofBitsMsb 9 (bits.take 9)) with
      | .malformed => .malformed (bits.drop 9)
      | .root t => .tree t (bits.drop 9)
      | .more _ openNodes' => readHeader room openNodes' (bits.drop 9)

/-- RDHDR (43_header.md R147). -/
def rdhdrBody (s : State) : Ending :=
  let started := { s with tree := none, codesValid := false }
  match readHeader Config.nodeCap [] s.inp.rest with
  | .tree t rest => .done { started with tree := some t, inp := s.inp.leaving rest }
  | .truncated => .raised .truncatedHeaderError { started with inp := s.inp.toEnd }
  | .malformed rest => .raised .malformedHeaderError { started with inp := s.inp.leaving rest }

/-- RDHDR as a command. -/
def execRdhdr (s : State) : Result := runCommand rdhdrBody s

end Sys2Proof.Machine
end

