-- ==== Sys2Proof/Machine/Compress.lean ====
section
/-! DEFINITION. The bit-stream encoder: WRMAGIC, REWIND, ENCODE, CLOSE, COMPRESS (44_compress.md). -/

namespace Sys2Proof.Machine

open Sys2Proof

/-- WRMAGIC (44_compress.md R160). -/
def wrmagicBody (s : State) : Ending :=
  requireElse (!s.out.closed) s (.done { s with out := s.out.writeBits s.magic })

/-- WRMAGIC as a command. -/
def execWrmagic (s : State) : Result := runCommand wrmagicBody s

/-- REWIND (44_compress.md R161). -/
def rewindBody (s : State) : Ending := .done { s with inp := s.inp.resetToStart }

/-- REWIND as a command. -/
def execRewind (s : State) : Result := runCommand rewindBody s

/-- How the encoding loop ends: at EOF, or at a word without a code; `k` is how many words have been read by
then, that word among them. -/
inductive EncodeEnd where
  | encoded (o : OutChan)
  | missing (o : OutChan) (k : Nat)

/-- The loop of 44_compress.md R162 over the words of IN; `k` words have been read already. -/
def encodeWords (c : Vector (Option Bits) 257) (o : OutChan) (k : Nat) : List Byte → EncodeEnd
  | [] => .encoded o
  | w :: ws =>
    match codeRead c (byteSymbol w) with
    | none => .missing o (k + 1)
    | some p => encodeWords c (o.writeCode p) (k + 1) ws

/-- ENCODE (44_compress.md R162). -/
def encodeBody (s : State) : Ending :=
  requireElse (s.codesValid && !s.out.closed) s <|
    match encodeWords s.code s.out 0 s.inp.words with
    | .missing o k =>
      .raised .missingCodeError { s with out := o, inp := { s.inp with pos := s.inp.pos + 8 * k } }
    | .encoded o =>
      match codeRead s.code Config.pseudoEof with
      | none => .raised .missingCodeError { s with out := o, inp := s.inp.toEnd }
      | some p => .done { s with out := o.writeCode p, inp := s.inp.toEnd }

/-- ENCODE as a command. -/
def execEncode (s : State) : Result := runCommand encodeBody s

/-- CLOSE (44_compress.md R165). -/
def closeBody (s : State) : Ending :=
  requireElse (!s.out.closed) s (.done { s with out := s.out.close })

/-- CLOSE as a command. -/
def execClose (s : State) : Result := runCommand closeBody s

/-- COMPRESS: the unit bodies in the order of 44_compress.md R166, then `discard` (R168). -/
def compressBody (s : State) : Ending :=
  (countBody s)
    |>.andThen buildBody
    |>.andThen gencodesBody
    |>.andThen wrmagicBody
    |>.andThen wrhdrBody
    |>.andThen rewindBody
    |>.andThen encodeBody
    |>.andThen closeBody
    |>.andThen fun t => .done (discard t)

/-- COMPRESS as a command. -/
def execCompress (s : State) : Result := runCommand compressBody s

end Sys2Proof.Machine
end

