-- ==== Sys2Proof/Machine/Decompress.lean ====
section
/-! DEFINITION. The bit-stream decoder: RDMAGIC, DECODE, DECOMPRESS and the magic field of a stream
(45_decompress.md). -/

namespace Sys2Proof.Machine

open Sys2Proof

/-- The 32 bits that stand in a magic field against `MAGIC` (45_decompress.md R180). The read is over. -/
def streamMagicBody (m : Word) (s : State) : Ending :=
  if m = s.magic then .done { s with rd := .off } else .raised .formatError { s with rd := .off }

/-- STREAM.MAGIC as an instruction. -/
def execStreamMagic (m : Word) (s : State) : Result := runCommand (streamMagicBody m) s

/-- RDMAGIC (45_decompress.md R180): EOF equals no 32-bit value, so it is FormatError too. -/
def rdmagicBody (s : State) : Ending :=
  match s.inp.readBits 32 with
  | (none, inp) => .raised .formatError { s with inp := inp }
  | (some v, inp) => streamMagicBody v { s with inp := inp }

/-- RDMAGIC as a command. -/
def execRdmagic (s : State) : Result := runCommand rdmagicBody s

/-- How the walk ends: at the PSEUDO_EOF leaf with bits left unread, or at EOF (45_decompress.md R183). -/
inductive WalkEnd where
  | stopped (o : OutChan) (rest : Bits)
  | truncated (o : OutChan)

/-- The walk of 45_decompress.md R181, R183 over the unread bits, from the node `cur` of the tree `root`. -/
def walkBits (root : Tree) : Tree → OutChan → Bits → WalkEnd
  | _, o, [] => .truncated o
  | cur, o, b :: bits =>
    match cur.child b with
    | .node w l r => walkBits root (.node w l r) o bits
    | .leaf v _ =>
      if v = Config.pseudoEof then .stopped o bits
      else walkBits root root (o.writeBits (BitVec.ofNat 8 v.val)) bits

/-- DECODE with a tree in place and an open output: a root that is a leaf first (45_decompress.md R182), then
the walk from the root (R181). -/
def decodeTree (t : Tree) (s : State) : Ending :=
  match t with
  | .leaf v _ => if v = Config.pseudoEof then .done { s with cur := none } else .raised .malformedHeaderError s
  | .node _ _ _ =>
    match walkBits t t s.out s.inp.rest with
    | .stopped o rest => .done { s with out := o, inp := s.inp.leaving rest, cur := none }
    | .truncated o => .raised .truncatedBodyError { s with out := o, inp := s.inp.toEnd }

/-- DECODE (45_decompress.md R181). -/
def decodeBody (s : State) : Ending :=
  match s.tree with
  | none => .raised .sequenceError s
  | some t => requireElse (!s.out.closed) s (decodeTree t s)

/-- DECODE as a command. -/
def execDecode (s : State) : Result := runCommand decodeBody s

/-- One transition of the walk, from `CUR` = `cur` and the next input bit (the table of 45_decompress.md R183). -/
def walkStep (cur : Tree) (s : State) : Ending :=
  match s.inp.readBits 1 with
  | (none, inp) => .raised .truncatedBodyError { s with inp := inp }
  | (some b, inp) =>
    match cur.child (b == 1#1) with
    | .node w l r => .done { s with inp := inp, cur := some (.node w l r) }
    | .leaf v _ =>
      if v = Config.pseudoEof then .done { s with inp := inp, cur := none, rd := .off }
      else .done { s with inp := inp, out := s.out.writeBits (BitVec.ofNat 8 v.val), cur := s.tree }

/-- OUT before the DECODE that the state stands inside. -/
def outBeforeDecode (s : State) : OutChan :=
  match s.rd with
  | .body start => s.out.firstBits start
  | .off | .magic | .header _ _ => s.out

/-- That transition to its end: a fault leaves what followed the bits OUT held before DECODE any value, the
words already appended among it (60_exceptions.md R213). -/
def runWalkStep (cur : Tree) (s : State) : Result :=
  match s.st with
  | .faulted => .next s
  | .idle => finish { s with out := outBeforeDecode s } (walkStep cur s)

/-- DECOMPRESS: the unit bodies in the order of 45_decompress.md R185, then `discard` (R186). -/
def decompressBody (s : State) : Ending :=
  (rdmagicBody s)
    |>.andThen rdhdrBody
    |>.andThen decodeBody
    |>.andThen closeBody
    |>.andThen fun t => .done (discard t)

/-- DECOMPRESS as a command. -/
def execDecompress (s : State) : Result := runCommand decompressBody s

end Sys2Proof.Machine
end

