-- ==== Sys2Proof/Machine/Control.lean ====
section
/-! DEFINITION. CLEAR, the return from a fault (46_control.md R195). -/

namespace Sys2Proof.Machine

open Sys2Proof

/-- CLEAR (46_control.md R195): taken in both modes (30_encoding.md R91). -/
def execClear (s : State) : Result := .next (resetEngine s)

end Sys2Proof.Machine
end

