-- ==== Sys2Proof/Machine/Dispatch.lean ====
section
/-! DEFINITION. The meaning of every instruction, one arm per row of the opcode table. -/

namespace Sys2Proof.Machine

open Sys2Proof

def exec (i : Instr) (s : State) : Host.Outcome State Fault Refusal :=
  match i with
  | .clear => Sys2Proof.Machine.execClear s
  | .count => Sys2Proof.Machine.execCount s
  | .build => Sys2Proof.Machine.execBuild s
  | .gencodes => Sys2Proof.Machine.execGencodes s
  | .wrhdr => Sys2Proof.Machine.execWrhdr s
  | .rdhdr => Sys2Proof.Machine.execRdhdr s
  | .wrmagic => Sys2Proof.Machine.execWrmagic s
  | .rdmagic => Sys2Proof.Machine.execRdmagic s
  | .rewind => Sys2Proof.Machine.execRewind s
  | .encode => Sys2Proof.Machine.execEncode s
  | .decode => Sys2Proof.Machine.execDecode s
  | .close => Sys2Proof.Machine.execClose s
  | .compress => Sys2Proof.Machine.execCompress s
  | .decompress => Sys2Proof.Machine.execDecompress s
  | .streamMagic m => Sys2Proof.Machine.execStreamMagic m s
  | .streamHdrInternal => Sys2Proof.Machine.execStreamHdrInternal s
  | .streamHdrLeaf v => Sys2Proof.Machine.execStreamHdrLeaf v s

end Sys2Proof.Machine
end

