-- ==== Sys2Proof/Machine/HostMoves.lean ====
section
/-! DEFINITION. The host's moves (70_reset_and_hazards.md R253) and the transitions of a state that stands
inside a command (log 6). -/

namespace Sys2Proof.Machine

open Sys2Proof

/-! ### The register window -/

/-- A word written to CMD (30_encoding.md R91). `exec` ignores every command but CLEAR while FAULTED. -/
def cmdWrite (w : Word) (s : State) : Result :=
  match decode (.command w) with
  | .ok i => exec i s
  | .error _ => runCommand (fun t => .raised .illegalCommandError t) s

/-- `HostWrite(off, v)` (46_control.md R197, R198). -/
def hostWrite (off : Offset) (v : Word) (s : State) : Result :=
  match windowReg off with
  | .cmd => cmdWrite v s
  | .freq sym => runCommand (fun t => .done { t with freq := freqWrite t.freq sym v }) s
  | .status | .err | .reserved => .next s

/-- The word a window read gives (46_control.md R196). -/
def windowWord (off : Offset) (s : State) : Word :=
  match windowReg off with
  | .cmd => 0
  | .status => s.statusWord
  | .err => s.errWord
  | .freq sym => freqRead s.freq sym
  | .reserved => 0

/-! ### While a command runs -/

/-- Does the word start a command in this state (30_encoding.md R91)? If so, which? -/
def startsCommand (w : Word) (s : State) : Option Instr :=
  match decode (.command w), s.st with
  | .ok i, .idle => some i
  | .ok .clear, .faulted => some .clear
  | _, _ => none

/-- Does the command reach the output in this state? Not past a `require` line that fails (20_memory.md R57,
60_exceptions.md R216), nor in DECODE of a root that is a leaf (45_decompress.md R182). The composites reach it
behind the units before: COMPRESS past COUNT (44_compress.md R166), DECOMPRESS past RDMAGIC and RDHDR
(45_decompress.md R185), and there at CLOSE if the root is the leaf 256. -/
def reachesOut (i : Instr) (s : State) : Bool :=
  !s.out.closed &&
    match i with
    | .clear | .count | .build | .gencodes | .rdhdr | .rdmagic | .rewind => false
    | .streamMagic _ | .streamHdrInternal | .streamHdrLeaf _ => false
    | .wrmagic | .close => true
    | .wrhdr => s.tree.isSome
    | .encode => s.codesValid
    | .decode =>
      match s.tree with
      | some (.node _ _ _) => true
      | some (.leaf _ _) | none => false
    | .compress =>
      match countBody s with
      | .done _ => true
      | .raised _ _ => false
    | .decompress =>
      match (rdmagicBody s).andThen rdhdrBody with
      | .done t =>
        match t.tree with
        | some (.node _ _ _) => true
        | some (.leaf v _) => decide (v = Config.pseudoEof)
        | none => false
      | .raised _ _ => false

/-- Does the command reach a channel in this state? ENCODE and DECODE pass their `require` lines for both
channels at once. -/
def reachesChannel (i : Instr) (s : State) : Bool :=
  match i with
  | .count | .rdhdr | .rdmagic | .rewind | .compress | .decompress => true
  | .streamMagic _ | .streamHdrInternal | .streamHdrLeaf _ => true
  | .clear | .build | .gencodes | .wrhdr | .wrmagic | .close | .encode | .decode => reachesOut i s

/-- Where the cursor stands when the command ends. -/
def lastPos (i : Instr) (s : State) : Nat :=
  match exec i s with
  | .next t => t.inp.pos
  | .fault _ | .refused _ => s.inp.pos

/-- Where the command `i` may have left the cursor when it is cut short, by the free value `f`
(70_reset_and_hazards.md R242): from where it stood to where the whole command takes it, for it only grows
(10_state.md R25). REWIND has set it to 0 or not yet. COMPRESS that gets past WRMAGIC has gone back to 0 and
forward again (44_compress.md R166), so it may stand anywhere in the input. -/
def cutCursor (i : Instr) (f : Nat) (s : State) : InChan :=
  if i = .rewind then (if f = 0 then s.inp.resetToStart else s.inp)
  else if i = .compress ∧ reachesOut i s = true then { s.inp with pos := min f s.inp.bits.length }
  else { s.inp with pos := s.inp.pos + min f (lastPos i s - s.inp.pos) }

/-- A reset that cuts the command `i` short (70_reset_and_hazards.md R240, R242): engine state to reset values,
no fault; where the command had got to on the channels it reaches is a free value (log 9). -/
def cutShort (i : Instr) (s : State) : State :=
  { resetEngine s with
    inp := cutCursor i (Config.freeInPos s.freeCtr) s
    out := if reachesOut i s then s.out.writeCode (Config.freeOutBits s.freeCtr) else s.out
    freeCtr := s.freeCtr + 1 }

/-! ### Accesses -/

/-- An access while no command runs (70_reset_and_hazards.md R253). -/
def hostAccess (a : Access) (s : State) : Result :=
  match a with
  | .attachIn bits => .next { s with inp := { bits := bits, pos := 0 } }
  | .attachOut => .next { s with out := OutChan.fresh }
  | .write width off v => if goodAccess width off then hostWrite off v s else .refused .badAccess
  | .read width off =>
    if goodAccess width off then .next { s with reply := .word (windowWord off s) }
    else .refused .badAccess
  | .readOut =>
    if s.out.closed then .next { s with reply := .bytes s.out.bytes } else .refused .outputNotClosed

/-- An access while the command `i` runs: a STATUS read, or one the spec refuses (70_reset_and_hazards.md R246,
R253; U5). -/
def accessWhileRunning (i : Instr) (a : Access) (s : State) : Result :=
  if a = .read 32 0x004 then
    match exec i s with
    | .next t => .next { t with reply := .word (busyStatusWord t.freeCtr), freeCtr := t.freeCtr + 1 }
    | .fault r => .fault r
    | .refused r => .refused r
  else .refused .accessWhileBusy

/-- The event falls into the run of the command `i` (70_reset_and_hazards.md R246, R242, R251). -/
def eventWhileRunning (i : Instr) (e : BusyEvent) (s : State) : Result :=
  match e with
  | .access a => accessWhileRunning i a s
  | .reset => .next (cutShort i s)
  | .channelHangs => if reachesChannel i s then .fault .channelBlocked else exec i s

/-- The event comes when no command runs: an access or a reset like any other, a channel nobody asks. -/
def eventWhileIdle (e : BusyEvent) (s : State) : Result :=
  match e with
  | .access a => hostAccess a s
  | .reset => .next (resetEngine s)
  | .channelHangs => .next s

/-- A CMD write with an event inside the command it starts (70_reset_and_hazards.md R246, R253; U4, U5). A word
that starts no command leaves nothing for the event to fall into: it comes after the write. -/
def duringCommand (w : Word) (e : BusyEvent) (s : State) : Result :=
  match startsCommand w s with
  | some i => eventWhileRunning i e s
  | none =>
    match cmdWrite w s with
    | .next t => eventWhileIdle e t
    | .fault r => .fault r
    | .refused r => .refused r

/-! ### One move -/

/-- A move of the host between commands (70_reset_and_hazards.md R253). -/
def hostMove (m : Move) (s : State) : Result :=
  match m with
  | .reset => .next (resetEngine s)
  | .access a => hostAccess a s
  | .during w e => duringCommand w e s

/-! ### Inside a command (log 6) -/

/-- Inside RDMAGIC: the 32-bit field at the cursor is fetched, decoded and run (45_decompress.md R180). -/
def magicStep (s : State) : Result :=
  match decode (.magic s.inp.rest) with
  | .ok i => exec i { s with inp := { s.inp with pos := s.inp.pos + 32 } }
  | .error _ => runCommand (fun t => .raised .formatError t) { s with inp := s.inp.toEnd }

/-- How many bits a header token takes (30_encoding.md R82). -/
def tokenLength : Instr → Nat
  | .streamHdrLeaf _ => 10
  | _ => 1

/-- Inside RDHDR: the node capacity is tested, then the token at the cursor is fetched, decoded and run
(43_header.md R147). -/
def headerStep (room : Nat) (s : State) : Result :=
  if room = 0 then runCommand (fun t => .raised .malformedHeaderError t) s
  else
    match decode (.header s.inp.rest) with
    | .ok i => exec i { s with inp := { s.inp with pos := s.inp.pos + tokenLength i } }
    | .error _ => runCommand (fun t => .raised .truncatedHeaderError t) { s with inp := s.inp.toEnd }

/-- The state RDHDR's first lines leave, before its first token (43_header.md R147). -/
def startHeader (s : State) : State :=
  { s with tree := none, codesValid := false, rd := .header Config.nodeCap [] }

/-- The state in which DECODE is at the root, before its first bit (45_decompress.md R181). -/
def startWalk (s : State) : State := { s with cur := s.tree, rd := .body s.out.bits.length }

/-- The state in which BUILD has seeded its queue and merged nothing yet (41_treebuild.md R120). -/
def startMerge (s : State) : State :=
  { s with codesValid := false, pq := seedQueue s.freq }

/-! ### One step -/

/-- One step: inside a command the engine's next transition; between commands the host's next move; with no
move left the engine is idle and waits (70_reset_and_hazards.md R240, R254; log 3). -/
def stepOf (s : State) : Result :=
  match s.rd with
  | .magic => magicStep s
  | .header room _ => headerStep room s
  | .off | .body _ =>
    match s.cur with
    | some cur => runWalkStep cur s
    | none =>
      match s.pq with
      | _ :: _ => .next (buildStep s)
      | [] =>
        match s.moves with
        | [] => .next s
        | m :: rest => hostMove m { s with moves := rest, reply := .nothing }

/-- `s` with a table row's bits where `stepOf` fetches next (log 19): a command word as the host's next move, a
CMD write; a stream token at the input cursor, with the engine at RDMAGIC's read or at the start of a header. -/
def placeFetchWord (s : State) (nbits w : Nat) : State :=
  match tableTokenBits nbits w with
  | some bits =>
    { s with
      rd := if nbits = 32 then .magic else .header Config.nodeCap []
      inp := { s.inp with bits := s.inp.bits.take s.inp.pos ++ bits ++ s.inp.rest } }
  | none =>
    { s with
      rd := .off
      cur := none
      pq := []
      moves := .access (.write 32 0 (BitVec.ofNat 32 w)) :: s.moves }

end Sys2Proof.Machine
end

