-- ==== Sys2Proof/Safety.lean ====
section
/-! DEFINITION. The terms claims are stated in: states between commands, the invariant, a launch state, and
the spec's own functions of trees, codes and streams, written from its rules and not from the meanings. -/

namespace Sys2Proof.Machine

open Sys2Proof

/-! ### States -/

/-- A state between commands: nothing stands inside a command (10_state.md R25 (a), R31, R33). These are the
only states a host can see, and the only ones a run reaches (log 6). -/
def State.quiet (s : State) : Prop := s.rd = .off ∧ s.cur = none ∧ s.pq = []

/-- IDLE with no fault recorded: the premise, and the aim, of a run meant to succeed (70_reset_and_hazards.md R254). -/
def State.healthy (s : State) : Prop := s.st = .idle ∧ s.err = 0

/-- What a step keeps of every state between commands. -/
structure State.Inv (s : State) : Prop where
  /-- Nothing stands inside a command. -/
  quiet : s.quiet
  /-- The channels keep their form (20_memory.md R51, R56). -/
  memory : Memory.wf s.inp s.out = true
  /-- ERR is 0 exactly while IDLE (60_exceptions.md R212, R214). -/
  errMode : s.err = 0 ↔ s.st = .idle
  /-- The legal values of ERR[3:0] (10_state.md R36). -/
  errLegal : s.err.toNat ≤ 8
  /-- `nodes(TREE)` ≤ `NODE_CAP` (10_state.md R27). -/
  treeFits : ∀ t, s.tree = some t → t.nodes ≤ Config.nodeCap
  /-- A code has at most `CODE_MAX` bits (10_state.md R29). -/
  codesFit : ∀ v p, codeRead s.code v = some p → p.length ≤ Config.codeMax
  /-- While CODES_VALID is 1, CODE is the code table of TREE (10_state.md R30). -/
  codesMean : s.codesValid = true → ∃ t, s.tree = some t ∧ s.code = codeTable t

/-- A launch state for COMPRESS or DECOMPRESS: the host has done the setup of 70_reset_and_hazards.md R243 with
these input bytes. -/
def State.launch (s : State) (input : List Byte) : Prop :=
  s.healthy ∧ s.quiet ∧ s.inp = { bits := bitsOfBytes input, pos := 0 } ∧ s.out = OutChan.fresh

/-- `t` is `s`, the state at a `raise`, with the fault of this code taken, where the spec leaves the output open
(60_exceptions.md R212, R213, U1): it begins with what it held, and any bits follow; a closed one stays. -/
def State.faultLeaves (s : State) (code : BitVec 4) (t : State) : Prop :=
  ∃ bits ctr, s.out.bits <+: bits ∧ (s.out.closed = true → bits = s.out.bits) ∧
    t = { s with st := .faulted, err := code, out := { bits := bits, closed := s.out.closed }, freeCtr := ctr }

/-- `n` steps, stopping at the first fault or refusal. -/
def runSteps : Nat → State → Result
  | 0, s => .next s
  | n + 1, s =>
    match step s with
    | .next t => runSteps n t
    | .fault r => .fault r
    | .refused r => .refused r

/-- Commands given one after another, each once the one before has succeeded: the state after the last one, or
after the first that faults (70_reset_and_hazards.md R245). -/
def runUnits : List Instr → State → State
  | [], s => s
  | i :: is, s =>
    match exec i s with
    | .next t => if t.st = .idle then runUnits is t else t
    | .fault _ | .refused _ => s

/-- The units of COMPRESS (44_compress.md R166). -/
def compressUnits : List Instr := [.count, .build, .gencodes, .wrmagic, .wrhdr, .rewind, .encode, .close]

/-- The units of DECOMPRESS (45_decompress.md R185). -/
def decompressUnits : List Instr := [.rdmagic, .rdhdr, .decode, .close]

/-! ### Trees and codes -/

/-- `H(t)` (30_encoding.md R82). -/
def Tree.headerBits : Tree → Bits
  | .node _ l r => false :: (l.headerBits ++ r.headerBits)
  | .leaf v _ => true :: bitsMsb (BitVec.ofNat 9 v.val)

/-- The leaves with their paths, in preorder (42_codegen.md R136, R137). -/
def Tree.paths : Tree → List (Symbol × Bits)
  | .leaf v _ => [(v, [])]
  | .node _ l r =>
    l.paths.map (fun p => (p.1, false :: p.2)) ++ r.paths.map (fun p => (p.1, true :: p.2))

/-- The leaves with their weights, in preorder. -/
def Tree.leafList : Tree → List (Symbol × Weight)
  | .leaf v w => [(v, w)]
  | .node _ l r => l.leafList ++ r.leafList

/-- The path of the last leaf, in preorder, that holds `v` (42_codegen.md R137). -/
def Tree.codeOf (t : Tree) (v : Symbol) : Option Bits :=
  (t.paths.reverse.find? fun p => p.1 == v).map (·.2)

/-- The tree with every weight replaced by 0 (43_header.md R149). -/
def Tree.zeroWeights : Tree → Tree
  | .leaf v _ => .leaf v 0
  | .node _ l r => .node 0 l.zeroWeights r.zeroWeights

/-- Every internal node's weight is the exact sum of its children's (10_state.md R28, 46_control.md R201), and
the left child is no heavier than the right one (41_treebuild.md R122). -/
def Tree.merged : Tree → Prop
  | .leaf _ _ => True
  | .node w l r =>
    w.toNat = l.weight.toNat + r.weight.toNat ∧ l.weight.toNat ≤ r.weight.toNat ∧ l.merged ∧ r.merged

/-- The sum of weight times depth over the leaves of a subtree that hangs at depth `d` (41_treebuild.md R124). -/
def Tree.cost (f : Vector Word 256) : Nat → Tree → Nat
  | d, .leaf v _ => d * (freqRead f v).toNat
  | d, .node _ l r => l.cost f (d + 1) + r.cost f (d + 1)

/-- The symbols a tree for the table `f` is about (41_treebuild.md R121). -/
def positiveSymbols (f : Vector Word 256) : List Symbol :=
  allSymbols.filter fun v => freqRead f v != 0

/-- The entry `a` leaves the queue before `b`: it weighs less, or the same and was inserted earlier
(10_state.md R32, 41_treebuild.md R123). -/
def Entry.precedes (a b : Entry) : Prop :=
  a.w.toNat < b.w.toNat ∨ (a.w.toNat = b.w.toNat ∧ a.q.toNat < b.q.toNat)

/-- The merging of 41_treebuild.md R122, from merge `k` on, over a queue whose order as a list means nothing: `t`
is the tree it ends in. -/
inductive MergesTo : Nat → List Entry → Tree → Prop where
  /-- One entry is left: its tree. -/
  | root (k : Nat) (e : Entry) : MergesTo k [e] e.t
  /-- The least entry `a` becomes the left child, the least `b` of what is left the right one; the sum of their
  weights is the node's, and 257 + k its sequence number. -/
  | merge (k : Nat) (queue : List Entry) (a b : Entry) (rest : List Entry) (t : Tree) :
      queue.Perm (a :: b :: rest) → (∀ x ∈ b :: rest, a.precedes x) → (∀ x ∈ rest, b.precedes x) →
      MergesTo (k + 1) ({ w := a.w + b.w, q := BitVec.ofNat 10 (257 + k), t := .node (a.w + b.w) a.t b.t } :: rest) t →
      MergesTo k queue t

/-! ### Header tokens -/

/-- The bits of a header token: `none` an internal node, `some v` a leaf (30_encoding.md R82). -/
def tokenBits : Option Symbol → Bits
  | none => [false]
  | some v => true :: bitsMsb (BitVec.ofNat 9 v.val)

/-- How many subtrees are still due after these tokens, `d` before them; once none is due the header is over
(43_header.md R147: an internal node is replaced by two subtrees, a leaf is one). -/
def subtreesDue : Nat → List (Option Symbol) → Nat
  | 0, _ => 0
  | d + 1, [] => d + 1
  | d + 1, none :: toks => subtreesDue (d + 2) toks
  | d + 1, some _ :: toks => subtreesDue d toks

/-! ### Streams -/

/-- Over the tree, `q` is a path to a leaf of each word in turn and then one to a leaf of 256
(30_encoding.md R83, 45_decompress.md R184). -/
def Tree.spells (t : Tree) : List Byte → Bits → Prop
  | [], q => (Config.pseudoEof, q) ∈ t.paths
  | w :: ws, q => ∃ p r, (byteSymbol w, p) ∈ t.paths ∧ q = p ++ r ∧ t.spells ws r

/-- The codes of a word sequence one after another, `none` if a word has no code (30_encoding.md R83). -/
def codesOfWords (c : Symbol → Option Bits) : List Byte → Option Bits
  | [] => some []
  | w :: ws =>
    match c (byteSymbol w), codesOfWords c ws with
    | some p, some q => some (p ++ q)
    | _, _ => none

/-- The body of a stream: the codes of the words, then the code of 256 (30_encoding.md R83). -/
def bodyBits (c : Symbol → Option Bits) (ws : List Byte) : Option Bits :=
  match codesOfWords c ws, c Config.pseudoEof with
  | some p, some q => some (p ++ q)
  | _, _ => none

/-- The zero bits that make `n` bits whole bytes (30_encoding.md R84). -/
def padBits (n : Nat) : Bits := List.replicate (padLength n) false

/-- The faults a command can raise (60_exceptions.md R210, column "raised by"). -/
def causesOf : Instr → List Cause
  | .clear | .build | .rewind => []
  | .count => [.countOverflowError]
  | .gencodes | .wrhdr | .wrmagic | .close => [.sequenceError]
  | .rdhdr => [.truncatedHeaderError, .malformedHeaderError]
  | .rdmagic => [.formatError]
  | .encode => [.missingCodeError, .sequenceError]
  | .decode => [.truncatedBodyError, .malformedHeaderError, .sequenceError]
  | .compress => [.countOverflowError, .missingCodeError, .sequenceError]
  | .decompress =>
    [.formatError, .truncatedHeaderError, .truncatedBodyError, .malformedHeaderError, .sequenceError]
  | .streamMagic _ => [.formatError]
  | .streamHdrInternal | .streamHdrLeaf _ => [.malformedHeaderError]

end Sys2Proof.Machine
end

