-- ==== Sys2Proof/Certificates/Slice0/Obligations.lean ====
section
/-! DEFINITION. The statements for the provers, from the spec's numbered rules. -/

open Sys2Proof Sys2Proof.Machine

/-! ### Encoding -/

/-- 30_encoding.md R89, R81, R82: every command word, and tokens written out bit by bit (`"0"`,
`"1 001100001"` of 43_header.md R145's example, `"1 100000000"`, the 32 bits of 44_compress.md R160's example). -/
def Obligations.WordsDecodeToTheirInstructions : Prop :=
  decode (.command 0x00000001) = .ok .clear ∧ decode (.command 0x00000002) = .ok .count ∧
  decode (.command 0x00000003) = .ok .build ∧ decode (.command 0x00000004) = .ok .gencodes ∧
  decode (.command 0x00000005) = .ok .wrhdr ∧ decode (.command 0x00000006) = .ok .rdhdr ∧
  decode (.command 0x00000007) = .ok .wrmagic ∧ decode (.command 0x00000008) = .ok .rdmagic ∧
  decode (.command 0x00000009) = .ok .rewind ∧ decode (.command 0x0000000A) = .ok .encode ∧
  decode (.command 0x0000000B) = .ok .decode ∧ decode (.command 0x0000000C) = .ok .close ∧
  decode (.command 0x00000010) = .ok .compress ∧ decode (.command 0x00000011) = .ok .decompress ∧
  decode (.header [false]) = .ok .streamHdrInternal ∧
  decode (.header [true, false, false, true, true, false, false, false, false, true]) = .ok (.streamHdrLeaf 97) ∧
  decode (.header [true, true, false, false, false, false, false, false, false, false]) = .ok (.streamHdrLeaf 256) ∧
  decode (.magic [true, true, true, true, true, false, true, false, true, true, false, false, true, true, true, false,
    true, false, false, false, false, false, true, false, false, false, false, false, false, false, false, true]) =
    .ok (.streamMagic 0xFACE8201)

/-- Decode and encode agree, for every instruction with every operand, legal or not, whatever bits of the
stream follow (30_encoding.md R81, R82, R85, R88, R89). -/
def Obligations.DecodeOfEncodeIsTheInstruction : Prop :=
  ∀ (i : Instr) (rest : Bits), decode ((encode i).followedBy rest) = .ok i

/-- The other direction: what decodes to `i` is the encoding of `i`, with bits of the stream behind it. -/
def Obligations.WhatDecodesIsTheEncoding : Prop :=
  ∀ (f : Fetched) (i : Instr), decode f = .ok i → ∃ rest, (encode i).followedBy rest = f

/-- 30_encoding.md R90, R91: a word that is none of the fourteen raises IllegalCommandError while IDLE and
changes nothing else; while FAULTED it changes nothing. -/
def Obligations.IllegalCommandWords : Prop :=
  ∀ (s : State) (w : Word) (rest : List Move), s.quiet → s.moves = .access (.write 32 0 w) :: rest →
    w ∉ ([0x01, 0x02, 0x03, 0x04, 0x05, 0x06, 0x07, 0x08, 0x09, 0x0A, 0x0B, 0x0C, 0x10, 0x11] : List Word) →
    (s.st = .idle → step s = .next { s with moves := rest, reply := .nothing, st := .faulted, err := 8 }) ∧
    (s.st = .faulted → step s = .next { s with moves := rest, reply := .nothing })

/-! ### The step -/

/-- A step runs the decoded instruction: a command word written to CMD between commands (30_encoding.md R91), and,
inside RDHDR and RDMAGIC, the token at the input cursor (43_header.md R147, 45_decompress.md R180; log 5). With no
host move left the engine waits (log 3, after 70_reset_and_hazards.md R240). -/
def Obligations.StepRunsTheDecodedInstruction : Prop :=
  (∀ (s : State) (w : Word) (rest : List Move) (i : Instr), s.quiet → s.moves = .access (.write 32 0 w) :: rest →
    decode (.command w) = .ok i → step s = exec i { s with moves := rest, reply := .nothing }) ∧
  (∀ (s : State) (room : Nat) (openNodes : List (Option Tree)) (i : Instr), s.rd = .header (room + 1) openNodes →
    decode (.header s.inp.rest) = .ok i →
    step s = exec i { s with inp := { s.inp with pos := s.inp.pos + (encode i).size } }) ∧
  (∀ (s : State) (i : Instr), s.rd = .magic → decode (.magic s.inp.rest) = .ok i →
    step s = exec i { s with inp := { s.inp with pos := s.inp.pos + 32 } }) ∧
  (∀ s : State, s.quiet → s.moves = [] → step s = .next s)

/-! ### Reset, CLEAR, the FAULTED mode -/

/-- 70_reset_and_hazards.md R241: every reset value, that reset equals CLEAR, and that the channels are not
touched; and that the state after reset has these values in its engine. -/
def Obligations.ResetEventGivesTheResetValues : Prop :=
  (∀ (s : State) (rest : List Move), s.quiet → s.moves = .reset :: rest →
    ∃ t, step s = .next t ∧ exec .clear { s with moves := rest, reply := .nothing } = .next t ∧
      t.st = .idle ∧ t.err = 0 ∧ windowWord 0x000 t = 0 ∧ windowWord 0x004 t = 0 ∧ windowWord 0x008 t = 0 ∧
      (∀ n : Fin 256, t.freq[n.val] = 0) ∧ freqRead t.freq Config.pseudoEof = 1 ∧ t.tree = none ∧
      t.codesValid = false ∧ (∀ v, codeRead t.code v = none) ∧ t.pq = [] ∧ t.cur = none ∧
      t.inp = s.inp ∧ t.out = s.out) ∧
  State.reset.st = .idle ∧ State.reset.err = 0 ∧ windowWord 0x004 State.reset = 0 ∧
  (∀ n : Fin 256, State.reset.freq[n.val] = 0) ∧ State.reset.tree = none ∧ State.reset.codesValid = false ∧
  (∀ v, codeRead State.reset.code v = none) ∧ State.reset.pq = [] ∧ State.reset.cur = none

/-- 46_control.md R195: CLEAR, taken in both modes, and the only instruction taken while FAULTED. -/
def Obligations.ClearResetsTheEngine : Prop :=
  decode (.command 0x00000001) = .ok .clear ∧
  (∀ s : State, exec .clear s = .next
    { s with
      st := .idle, err := 0, freq := Vector.replicate 256 0, tree := none, codesValid := false
      code := Vector.replicate 257 none, pq := [], cur := none, rd := .off }) ∧
  (∀ (i : Instr) (s : State), s.st = .faulted → i ≠ .clear → exec i s = .next s)

/-- 46_control.md R198: window writes while FAULTED, and writes to STATUS, ERR and reserved offsets in any mode. -/
def Obligations.IgnoredWrites : Prop :=
  ∀ (s : State) (off : Offset) (v : Word) (rest : List Move), s.quiet → s.moves = .access (.write 32 off v) :: rest →
    off.toNat % 4 = 0 →
    (s.st = .faulted → off = 0 ∧ v = 1 → step s = exec .clear { s with moves := rest, reply := .nothing }) ∧
    (s.st = .faulted → ¬(off = 0 ∧ v = 1) → step s = .next { s with moves := rest, reply := .nothing }) ∧
    (off.toNat = 0x004 ∨ off.toNat = 0x008 ∨ (0x00C ≤ off.toNat ∧ off.toNat < 0x400) ∨ 0x800 < off.toNat →
      step s = .next { s with moves := rest, reply := .nothing })

/-! ### The register window -/

/-- 46_control.md R196: what every window read gives, and that it changes nothing. -/
def Obligations.HostReadGivesTheRegister : Prop :=
  ∀ (s : State) (off : Offset) (rest : List Move), s.quiet → s.moves = .access (.read 32 off) :: rest →
    off.toNat % 4 = 0 →
    ∃ v, step s = .next { s with moves := rest, reply := .word v } ∧
      (off.toNat = 0x000 → v = 0) ∧
      (off.toNat = 0x004 → v.toNat = (if s.st = .faulted then 2 else 0) + (if s.tree.isSome then 4 else 0) +
        (if s.codesValid then 8 else 0)) ∧
      (off.toNat = 0x008 → v.toNat = s.err.toNat) ∧
      (∀ n : Fin 256, off.toNat = 0x400 + 4 * n.val → v = s.freq[n.val]) ∧
      (off.toNat = 0x800 → v = 1) ∧
      ((0x00C ≤ off.toNat ∧ off.toNat < 0x400) ∨ 0x800 < off.toNat → v = 0)

/-- 46_control.md R197: a write to FREQ[s] while IDLE, and the hardwired FREQ[256] (10_state.md R23). -/
def Obligations.HostWriteSetsOneCount : Prop :=
  ∀ (s : State) (off : Offset) (v : Word) (rest : List Move), s.quiet → s.st = .idle →
    s.moves = .access (.write 32 off v) :: rest →
    (∀ n : Fin 256, off.toNat = 0x400 + 4 * n.val →
      step s = .next { s with moves := rest, reply := .nothing, freq := s.freq.set n.val v }) ∧
    (off.toNat = 0x800 → step s = .next { s with moves := rest, reply := .nothing })

/-- 10_state.md R23: FREQ[256] reads 1 whatever is written to it, and the other counts read what was written. -/
def Obligations.FreqFileReadsWhatWasWritten : Prop :=
  ∀ (f : Vector Word 256) (a b : Symbol) (v : Word),
    freqRead f Config.pseudoEof = 1 ∧ freqWrite f Config.pseudoEof v = f ∧
    (a ≠ Config.pseudoEof → freqRead (freqWrite f a v) a = v) ∧
    (a ≠ b → freqRead (freqWrite f a v) b = freqRead f b)

/-- 20_memory.md R60 and U6: an access of another width or at another offset is refused, by name. -/
def Obligations.BadWindowAccessIsRefused : Prop :=
  ∀ (s : State) (width : Nat) (off : Offset) (v : Word) (rest : List Move), s.quiet →
    width ≠ 32 ∨ off.toNat % 4 ≠ 0 →
    (s.moves = .access (.write width off v) :: rest → step s = .refused .badAccess) ∧
    (s.moves = .access (.read width off) :: rest → step s = .refused .badAccess)

/-- 20_memory.md R58: attachment, in either mode, changes the channel and nothing of the engine. -/
def Obligations.AttachReplacesAChannel : Prop :=
  ∀ (s : State) (bits : Bits) (rest : List Move), s.quiet →
    (s.moves = .access (.attachIn bits) :: rest →
      step s = .next { s with moves := rest, reply := .nothing, inp := { bits := bits, pos := 0 } }) ∧
    (s.moves = .access .attachOut :: rest →
      step s = .next { s with moves := rest, reply := .nothing, out := { bits := [], closed := false } })

/-- 20_memory.md R56, 70_reset_and_hazards.md R253: reading a closed output gives the bytes whose bits it holds;
an output that is not closed is not readable. -/
def Obligations.ClosedOutputIsReadAsBytes : Prop :=
  ∀ (s : State) (rest : List Move), s.quiet → s.moves = .access .readOut :: rest →
    (s.out.closed = true → s.out.bits.length % 8 = 0 →
      ∃ bs : List Byte, step s = .next { s with moves := rest, reply := .bytes bs } ∧
        bitsOfBytes bs = s.out.bits) ∧
    (s.out.closed = false → step s = .refused .outputNotClosed)

/-! ### While a command runs -/

/-- 70_reset_and_hazards.md R246, R253, U4, U5: inside a command, CLEAR in the FAULTED mode among them, a STATUS read
gives BUSY = 1, the other bits any value (log 10); another access is refused; a channel that never answers
leaves the machine stuck if the command reaches one: not past a `require` line that fails (20_memory.md R57,
60_exceptions.md R216), nor in DECODE of a root that is a leaf (45_decompress.md R182; the stop is log 12's). While
FAULTED another word starts no command, and an access after it is one between commands (30_encoding.md R91). -/
def Obligations.AccessWhileACommandRuns : Prop :=
  (∀ (s t : State) (w : Word) (i : Instr) (rest : List Move), s.quiet → s.st = .idle ∨ i = .clear →
    decode (.command w) = .ok i →
    (s.moves = .during w (.access (.read 32 0x004)) :: rest →
      exec i { s with moves := rest, reply := .nothing } = .next t →
      ∃ v, step s = .next { t with reply := .word v, freeCtr := t.freeCtr + 1 } ∧ v.getLsbD 0 = true) ∧
    (∀ a, a ≠ .read 32 0x004 → s.moves = .during w (.access a) :: rest → step s = .refused .accessWhileBusy) ∧
    (s.moves = .during w .channelHangs :: rest →
      (i ∈ ([.count, .rdhdr, .rdmagic, .rewind, .compress, .decompress] : List Instr) ∨
        (s.out.closed = false ∧ (i = .wrmagic ∨ i = .close ∨ (i = .wrhdr ∧ s.tree ≠ none) ∨
          (i = .encode ∧ s.codesValid = true) ∨ (i = .decode ∧ ∃ n l r, s.tree = some (.node n l r)))) →
        step s = .fault .channelBlocked) ∧
      (i ∈ ([.clear, .build, .gencodes] : List Instr) ∨
        (i ∈ ([.wrmagic, .close, .wrhdr, .encode, .decode] : List Instr) ∧ s.out.closed = true) ∨
        (i = .wrhdr ∧ s.tree = none) ∨ (i = .encode ∧ s.codesValid = false) ∨
        (i = .decode ∧ ∀ n l r, s.tree ≠ some (.node n l r)) →
        step s = exec i { s with moves := rest, reply := .nothing }))) ∧
  (∀ (s : State) (w : Word) (a : Access) (rest : List Move), s.quiet → s.st = .faulted → w ≠ 1 →
    s.moves = .during w (.access a) :: rest → step s = step { s with moves := .access a :: rest })

/-- 70_reset_and_hazards.md R240, R242, 10_state.md R25: a reset that cuts a command short, in either mode. The engine
is at its reset values with no fault; OUT keeps what it held and is not closed. The cursor stands between where it
stood and where the whole command takes it, but in REWIND, which has set it to 0 or not yet, and in COMPRESS with an
open output, which may have gone back (log 9). A channel the command does not reach is as it was: not past a `require`
line that fails (20_memory.md R57), nor in DECODE of a root that is a leaf (45_decompress.md R182); a closed output
(R54); the output of a command that only reads, and of DECOMPRESS of another format (60_exceptions.md R213). -/
def Obligations.ResetCutsACommandShort : Prop :=
  ∀ (s : State) (w : Word) (i : Instr) (rest : List Move), s.quiet → s.st = .idle ∨ i = .clear →
    decode (.command w) = .ok i → s.moves = .during w .reset :: rest →
    ∃ t, step s = .next t ∧ t.st = .idle ∧ t.err = 0 ∧ t.freq = State.reset.freq ∧ t.tree = none ∧
      t.codesValid = false ∧ t.code = State.reset.code ∧ t.quiet ∧
      s.out.bits <+: t.out.bits ∧ t.out.closed = s.out.closed ∧ t.inp.bits = s.inp.bits ∧
      (s.inp.pos ≤ s.inp.bits.length → t.inp.pos ≤ t.inp.bits.length) ∧
      (i ≠ .rewind → i ≠ .compress ∨ s.out.closed = true → s.inp.pos ≤ t.inp.pos ∧
        (s.inp.pos ≤ s.inp.bits.length → ∀ u, exec i { s with moves := rest, reply := .nothing } = .next u →
          t.inp.pos ≤ u.inp.pos)) ∧
      (i = .rewind → t.inp.pos = 0 ∨ t.inp.pos = s.inp.pos) ∧
      (i ∈ ([.clear, .build, .gencodes] : List Instr) ∨
        (i ∈ ([.wrmagic, .close, .wrhdr, .encode, .decode] : List Instr) ∧ s.out.closed = true) ∨
        (i = .wrhdr ∧ s.tree = none) ∨ (i = .encode ∧ s.codesValid = false) ∨
        (i = .decode ∧ ∀ n l r, s.tree ≠ some (.node n l r)) → t.inp = s.inp ∧ t.out = s.out) ∧
      (i ∈ ([.wrhdr, .wrmagic, .close] : List Instr) → t.inp = s.inp) ∧
      (s.out.closed = true ∨ i ∈ ([.count, .rdhdr, .rdmagic, .rewind] : List Instr) ∨
        (i = .decompress ∧ s.inp.rest.take 32 ≠ bitsMsb s.magic) → t.out = s.out)

/-! ### Channels -/

/-- 20_memory.md R52: a read that finds its bits, a read that does not, and every read after that. -/
def Obligations.ReadBitsReadsOrReachesTheEnd : Prop :=
  ∀ (n m : Nat) (c : InChan),
    (c.pos + n ≤ c.bits.length → ∃ v : BitVec n,
      c.readBits n = (some v, { c with pos := c.pos + n }) ∧
      ∀ k, k < n → c.bits[c.pos + k]? = some (v.getLsbD (n - 1 - k))) ∧
    (c.bits.length < c.pos + n → c.readBits n = (none, { c with pos := c.bits.length }) ∧
      (0 < m → (c.readBits n).2.readBits m = (none, { c with pos := c.bits.length })))

/-- 20_memory.md R54, R52, R61: what `writeBits` appends reads back as the same value, wherever it stands. -/
def Obligations.WrittenBitsReadBack : Prop :=
  ∀ (n : Nat) (v : BitVec n) (o : OutChan) (rest : Bits),
    (o.writeBits v).closed = o.closed ∧ o.bits <+: (o.writeBits v).bits ∧
    InChan.readBits n { bits := (o.writeBits v).bits ++ rest, pos := o.bits.length } =
      (some v, { bits := (o.writeBits v).bits ++ rest, pos := o.bits.length + n })

/-- 20_memory.md R51: the bits of a byte sequence, and that the bytes are found again (R56). -/
def Obligations.BytesAreBitsMostSignificantFirst : Prop :=
  ∀ bs : List Byte, (bitsOfBytes bs).length = 8 * bs.length ∧ wordsOfBits (bitsOfBytes bs) = bs ∧
    ∀ (i j : Nat) (h : i < bs.length), j < 8 →
      (bitsOfBytes bs)[8 * i + j]? = some (bs[i].getLsbD (7 - j))

/-! ### COUNT -/

/-- 40_count.md R110, R111: COUNT, when no byte value occurs 2^32 times. -/
def Obligations.CountCountsEveryWord : Prop :=
  ∀ s : State, s.st = .idle → (∀ b : Byte, s.inp.words.count b ≤ 4294967295) →
    ∃ f, exec .count s = .next { s with freq := f, inp := { s.inp with pos := s.inp.bits.length } } ∧
      (∀ b : Byte, (freqRead f (byteSymbol b)).toNat = s.inp.words.count b) ∧
      freqRead f Config.pseudoEof = 1 ∧
      ((List.finRange 256).map fun n => (f[n.val]).toNat).sum = s.inp.words.length ∧
      s.inp.words.length = (s.inp.bits.length - s.inp.pos) / 8

/-- 40_count.md R110: the word that would take a count past 2^32 − 1. What follows OUT's old bits is any value
(60_exceptions.md R213, U1; log 7). -/
def Obligations.CountStopsAtAFullCount : Prop :=
  ∀ (s : State) (ws : List Byte) (b : Byte) (rest : List Byte), s.st = .idle → s.quiet →
    s.inp.words = ws ++ b :: rest → ws.count b = 4294967295 → (∀ c : Byte, ws.count c ≤ 4294967295) →
    ∃ f t, exec .count s = .next t ∧
      State.faultLeaves { s with freq := f, inp := { s.inp with pos := s.inp.pos + 8 * (ws.length + 1) } } 5 t ∧
      ∀ c : Byte, (freqRead f (byteSymbol c)).toNat = ws.count c

/-! ### BUILD -/

/-- 41_treebuild.md R120 to R123, 10_state.md R28, 46_control.md R201: BUILD completes, writes TREE, CODES_VALID
and PQ only, and makes a tree whose leaves are the symbols of positive count with their counts, whose
weights are exact sums and whose left children are no heavier than the right ones: the tree of R122's merging,
each leaf with its symbol and merge k with 257 + k as its sequence number, of equal weights the smaller number
first. -/
def Obligations.BuildMakesAMergedTree : Prop :=
  ∀ s : State, s.st = .idle → ∃ t,
    exec .build s = .next { s with tree := some t, codesValid := false, pq := [] } ∧
    MergesTo 0 ((positiveSymbols s.freq).map fun v =>
      { w := (freqRead s.freq v).setWidth 41, q := BitVec.ofNat 10 v.val
        t := .leaf v ((freqRead s.freq v).setWidth 41) }) t ∧
    t.leafList.Perm ((positiveSymbols s.freq).map fun v => (v, (freqRead s.freq v).setWidth 41)) ∧
    t.merged ∧ t.weight.toNat = (allSymbols.map fun v => (freqRead s.freq v).toNat).sum ∧
    t.nodes ≤ 513 ∧ t.depth ≤ 256

/-- `90_conflicts.md` C1, 41_treebuild.md R120: the tree of the empty input, and the only one with one leaf. -/
def Obligations.BuildOfTheEmptyTable : Prop :=
  ∀ s : State, s.st = .idle →
    ((∀ n : Fin 256, s.freq[n.val] = 0) →
      exec .build s = .next { s with tree := some (.leaf 256 1), codesValid := false, pq := [] }) ∧
    (∀ t u, exec .build s = .next u → u.tree = some t → (t.leaves = 1 ↔ ∀ n : Fin 256, s.freq[n.val] = 0))

/-- 41_treebuild.md R125: BUILD is a function of FREQ alone. -/
def Obligations.BuildIsAFunctionOfFreq : Prop :=
  ∀ s₁ s₂ : State, s₁.st = .idle → s₂.st = .idle → s₁.freq = s₂.freq → ∃ t,
    exec .build s₁ = .next { s₁ with tree := some t, codesValid := false, pq := [] } ∧
    exec .build s₂ = .next { s₂ with tree := some t, codesValid := false, pq := [] }

/-- 41_treebuild.md R124: minimality. No assignment of prefix codes to the symbols of positive count has a
smaller weighted length than the built tree. -/
def Obligations.BuiltTreeIsMinimal : Prop :=
  ∀ (s u : State) (t : Tree) (c : Symbol → Bits), s.st = .idle → exec .build s = .next u → u.tree = some t →
    (∀ x ∈ positiveSymbols s.freq, ∀ y ∈ positiveSymbols s.freq, c x <+: c y → x = y) →
    t.cost s.freq 0 ≤ ((positiveSymbols s.freq).map fun v => (freqRead s.freq v).toNat * (c v).length).sum

/-- 10_state.md R31, R32: `insert` keeps the queue in the total order of R32, sequence numbers being distinct, and
adds the entry and nothing else, so that the head of the queue is the least entry. -/
def Obligations.QueueKeepsTheOrder : Prop :=
  ∀ (e : Entry) (pq : List Entry), (pq.Pairwise fun a b => a.before b = true) → (∀ x ∈ pq, x.q ≠ e.q) →
    ((pqInsert e pq).Pairwise fun a b => a.before b = true) ∧ (pqInsert e pq).Perm (e :: pq) ∧
    ∀ x xs, pqInsert e pq = x :: xs → ∀ y ∈ xs,
      x.w.toNat < y.w.toNat ∨ (x.w.toNat = y.w.toNat ∧ x.q.toNat < y.q.toNat)

/-! ### GENCODES -/

/-- 42_codegen.md R135 to R137: GENCODES gives each symbol the path of its last leaf in preorder, `none` to a
symbol on no leaf, and writes CODE and CODES_VALID only; without a tree it is SequenceError. -/
def Obligations.GencodesGivesThePaths : Prop :=
  decode (.command 0x00000004) = .ok .gencodes ∧
  (∀ (s : State) (t : Tree), s.st = .idle → s.tree = some t → ∃ c,
    exec .gencodes s = .next { s with code := c, codesValid := true } ∧
    ∀ v, codeRead c v = t.codeOf v) ∧
  (∀ s : State, s.st = .idle → s.quiet → s.tree = none →
    exec .gencodes s = .next { s with st := .faulted, err := 7 })

/-- 42_codegen.md R138 (a), (b): which symbols have a code, code lengths, and that no code is a prefix of
another symbol's. -/
def Obligations.GeneratedCodesArePrefixFree : Prop :=
  ∀ (s s' : State) (t : Tree), s.st = .idle → s.tree = some t → exec .gencodes s = .next s' →
    (∀ v, (codeRead s'.code v).isSome = true ↔ v ∈ t.leafList.map (·.1)) ∧
    (∀ v p, codeRead s'.code v = some p → (2 ≤ t.leaves → 1 ≤ p.length) ∧ (t.nodes ≤ 513 → p.length ≤ 256)) ∧
    (∀ u v p q, u ≠ v → codeRead s'.code u = some p → codeRead s'.code v = some q → ¬ p <+: q)

/-- 42_codegen.md R138 (c): after BUILD and GENCODES exactly the symbols of positive count have a code, 256
among them. -/
def Obligations.BuiltCodesCoverTheTable : Prop :=
  ∀ s : State, s.st = .idle → ∃ t u, exec .build s = .next t ∧ exec .gencodes t = .next u ∧
    (∀ v, (codeRead u.code v).isSome = true ↔ freqRead s.freq v ≠ 0) ∧
    (codeRead u.code Config.pseudoEof).isSome = true

/-! ### The header codec -/

/-- 43_header.md R145, R146, 30_encoding.md R82: WRHDR appends `H(TREE)`, of that length, and writes nothing else;
without a tree or with a closed output it is SequenceError. -/
def Obligations.WrhdrAppendsTheHeader : Prop :=
  decode (.command 0x00000005) = .ok .wrhdr ∧
  (∀ (s : State) (t : Tree), s.st = .idle → s.tree = some t → s.out.closed = false →
    exec .wrhdr s = .next { s with out := { s.out with bits := s.out.bits ++ t.headerBits } } ∧
    t.headerBits.length = t.nodes + 9 * t.leaves) ∧
  (∀ s : State, s.st = .idle → s.quiet → s.tree = none ∨ s.out.closed = true →
    exec .wrhdr s = .next { s with st := .faulted, err := 7 })

/-- 43_header.md R149: RDHDR inverts WRHDR up to weights, whatever follows the header. -/
def Obligations.RdhdrInvertsWrhdr : Prop :=
  ∀ (s : State) (t : Tree) (rest : Bits), s.st = .idle → t.nodes ≤ 513 → s.inp.rest = t.headerBits ++ rest →
    exec .rdhdr s = .next
      { s with
        tree := some t.zeroWeights, codesValid := false
        inp := { s.inp with pos := s.inp.pos + t.headerBits.length } }

/-- 43_header.md R147, R148 (a): a header that is cut short anywhere is TruncatedHeaderError: a proper part of a
header that would fit, and, more widely, up to 512 tokens after which a subtree is still due and then the end
of the input, at a discriminator or inside a leaf's value. What follows OUT's old bits is any value
(60_exceptions.md R213, U1; log 7). -/
def Obligations.RdhdrTruncatedHeader : Prop :=
  ∀ s : State, s.st = .idle → s.quiet →
    (∀ t : Tree, t.nodes ≤ 513 → s.inp.rest <+: t.headerBits → s.inp.rest ≠ t.headerBits →
      ∃ u, exec .rdhdr s = .next u ∧ State.faultLeaves
        { s with tree := none, codesValid := false, inp := { s.inp with pos := s.inp.bits.length } } 2 u) ∧
    (∀ (toks : List (Option Symbol)) (cut : Bits), toks.length ≤ 512 → 0 < subtreesDue 1 toks →
      cut = [] ∨ (∃ bits, cut = true :: bits ∧ bits.length < 9) → s.inp.rest = toks.flatMap tokenBits ++ cut →
      ∃ u, exec .rdhdr s = .next u ∧ State.faultLeaves
        { s with tree := none, codesValid := false, inp := { s.inp with pos := s.inp.bits.length } } 2 u)

/-- 43_header.md R148 (b): a leaf value of 257..511, met after any tokens that leave a subtree due, is
MalformedHeaderError, with the value's bits read. What follows OUT's old bits is any value (60_exceptions.md
R213, U1; log 7). -/
def Obligations.RdhdrIllegalLeafValue : Prop :=
  ∀ (s : State) (toks : List (Option Symbol)) (v : SymField) (rest : Bits), s.st = .idle → s.quiet →
    toks.length ≤ 512 → 0 < subtreesDue 1 toks → 256 < v.toNat →
    s.inp.rest = toks.flatMap tokenBits ++ (true :: bitsMsb v) ++ rest →
    ∃ u, exec .rdhdr s = .next u ∧ State.faultLeaves
      { s with
        tree := none, codesValid := false
        inp := { s.inp with pos := s.inp.pos + (toks.flatMap tokenBits).length + 10 } } 4 u

/-- 43_header.md R148 (c): the 514th node is refused before its discriminator is read; and any header of more
than 513 nodes is malformed. What follows OUT's old bits is any value (60_exceptions.md R213, U1; log 7). -/
def Obligations.RdhdrTooManyNodes : Prop :=
  (∀ (s : State) (toks : List (Option Symbol)) (rest : Bits), s.st = .idle → s.quiet → toks.length = 513 →
    0 < subtreesDue 1 toks → s.inp.rest = toks.flatMap tokenBits ++ rest →
    ∃ u, exec .rdhdr s = .next u ∧ State.faultLeaves
      { s with
        tree := none, codesValid := false
        inp := { s.inp with pos := s.inp.pos + (toks.flatMap tokenBits).length } } 4 u) ∧
  (∀ (s : State) (t : Tree) (rest : Bits), s.st = .idle → s.quiet → 513 < t.nodes →
    s.inp.rest = t.headerBits ++ rest → ∃ n u, 513 ≤ n ∧ exec .rdhdr s = .next u ∧ State.faultLeaves
      { s with tree := none, codesValid := false, inp := { s.inp with pos := s.inp.pos + n } } 4 u)

/-- 30_encoding.md R82, 43_header.md R147, R148: what one header token does to the header being read (log 5): an
internal node is opened; a leaf completes every innermost open node whose left child has been read (`lefts`,
innermost first; there may be none), and what it completes is the left child due next, or the root; an illegal
value, and a node there is no room for, is MalformedHeaderError, and what follows OUT's old bits is any value
(60_exceptions.md R213, U1; log 7). And the magic field, run as an instruction, is FormatError unless it is MAGIC
(30_encoding.md R81, 45_decompress.md R180). -/
def Obligations.StreamTokensRunInTheReader : Prop :=
  ∀ (s : State) (room : Nat) (openNodes : List (Option Tree)) (lefts : List Tree) (v : SymField) (sym : Symbol),
    s.st = .idle →
    (s.rd = .header (room + 1) openNodes →
      exec .streamHdrInternal s = .next { s with rd := .header room (none :: openNodes) }) ∧
    (s.rd = .header (room + 1) (lefts.map some) → v.toNat = sym.val →
      exec (.streamHdrLeaf v) s =
        .next { s with rd := .off, tree := some (lefts.foldl (fun r l => .node 0 l r) (.leaf sym 0)) }) ∧
    (s.rd = .header (room + 1) (lefts.map some ++ none :: openNodes) → v.toNat = sym.val →
      exec (.streamHdrLeaf v) s = .next
        { s with rd := .header room (some (lefts.foldl (fun r l => .node 0 l r) (.leaf sym 0)) :: openNodes) }) ∧
    (256 < v.toNat → s.cur = none → s.pq = [] →
      ∃ u, exec (.streamHdrLeaf v) s = .next u ∧ State.faultLeaves { s with rd := .off } 4 u) ∧
    (s.rd = .header 0 openNodes → s.cur = none → s.pq = [] →
      (∃ u, exec .streamHdrInternal s = .next u ∧ State.faultLeaves { s with rd := .off } 4 u) ∧
      (∃ u, exec (.streamHdrLeaf v) s = .next u ∧ State.faultLeaves { s with rd := .off } 4 u)) ∧
    (∀ m : Word, m = s.magic → exec (.streamMagic m) s = .next { s with rd := .off }) ∧
    (∀ m : Word, m ≠ s.magic → s.cur = none → s.pq = [] →
      exec (.streamMagic m) s = .next { s with st := .faulted, err := 1, rd := .off })

/-- 43_header.md R147: RDHDR as one transition is the engine's steps token by token from where its first line
leaves it, in success and in fault alike (logs 5, 6). -/
def Obligations.RdhdrIsItsTokenSteps : Prop :=
  ∀ s t : State, s.st = .idle → s.quiet → s.inp.pos ≤ s.inp.bits.length → exec .rdhdr s = .next t →
    ∃ n, runSteps n (startHeader s) = .next t

/-! ### The encoder -/

/-- 44_compress.md R160: WRMAGIC on an open output. -/
def Obligations.WrmagicAppendsTheMagic : Prop :=
  decode (.command 0x00000007) = .ok .wrmagic ∧
  ∀ s : State, s.st = .idle →
    (s.out.closed = false →
      exec .wrmagic s = .next { s with out := { s.out with bits := s.out.bits ++ bitsMsb s.magic } }) ∧
    (s.out.closed = true → s.quiet → exec .wrmagic s = .next { s with st := .faulted, err := 7 })

/-- 44_compress.md R161: REWIND. -/
def Obligations.RewindGoesToTheStart : Prop :=
  decode (.command 0x00000009) = .ok .rewind ∧
  ∀ s : State, s.st = .idle → exec .rewind s = .next { s with inp := { s.inp with pos := 0 } }

/-- 44_compress.md R162, 30_encoding.md R83: ENCODE appends the body, when every word and 256 have a code. -/
def Obligations.EncodeAppendsTheBody : Prop :=
  ∀ (s : State) (q : Bits), s.st = .idle → s.codesValid = true → s.out.closed = false →
    bodyBits (codeRead s.code) s.inp.words = some q →
    exec .encode s = .next
      { s with
        out := { s.out with bits := s.out.bits ++ q }
        inp := { s.inp with pos := s.inp.bits.length } }

/-- 44_compress.md R162: a word without a code, and 256 without one. What follows the old bits of OUT is any
value (60_exceptions.md R213, U1; log 7). -/
def Obligations.EncodeMissingCode : Prop :=
  ∀ s : State, s.st = .idle → s.quiet → s.codesValid = true → s.out.closed = false →
    (∀ (ws : List Byte) (w : Byte) (rest : List Byte), s.inp.words = ws ++ w :: rest →
      (codesOfWords (codeRead s.code) ws).isSome = true → codeRead s.code (byteSymbol w) = none →
      ∃ u, exec .encode s = .next u ∧
        State.faultLeaves { s with inp := { s.inp with pos := s.inp.pos + 8 * (ws.length + 1) } } 6 u) ∧
    ((codesOfWords (codeRead s.code) s.inp.words).isSome = true → codeRead s.code Config.pseudoEof = none →
      ∃ u, exec .encode s = .next u ∧
        State.faultLeaves { s with inp := { s.inp with pos := s.inp.bits.length } } 6 u)

/-- 44_compress.md R165, 20_memory.md R56: CLOSE pads with 0 to 7 zero bits to whole bytes and closes; on a closed
output it is SequenceError. -/
def Obligations.ClosePadsToAByte : Prop :=
  decode (.command 0x0000000C) = .ok .close ∧
  ∀ s : State, s.st = .idle →
    (s.out.closed = false → ∃ n, n < 8 ∧ (s.out.bits.length + n) % 8 = 0 ∧
      exec .close s = .next
        { s with out := { bits := s.out.bits ++ List.replicate n false, closed := true } }) ∧
    (s.out.closed = true → s.quiet → exec .close s = .next { s with st := .faulted, err := 7 })

/-- 60_exceptions.md R210 (code 7), R216, 20_memory.md R57: a failed `require` line raises SequenceError before
anything else is done. -/
def Obligations.FailedPreconditionIsSequenceError : Prop :=
  ∀ (s : State) (i : Instr), s.st = .idle → s.quiet →
    (i = .gencodes ∧ s.tree = none) ∨ (i = .wrhdr ∧ (s.tree = none ∨ s.out.closed = true)) ∨
      (i = .wrmagic ∧ s.out.closed = true) ∨ (i = .encode ∧ (s.codesValid = false ∨ s.out.closed = true)) ∨
      (i = .decode ∧ (s.tree = none ∨ s.out.closed = true)) ∨ (i = .close ∧ s.out.closed = true) →
    exec i s = .next { s with st := .faulted, err := 7 }

/-- 44_compress.md R166 to R169: what COMPRESS leaves of a launch with these bytes: magic, header, body and pad,
closed, and the engine's data discarded. The tree is the one BUILD makes of the bytes' counts. -/
def Obligations.CompressWritesTheStream : Prop :=
  ∀ (s : State) (input : List Byte), s.launch input → (∀ b : Byte, input.count b ≤ 4294967295) →
    ∃ f t q, (∀ b : Byte, (freqRead f (byteSymbol b)).toNat = input.count b) ∧
      (∃ u, exec .build { s with freq := f } = .next u ∧ u.tree = some t) ∧
      bodyBits t.codeOf input = some q ∧
      exec .compress s = .next
        { s with
          freq := Vector.replicate 256 0, tree := none, codesValid := false, code := Vector.replicate 257 none
          inp := { bits := bitsOfBytes input, pos := 8 * input.length }
          out :=
            { bits := bitsMsb s.magic ++ t.headerBits ++ q ++ padBits (32 + t.headerBits.length + q.length)
              closed := true } }

/-! ### The decoder -/

/-- 45_decompress.md R180: RDMAGIC. -/
def Obligations.RdmagicComparesTheMagic : Prop :=
  decode (.command 0x00000008) = .ok .rdmagic ∧
  ∀ (s : State) (rest : Bits) (m : Word), s.st = .idle → s.quiet →
    (s.inp.rest = bitsMsb m ++ rest → m = s.magic →
      exec .rdmagic s = .next { s with inp := { s.inp with pos := s.inp.pos + 32 } }) ∧
    (s.inp.rest = bitsMsb m ++ rest → m ≠ s.magic →
      exec .rdmagic s =
        .next { s with st := .faulted, err := 1, inp := { s.inp with pos := s.inp.pos + 32 } }) ∧
    (s.inp.rest.length < 32 →
      exec .rdmagic s =
        .next { s with st := .faulted, err := 1, inp := { s.inp with pos := s.inp.bits.length } })

/-- 45_decompress.md R184: DECODE inverts ENCODE over the same tree: on the codes of a word sequence and the
terminator it writes the words, stops right behind the terminator, and writes nothing else. -/
def Obligations.DecodeInvertsEncode : Prop :=
  ∀ (s : State) (t : Tree) (ws : List Byte) (q rest : Bits), s.st = .idle → s.tree = some t →
    s.out.closed = false → bodyBits t.codeOf ws = some q → s.inp.rest = q ++ rest →
    s.inp.pos ≤ s.inp.bits.length →
    exec .decode s = .next
      { s with
        out := { s.out with bits := s.out.bits ++ bitsOfBytes ws }
        inp := { s.inp with pos := s.inp.pos + q.length }, cur := none }

/-- 45_decompress.md R181, R182, R184, 30_encoding.md R87 (e): DECODE of a tree with an internal root. If the bits
left spell words and then 256 over the tree, it reads exactly those bits and appends those words. If they spell
nothing, the input ends before a leaf of 256 and DECODE is TruncatedBodyError with every bit read. A root that
is a leaf is decided at once. What follows OUT's old bits after a fault is any value (60_exceptions.md R213, U1;
log 7). -/
def Obligations.DecodeAlwaysEnds : Prop :=
  ∀ (s : State) (t : Tree), s.st = .idle → s.quiet → s.tree = some t → s.out.closed = false →
    s.inp.pos ≤ s.inp.bits.length →
    (2 ≤ t.leaves →
      (∀ (ws : List Byte) (q rest : Bits), t.spells ws q → s.inp.rest = q ++ rest → exec .decode s = .next
        { s with
          out := { s.out with bits := s.out.bits ++ bitsOfBytes ws }
          inp := { s.inp with pos := s.inp.pos + q.length } }) ∧
      ((∀ (ws : List Byte) (q rest : Bits), t.spells ws q → s.inp.rest ≠ q ++ rest) →
        ∃ u, exec .decode s = .next u ∧
          State.faultLeaves { s with inp := { s.inp with pos := s.inp.bits.length } } 3 u)) ∧
    (∀ w, t = .leaf 256 w → exec .decode s = .next s) ∧
    (∀ v w, t = .leaf v w → v ≠ 256 → ∃ u, exec .decode s = .next u ∧ s.faultLeaves 4 u)

/-- 45_decompress.md R183: DECODE as one transition is the walk bit by bit from the root, in success and in fault
alike (log 6). -/
def Obligations.DecodeIsItsWalkSteps : Prop :=
  ∀ (s t : State) (w : Weight) (l r : Tree), s.st = .idle → s.quiet → s.inp.pos ≤ s.inp.bits.length →
    s.tree = some (.node w l r) → s.out.closed = false → exec .decode s = .next t →
    ∃ n, runSteps n (startWalk s) = .next t

/-- 41_treebuild.md R120, R122: BUILD as one transition is its merges one by one from the seeded queue (log 6). -/
def Obligations.BuildIsItsMergeSteps : Prop :=
  ∀ s t : State, s.st = .idle → s.quiet → exec .build s = .next t →
    ∃ n, runSteps n (startMerge s) = .next t

/-- 45_decompress.md R185, R186: DECOMPRESS of a stream, whatever follows its terminator. -/
def Obligations.DecompressReadsTheStream : Prop :=
  ∀ (s : State) (t : Tree) (ws : List Byte) (q rest : Bits), s.st = .idle → s.quiet → t.nodes ≤ 513 →
    s.out = { bits := [], closed := false } → bodyBits t.codeOf ws = some q →
    s.inp.rest = bitsMsb s.magic ++ t.headerBits ++ q ++ rest → s.inp.pos ≤ s.inp.bits.length →
    exec .decompress s = .next
      { s with
        freq := Vector.replicate 256 0, tree := none, codesValid := false, code := Vector.replicate 257 none
        out := { bits := bitsOfBytes ws, closed := true }
        inp := { s.inp with pos := s.inp.pos + (32 + t.headerBits.length + q.length) } }

/-- 45_decompress.md R180, R185: a stream that does not begin with the magic number is FormatError, with no
output and nothing decoded. -/
def Obligations.DecompressRefusesAnotherFormat : Prop :=
  ∀ s : State, s.st = .idle → s.quiet → s.inp.pos ≤ s.inp.bits.length → s.inp.rest.take 32 ≠ bitsMsb s.magic →
    exec .decompress s = .next
      { s with
        st := .faulted, err := 1
        inp := { s.inp with pos := min (s.inp.pos + 32) s.inp.bits.length } }

/-- 44_compress.md R166, R168, 45_decompress.md R185, R186: a composite is its unit commands in order, the first
fault ending it, and then `discard`. After a fault nothing is discarded, OUT is not closed, and what follows the
bits it held before the composite is any value (60_exceptions.md R213, U1; log 7). -/
def Obligations.CompositesRunTheirUnits : Prop :=
  ∀ (c : Instr) (units : List Instr) (s : State), s.st = .idle →
    (c = .compress ∧ units = compressUnits) ∨ (c = .decompress ∧ units = decompressUnits) →
    ((runUnits units s).st = .idle → exec c s = .next
      { runUnits units s with
        freq := Vector.replicate 256 0, tree := none, codesValid := false, code := Vector.replicate 257 none }) ∧
    ((runUnits units s).st = .faulted → ∃ bits ctr, s.out.bits <+: bits ∧ exec c s = .next
      { runUnits units s with out := { bits := bits, closed := s.out.closed }, freeCtr := ctr })

/-- 45_decompress.md R187: the round trip, for every byte sequence in which no value occurs 2^32 times, the
empty one among them. -/
def Obligations.RoundTrip : Prop :=
  ∀ (s : State) (input : List Byte), s.launch input → (∀ b : Byte, input.count b ≤ 4294967295) →
    ∃ u v, exec .compress s = .next u ∧ u.healthy ∧ u.out.closed = true ∧ u.out.bits.length % 8 = 0 ∧
      exec .decompress { u with inp := { bits := u.out.bits, pos := 0 }, out := OutChan.fresh } = .next v ∧
      v.healthy ∧ v.out.closed = true ∧ v.out.bytes = input ∧ v.out.bits = bitsOfBytes input

/-! ### Whole-machine rules -/

/-- 70_reset_and_hazards.md R251, R254: every instruction ends, in success (IDLE, ERR as it was) or in a fault
(FAULTED, ERR not 0); there is no third way. -/
def Obligations.EveryInstructionEnds : Prop :=
  ∀ (i : Instr) (s : State), ∃ t, exec i s = .next t ∧
    (s.st = .idle → (t.st = .idle ∧ (t.err = s.err ∨ i = .clear ∧ t.err = 0)) ∨ (t.st = .faulted ∧ t.err ≠ 0))

/-- 60_exceptions.md R210, R212: which faults each instruction can raise, and that the code is the fault's. -/
def Obligations.FaultCodesAreTheCommandsOwn : Prop :=
  ∀ (i : Instr) (s t : State), s.st = .idle → exec i s = .next t → t.st = .faulted →
    ∃ e ∈ causesOf i, t.err = e.code

/-- 60_exceptions.md R213, 20_memory.md R54: no instruction takes a bit of the output back, and one that faults
never closes it. -/
def Obligations.OutputIsAppendOnly : Prop :=
  ∀ (i : Instr) (s t : State), exec i s = .next t →
    s.out.bits <+: t.out.bits ∧ (s.out.closed = true → t.out = s.out) ∧
    (s.st = .idle → t.st = .faulted → t.out.closed = s.out.closed)

/-- 10_state.md R24: frame. Only COUNT, CLEAR, COMPRESS and DECOMPRESS write FREQ; the two composites and CLEAR
leave it zero when they succeed. -/
def Obligations.OnlyTheseInstructionsWriteFreq : Prop :=
  ∀ (i : Instr) (s t : State), exec i s = .next t →
    (i ∉ ([.clear, .count, .compress, .decompress] : List Instr) → t.freq = s.freq) ∧
    (i ∈ ([.clear, .compress, .decompress] : List Instr) → s.st = .idle → t.st = .idle →
      ∀ n : Fin 256, t.freq[n.val] = 0)

/-- 42_codegen.md R138 (e), 10_state.md R26, R30: frame. Who writes CODE, CODES_VALID and TREE. -/
def Obligations.OnlyTheseInstructionsWriteTreeAndCode : Prop :=
  ∀ (i : Instr) (s t : State), exec i s = .next t →
    (i ∉ ([.clear, .gencodes, .compress, .decompress] : List Instr) → t.code = s.code) ∧
    (i ∉ ([.clear, .gencodes, .build, .rdhdr, .compress, .decompress] : List Instr) →
      t.codesValid = s.codesValid) ∧
    (i ∈ ([.gencodes, .wrhdr, .wrmagic, .rdmagic, .rewind, .count, .encode, .decode, .close] : List Instr) →
      t.tree = s.tree)

/-- 10_state.md R25, R37, 20_memory.md R51, R64: frame. Which commands touch which channel; the bits of the input,
the host's moves and the parameter MAGIC no instruction changes; the cursor only grows, but for REWIND and for
COMPRESS, which has a REWIND in it. COUNT and RDHDR leave OUT alone when they succeed; after a fault what follows
its old bits is any value (60_exceptions.md R213, U1; log 7). -/
def Obligations.OnlyTheseInstructionsTouchTheChannels : Prop :=
  ∀ (i : Instr) (s t : State), exec i s = .next t →
    t.inp.bits = s.inp.bits ∧ t.magic = s.magic ∧ t.moves = s.moves ∧ t.reply = s.reply ∧
    (i ∉ ([.rewind, .compress] : List Instr) → s.inp.pos ≤ s.inp.bits.length → s.inp.pos ≤ t.inp.pos) ∧
    (i ∈ ([.clear, .build, .gencodes, .wrhdr, .wrmagic, .close] : List Instr) → t.inp = s.inp) ∧
    (i ∈ ([.clear, .build, .gencodes, .rdmagic, .rewind] : List Instr) → t.out = s.out) ∧
    (i ∈ ([.count, .rdhdr] : List Instr) → t.out = s.out ∨ (s.st = .idle ∧ t.st = .faulted)) ∧
    (i ∈ ([.count, .encode] : List Instr) → s.st = .idle → t.st = .idle → t.inp.pos = s.inp.bits.length)

/-- An invariant every step keeps (logs 6, 3): between commands nothing stands inside a command, the cursor stands
inside the input and a closed output is whole bytes (20_memory.md R51, R56), ERR is 0 exactly while IDLE
and legal (10_state.md R36), TREE and the codes fit their stores (R27, R29), and while CODES_VALID is 1
CODE is the code table of TREE (R30). -/
def Obligations.StepKeepsTheInvariant : Prop :=
  ∀ s t : State, s.Inv → step s = .next t → t.Inv

/-- The invariant holds after reset (with the model's empty channels, log 2). -/
def Obligations.ResetHasTheInvariant : Prop :=
  State.reset.Inv
end

