-- ==== Sys2Proof/Laws/Bits.lean ====
section
/-! SUPPORT. Bit strings, values and bytes (00_scope.md R9, 20_memory.md R51, R52, R56). -/

namespace Sys2Proof.Machine

open Sys2Proof

@[simp] theorem length_bitsMsb {n : Nat} (v : BitVec n) : (bitsMsb v).length = n := by
  simp [bitsMsb]

theorem getElem_bitsMsb {n : Nat} (v : BitVec n) (k : Nat) (h : k < (bitsMsb v).length) :
    (bitsMsb v)[k] = v.getMsbD k := by
  simp [bitsMsb]

theorem foldl_bits (bs : Bits) (a : Nat) :
    bs.foldl (fun acc b => 2 * acc + b.toNat) a = a * 2 ^ bs.length + natOfBits bs := by
  induction bs generalizing a with
  | nil => simp [natOfBits]
  | cons b bs ih =>
    simp only [natOfBits, List.foldl_cons, List.length_cons]
    rw [ih, ih]
    ring

theorem natOfBits_cons (b : Bool) (bs : Bits) :
    natOfBits (b :: bs) = b.toNat * 2 ^ bs.length + natOfBits bs := by
  have h := foldl_bits bs b.toNat
  simpa [natOfBits] using h

theorem natOfBits_append (as bs : Bits) :
    natOfBits (as ++ bs) = natOfBits as * 2 ^ bs.length + natOfBits bs := by
  induction as with
  | nil => simp [natOfBits]
  | cons a as ih => simp only [List.cons_append, natOfBits_cons, ih, List.length_append]; ring

theorem natOfBits_lt (bs : Bits) : natOfBits bs < 2 ^ bs.length := by
  induction bs with
  | nil => simp [natOfBits]
  | cons b bs ih =>
    rw [natOfBits_cons, List.length_cons, pow_succ]
    cases b <;> simp <;> omega

/-- Reading a bit of the numeral gives the bit. -/
theorem testBit_natOfBits (bs : Bits) (k : Nat) :
    (natOfBits bs).testBit k = (bs.reverse[k]?).getD false := by
  induction bs generalizing k with
  | nil => simp [natOfBits]
  | cons b bs ih =>
    rw [natOfBits_cons]
    have h := natOfBits_lt bs
    have e : b.toNat * 2 ^ bs.length + natOfBits bs = 2 ^ bs.length * b.toNat + natOfBits bs := by ring
    rw [e, Nat.testBit_two_pow_mul_add _ h]
    by_cases hk : k < bs.length
    · simp [hk, ih, List.getElem?_append]
    · rw [if_neg hk]
      have : bs.length ≤ k := by omega
      simp only [List.reverse_cons, List.getElem?_append, List.length_reverse, if_neg hk]
      rcases Nat.eq_or_lt_of_le this with h1 | h1
      · subst h1; cases b <;> simp
      · have : k - bs.length ≠ 0 := by omega
        obtain ⟨j, hj⟩ := Nat.exists_eq_succ_of_ne_zero this
        rw [hj]; cases b <;> simp [Nat.testBit_succ]

/-- A value's bits read back give the value. -/
@[simp] theorem ofBitsMsb_bitsMsb {n : Nat} (v : BitVec n) : ofBitsMsb n (bitsMsb v) = v := by
  apply BitVec.eq_of_getLsbD_eq
  intro i hi
  simp only [ofBitsMsb, BitVec.getLsbD_ofNat, testBit_natOfBits]
  rw [List.getElem?_reverse (by simpa using hi)]
  simp only [length_bitsMsb, hi, decide_true, Bool.true_and]
  rw [List.getElem?_eq_getElem (by simp; omega)]
  simp only [getElem_bitsMsb, Option.getD_some, BitVec.getMsbD]
  have h1 : n - 1 - (n - 1 - i) = i := by omega
  have h2 : n - 1 - i < n := by omega
  simp [h1, h2]

/-- As many bits as the width, made a value, give the bits back. -/
theorem bitsMsb_ofBitsMsb (n : Nat) (bs : Bits) (h : bs.length = n) : bitsMsb (ofBitsMsb n bs) = bs := by
  apply List.ext_getElem (by simp [h])
  intro i h1 h2
  rw [getElem_bitsMsb]
  simp only [BitVec.getMsbD, ofBitsMsb, BitVec.getLsbD_ofNat, testBit_natOfBits]
  rw [List.getElem?_reverse (by omega)]
  have h3 : bs.length - 1 - (n - 1 - i) = i := by omega
  have h4 : i < n := by omega
  have h5 : n - 1 - i < n := by omega
  simp [h3, h4, h5, h2]

theorem ofBitsMsb_eight (b : Byte) (rest : Bits) :
    wordsOfBits (bitsMsb b ++ rest) = b :: wordsOfBits rest := by
  obtain ⟨a0, a1, a2, a3, a4, a5, a6, a7, h⟩ :
      ∃ a0 a1 a2 a3 a4 a5 a6 a7, bitsMsb b = [a0, a1, a2, a3, a4, a5, a6, a7] :=
    ⟨_, _, _, _, _, _, _, _, rfl⟩
  have h2 := ofBitsMsb_bitsMsb b
  rw [h] at h2 ⊢
  simp [wordsOfBits, h2]

@[simp] theorem wordsOfBits_bitsOfBytes (bs : List Byte) : wordsOfBits (bitsOfBytes bs) = bs := by
  induction bs with
  | nil => rfl
  | cons b bs ih =>
    have : bitsOfBytes (b :: bs) = bitsMsb b ++ bitsOfBytes bs := rfl
    rw [this, ofBitsMsb_eight, ih]

@[simp] theorem length_bitsOfBytes (bs : List Byte) : (bitsOfBytes bs).length = 8 * bs.length := by
  induction bs with
  | nil => rfl
  | cons b bs ih =>
    have : bitsOfBytes (b :: bs) = bitsMsb b ++ bitsOfBytes bs := rfl
    rw [this, List.length_append, ih]; simp; omega

theorem bitsOfBytes_cons (b : Byte) (bs : List Byte) : bitsOfBytes (b :: bs) = bitsMsb b ++ bitsOfBytes bs := rfl

theorem bitsOfBytes_append (as bs : List Byte) : bitsOfBytes (as ++ bs) = bitsOfBytes as ++ bitsOfBytes bs := by
  simp [bitsOfBytes]

/-- The words of a bit sequence, and the partial word that is dropped. -/
theorem wordsOfBits_spec (bits : Bits) :
    ∃ tail : Bits, tail.length < 8 ∧ bits = bitsOfBytes (wordsOfBits bits) ++ tail := by
  induction bits using wordsOfBits.induct with
  | case1 b7 b6 b5 b4 b3 b2 b1 b0 rest ih =>
    obtain ⟨tail, h1, h2⟩ := ih
    refine ⟨tail, h1, ?_⟩
    rw [wordsOfBits, bitsOfBytes_cons, bitsMsb_ofBitsMsb 8 _ rfl, List.append_assoc, ← h2]
    rfl
  | case2 t h =>
    refine ⟨t, ?_, ?_⟩
    · rcases t with _ | ⟨a, _ | ⟨b, _ | ⟨c, _ | ⟨d, _ | ⟨e, _ | ⟨f, _ | ⟨g, _ | ⟨x, r⟩⟩⟩⟩⟩⟩⟩⟩
      all_goals first | (exact absurd rfl (h _ _ _ _ _ _ _ _ _)) | simp
    · rw [wordsOfBits]
      · rfl
      · exact h

theorem length_wordsOfBits (bits : Bits) : (wordsOfBits bits).length = bits.length / 8 := by
  obtain ⟨tail, h1, h2⟩ := wordsOfBits_spec bits
  have := congrArg List.length h2
  simp at this; omega

theorem bytes_of_whole (bits : Bits) (h : bits.length % 8 = 0) : bitsOfBytes (wordsOfBits bits) = bits := by
  obtain ⟨tail, h1, h2⟩ := wordsOfBits_spec bits
  have h3 := congrArg List.length h2
  simp at h3
  have : tail = [] := List.length_eq_zero_iff.mp (by omega)
  subst this
  rw [List.append_nil] at h2
  exact h2.symm

end Sys2Proof.Machine
end

