-- ==== Sys2Proof/Laws/Channels.lean ====
section
/-! SUPPORT. The channel operations (20_memory.md R51 to R56), and that each keeps `Memory.wf`. -/

namespace Sys2Proof.Machine

open Sys2Proof

theorem rest_length (c : InChan) : c.rest.length = c.bits.length - c.pos := by simp [InChan.rest]

theorem rest_advance (c : InChan) (k : Nat) : InChan.rest { c with pos := c.pos + k } = c.rest.drop k := by
  simp [InChan.rest, List.drop_drop]

theorem words_length (c : InChan) : c.words.length = (c.bits.length - c.pos) / 8 := by
  simp [InChan.words, length_wordsOfBits, rest_length]

theorem leaving_eq (c : InChan) (q rest : Bits) (h : c.rest = q ++ rest) (hp : c.pos ≤ c.bits.length) :
    c.leaving rest = { c with pos := c.pos + q.length } := by
  have := congrArg List.length h
  simp [rest_length] at this
  simp [InChan.leaving]; omega

theorem pos_le_of_rest (c : InChan) (h : c.rest ≠ []) : c.pos ≤ c.bits.length := by
  by_contra hc
  exact h (List.drop_eq_nil_of_le (by omega))

theorem readBits_some {n : Nat} (m : BitVec n) (c : InChan) (rest : Bits) (h : c.rest = bitsMsb m ++ rest) (hp : c.pos ≤ c.bits.length) :
    c.readBits n = (some m, { c with pos := c.pos + n }) := by
  have hl := congrArg List.length h
  rw [rest_length] at hl; simp at hl
  rw [InChan.readBits, if_pos (by omega), h, List.take_append_of_le_length (by simp), List.take_of_length_le (by simp), ofBitsMsb_bitsMsb]

theorem words_whole (input : List Byte) : InChan.words { bits := bitsOfBytes input, pos := 0 } = input := by
  simp [InChan.words, InChan.rest]

theorem wf_iff (i : InChan) (o : OutChan) : Memory.wf i o = true ↔
    i.pos ≤ i.bits.length ∧ (o.closed = true → o.bits.length % 8 = 0) := by
  simp only [Memory.wf, Bool.and_eq_true, decide_eq_true_eq, Bool.or_eq_true, Bool.not_eq_true', beq_iff_eq]
  cases o.closed <;> simp

/-! ### The form every channel operation keeps -/

theorem wf_reset : Memory.wf State.reset.inp State.reset.out = true := by decide

theorem wf_readBits (n : Nat) (i : InChan) (o : OutChan) (h : Memory.wf i o = true) :
    Memory.wf (i.readBits n).2 o = true := by
  rw [wf_iff] at h ⊢
  refine ⟨?_, h.2⟩
  unfold InChan.readBits
  split
  · assumption
  · exact le_refl _

theorem wf_resetToStart (i : InChan) (o : OutChan) (h : Memory.wf i o = true) : Memory.wf i.resetToStart o = true := by
  rw [wf_iff] at h ⊢; exact ⟨Nat.zero_le _, h.2⟩

theorem wf_toEnd (i : InChan) (o : OutChan) (h : Memory.wf i o = true) : Memory.wf i.toEnd o = true := by
  rw [wf_iff] at h ⊢; exact ⟨le_refl _, h.2⟩

theorem wf_leaving (i : InChan) (o : OutChan) (rest : Bits) (h : Memory.wf i o = true) :
    Memory.wf (i.leaving rest) o = true := by
  rw [wf_iff] at h ⊢; exact ⟨Nat.sub_le _ _, h.2⟩

theorem wf_attachIn (bits : Bits) (i : InChan) (o : OutChan) (h : Memory.wf i o = true) :
    Memory.wf { bits := bits, pos := 0 } o = true := by
  rw [wf_iff] at h ⊢; exact ⟨Nat.zero_le _, h.2⟩

theorem wf_fresh (i : InChan) (o : OutChan) (h : Memory.wf i o = true) : Memory.wf i OutChan.fresh = true := by
  rw [wf_iff] at h ⊢; exact ⟨h.1, by simp [OutChan.fresh]⟩

theorem wf_writeCode (p : Bits) (i : InChan) (o : OutChan) (h : Memory.wf i o = true) (ho : o.closed = false) :
    Memory.wf i (o.writeCode p) = true := by
  rw [wf_iff] at h ⊢; exact ⟨h.1, by simp [OutChan.writeCode, ho]⟩

theorem wf_writeBits {n : Nat} (v : BitVec n) (i : InChan) (o : OutChan) (h : Memory.wf i o = true)
    (ho : o.closed = false) : Memory.wf i (o.writeBits v) = true := wf_writeCode _ i o h ho

theorem wf_close (i : InChan) (o : OutChan) (h : Memory.wf i o = true) : Memory.wf i o.close = true := by
  rw [wf_iff] at h ⊢
  exact ⟨h.1, fun _ => by simp [OutChan.close, padLength]; omega⟩

theorem wf_outAfterFault (i : InChan) (e : Cause) (o0 o : OutChan) (ctr : Nat) (h : Memory.wf i o = true) :
    Memory.wf i (outAfterFault e o0 o ctr).1 = true := by
  rw [wf_iff] at h ⊢
  refine ⟨h.1, ?_⟩
  unfold outAfterFault
  split
  · exact h.2
  · next hn =>
    cases hc : o.closed with
    | true => exact absurd (by simp [hc]) hn
    | false => simp

end Sys2Proof.Machine
end

