-- ==== Sys2Proof/Laws/Codes.lean ====
section
/-! SUPPORT. The code table, the walk and the encoding loop (42_codegen.md, 45_decompress.md R183, 44_compress.md R162). -/

namespace Sys2Proof.Machine

open Sys2Proof

theorem byteSymbol_ne_pseudoEof (w : Byte) : byteSymbol w ≠ Config.pseudoEof := by
  intro h
  have h2 : w.toNat = 256 := congrArg Fin.val h
  have h3 := w.isLt
  omega

theorem byte_of_byteSymbol (w : Byte) : BitVec.ofNat 8 (byteSymbol w).val = w := by simp [byteSymbol]

theorem byteSymbol_lt (w : Byte) : (byteSymbol w).val < 256 := w.isLt

theorem byteSymbol_inj (a b : Byte) : byteSymbol a = byteSymbol b ↔ a = b := by
  constructor
  · intro h; exact BitVec.eq_of_toNat_eq (congrArg (fun s : Symbol => s.val) h)
  · rintro rfl; rfl

theorem genWalk_eq (t : Tree) (p : Bits) (c : Vector (Option Bits) 257) :
    genWalk t p c = t.paths.foldl (fun c q => codeWrite c q.1 (p ++ q.2)) c := by
  induction t generalizing p c with
  | leaf v w => simp [genWalk, Tree.paths]
  | node w l r ihl ihr =>
    simp [genWalk, Tree.paths, List.foldl_append, List.foldl_map, ihl, ihr]

@[simp] theorem codeRead_codeWrite_self (c : Vector (Option Bits) 257) (v : Symbol) (p : Bits) :
    codeRead (codeWrite c v p) v = some p := by
  simp [codeRead, codeWrite]

theorem codeRead_codeWrite_of_ne (c : Vector (Option Bits) 257) (v u : Symbol) (p : Bits) (h : u ≠ v) :
    codeRead (codeWrite c v p) u = codeRead c u := by
  have : v.val ≠ u.val := fun e => h (Fin.ext e.symm)
  simp [codeRead, codeWrite, this]

@[simp] theorem codeRead_codeNone (v : Symbol) : codeRead codeNone v = none := by
  simp [codeRead, codeNone]

theorem foldl_codeWrite (l : List (Symbol × Bits)) (c : Vector (Option Bits) 257) (v : Symbol) :
    codeRead (l.foldl (fun c q => codeWrite c q.1 q.2) c) v =
      match l.reverse.find? (fun p => p.1 == v) with
      | some p => some p.2
      | none => codeRead c v := by
  induction l generalizing c with
  | nil => simp
  | cons x xs ih =>
    simp only [List.foldl_cons, ih, List.reverse_cons, List.find?_append]
    cases h : xs.reverse.find? (fun p => p.1 == v) with
    | some p => simp
    | none =>
      by_cases hx : x.1 = v
      · subst hx; simp
      · have : (x.1 == v) = false := by simpa using hx
        simp [List.find?, this, codeRead_codeWrite_of_ne _ _ _ _ (Ne.symm hx)]

/-- The code table holds, for each symbol, the path of its last leaf in preorder. -/
theorem codeRead_codeTable (t : Tree) (v : Symbol) : codeRead (codeTable t) v = t.codeOf v := by
  simp only [codeTable, genWalk_eq, List.nil_append, foldl_codeWrite, codeRead_codeNone, Tree.codeOf]
  cases t.paths.reverse.find? (fun p => p.1 == v) <;> rfl

theorem codeOf_mem (t : Tree) (v : Symbol) (p : Bits) (h : t.codeOf v = some p) : (v, p) ∈ t.paths := by
  simp only [Tree.codeOf, Option.map_eq_some_iff] at h
  obtain ⟨⟨u, q⟩, h1, h2⟩ := h
  have h3 := List.find?_some h1
  have h4 := List.mem_of_find?_eq_some h1
  simp at h3 h4 h2
  subst h3 h2
  exact h4

theorem codeOf_isSome (t : Tree) (v : Symbol) : (t.codeOf v).isSome = true ↔ v ∈ t.paths.map (·.1) := by
  simp only [Tree.codeOf, Option.isSome_map, List.find?_isSome, List.mem_reverse]
  constructor
  · rintro ⟨x, hx, h⟩; simp at h; exact List.mem_map.mpr ⟨x, hx, h⟩
  · intro h; obtain ⟨x, hx, h⟩ := List.mem_map.mp h; exact ⟨x, hx, by simpa using h⟩

theorem codeOf_leaf (v u : Symbol) (w : Weight) : (Tree.leaf v w).codeOf u = if v = u then some [] else none := by
  by_cases h : v = u
  · subst h; simp [Tree.codeOf, Tree.paths]
  · have : (v == u) = false := by simpa using h
    simp [Tree.codeOf, Tree.paths, h, this]

theorem paths_map_fst (t : Tree) : t.paths.map (·.1) = t.leafList.map (·.1) := by
  induction t with
  | leaf => rfl
  | node w l r ihl ihr =>
    simp only [Tree.paths, Tree.leafList, List.map_append, List.map_map, ← ihl, ← ihr]
    rfl

theorem paths_length_le_depth (t : Tree) (v : Symbol) (p : Bits) (h : (v, p) ∈ t.paths) : p.length ≤ t.depth := by
  induction t generalizing p with
  | leaf u w => simp [Tree.paths] at h; simp [h.2, Tree.depth]
  | node w l r ihl ihr =>
    simp only [Tree.paths, List.mem_append, List.mem_map] at h
    rcases h with ⟨⟨u, q⟩, hq, he⟩ | ⟨⟨u, q⟩, hq, he⟩ <;> simp at he <;> obtain ⟨rfl, rfl⟩ := he
    · have := ihl q hq; simp [Tree.depth]; omega
    · have := ihr q hq; simp [Tree.depth]; omega

/-- Two leaves' paths, neither of which is the other, are no prefixes of each other. -/
theorem paths_noPrefix (t : Tree) (u v : Symbol) (p q : Bits) (hp : (u, p) ∈ t.paths) (hq : (v, q) ∈ t.paths)
    (h : p <+: q) : u = v ∧ p = q := by
  induction t generalizing p q with
  | leaf x w =>
    simp [Tree.paths] at hp hq
    exact ⟨hp.1.trans hq.1.symm, hp.2.trans hq.2.symm⟩
  | node w l r ihl ihr =>
    simp only [Tree.paths, List.mem_append, List.mem_map] at hp hq
    rcases hp with ⟨⟨_, p'⟩, hp, he⟩ | ⟨⟨_, p'⟩, hp, he⟩ <;> simp at he <;> obtain ⟨rfl, rfl⟩ := he <;>
    rcases hq with ⟨⟨_, q'⟩, hq, he⟩ | ⟨⟨_, q'⟩, hq, he⟩ <;> simp at he <;> obtain ⟨rfl, rfl⟩ := he <;>
    simp at h
    · have := ihl _ _ hp hq h; simp [this.1, this.2]
    · have := ihr _ _ hp hq h; simp [this.1, this.2]

theorem path_ne_nil (w : Weight) (l r : Tree) (v : Symbol) (p : Bits) (h : (v, p) ∈ (Tree.node w l r).paths) : p ≠ [] := by
  rintro rfl; simp [Tree.paths] at h

theorem paths_zeroWeights (t : Tree) : t.zeroWeights.paths = t.paths := by
  induction t with
  | leaf => rfl
  | node w l r ihl ihr => simp [Tree.zeroWeights, Tree.paths, ihl, ihr]

theorem codeOf_zeroWeights (t : Tree) : t.zeroWeights.codeOf = t.codeOf := by
  funext v; simp [Tree.codeOf, paths_zeroWeights]

theorem codesOfWords_isSome (c : Symbol → Option Bits) (ws : List Byte) (h : ∀ w ∈ ws, (c (byteSymbol w)).isSome = true) :
    ∃ q, codesOfWords c ws = some q := by
  induction ws with
  | nil => exact ⟨[], rfl⟩
  | cons w ws ih =>
    obtain ⟨q, hq⟩ := ih fun x hx => h x (List.mem_cons_of_mem _ hx)
    obtain ⟨p, hp⟩ := Option.isSome_iff_exists.mp (h w List.mem_cons_self)
    exact ⟨p ++ q, by simp [codesOfWords, hp, hq]⟩

/-- The body over a tree that is one leaf: empty, and only for no words at all. -/
theorem bodyBits_leaf (v : Symbol) (w : Weight) (ws : List Byte) (q : Bits) (h : bodyBits (Tree.leaf v w).codeOf ws = some q) :
    v = Config.pseudoEof ∧ ws = [] ∧ q = [] := by
  simp only [bodyBits, codeOf_leaf] at h
  by_cases hv : v = Config.pseudoEof
  · subst hv
    cases ws with
    | nil => simp [codesOfWords] at h; exact ⟨rfl, rfl, h⟩
    | cons x xs =>
      exfalso
      have : (Tree.leaf Config.pseudoEof w).codeOf (byteSymbol x) = none := by
        rw [codeOf_leaf, if_neg (Ne.symm (byteSymbol_ne_pseudoEof x))]
      simp [codesOfWords, this] at h
  · rw [if_neg hv] at h
    split at h
    · next h1 h2 => cases h2
    · cases h

/-- Along a path the walk goes from node to node, and the leaf at its end decides. -/
theorem walkBits_path (root : Tree) (t : Tree) (v : Symbol) (p : Bits) (h : (v, p) ∈ t.paths) (hp : p ≠ [])
    (o : OutChan) (rest : Bits) :
    walkBits root t o (p ++ rest) =
      if v = Config.pseudoEof then .stopped o rest
      else walkBits root root (o.writeBits (BitVec.ofNat 8 v.val)) rest := by
  induction t generalizing p with
  | leaf u w => simp [Tree.paths] at h; exact absurd h.2 hp
  | node w l r ihl ihr =>
    simp only [Tree.paths, List.mem_append, List.mem_map] at h
    rcases h with ⟨⟨_, q⟩, hq, he⟩ | ⟨⟨_, q⟩, hq, he⟩ <;> simp at he <;> obtain ⟨rfl, rfl⟩ := he
    · rw [List.cons_append, walkBits]
      simp only [Tree.child, Bool.false_eq_true, if_false]
      cases l with
      | leaf u w' => simp [Tree.paths] at hq; obtain ⟨rfl, rfl⟩ := hq; rfl
      | node w' a b =>
        exact ihl q hq (by rintro rfl; simp [Tree.paths] at hq)
    · rw [List.cons_append, walkBits]
      simp only [Tree.child, if_true]
      cases r with
      | leaf u w' => simp [Tree.paths] at hq; obtain ⟨rfl, rfl⟩ := hq; rfl
      | node w' a b =>
        exact ihr q hq (by rintro rfl; simp [Tree.paths] at hq)

/-- The walk over the codes of a word sequence writes the words. -/
theorem walkBits_words (w : Weight) (l r : Tree) (ws : List Byte) (q : Bits) (o : OutChan) (rest : Bits)
    (h : codesOfWords (Tree.node w l r).codeOf ws = some q) :
    walkBits (.node w l r) (.node w l r) o (q ++ rest) =
      walkBits (.node w l r) (.node w l r) { o with bits := o.bits ++ bitsOfBytes ws } rest := by
  induction ws generalizing q o with
  | nil => simp [codesOfWords] at h; subst h; simp [bitsOfBytes]
  | cons x xs ih =>
    simp only [codesOfWords] at h
    cases h1 : (Tree.node w l r).codeOf (byteSymbol x) with
    | none => simp [h1] at h
    | some p =>
      cases h2 : codesOfWords (Tree.node w l r).codeOf xs with
      | none => simp [h1, h2] at h
      | some q' =>
        simp [h1, h2] at h; subst h
        have hm := codeOf_mem _ _ _ h1
        rw [List.append_assoc, walkBits_path _ _ _ _ hm (path_ne_nil _ _ _ _ _ hm),
          if_neg (byteSymbol_ne_pseudoEof x), ih _ _ h2, byte_of_byteSymbol]
        simp [OutChan.writeBits, OutChan.writeCode, bitsOfBytes_cons]

theorem walkBits_body (w : Weight) (l r : Tree) (ws : List Byte) (q : Bits) (o : OutChan) (rest : Bits)
    (h : bodyBits (Tree.node w l r).codeOf ws = some q) :
    walkBits (.node w l r) (.node w l r) o (q ++ rest) =
      .stopped { o with bits := o.bits ++ bitsOfBytes ws } rest := by
  simp only [bodyBits] at h
  cases h1 : codesOfWords (Tree.node w l r).codeOf ws with
  | none => simp [h1] at h
  | some a =>
    cases h2 : (Tree.node w l r).codeOf Config.pseudoEof with
    | none => simp [h1, h2] at h
    | some b =>
      simp [h1, h2] at h; subst h
      have hm := codeOf_mem _ _ _ h2
      rw [List.append_assoc, walkBits_words w l r ws a o _ h1,
        walkBits_path _ _ _ _ hm (path_ne_nil _ _ _ _ _ hm), if_pos rfl]

/-- The walk appends whole words and reads on. -/
theorem walkBits_spec (root cur : Tree) (o : OutChan) (bits : Bits) :
    (∃ ws rest, walkBits root cur o bits = .stopped { o with bits := o.bits ++ bitsOfBytes ws } rest ∧ rest <:+ bits) ∨
    (∃ ws, walkBits root cur o bits = .truncated { o with bits := o.bits ++ bitsOfBytes ws }) := by
  induction bits generalizing cur o with
  | nil => exact .inr ⟨[], by simp [walkBits, bitsOfBytes]⟩
  | cons b bs ih =>
    simp only [walkBits]
    cases cur.child b with
    | node w l r =>
      simp only
      rcases ih (.node w l r) o with ⟨ws, rest, h1, h2⟩ | ⟨ws, h1⟩
      · exact .inl ⟨ws, rest, h1, h2.trans (List.suffix_cons _ _)⟩
      · exact .inr ⟨ws, h1⟩
    | leaf v w =>
      simp only
      split
      · exact .inl ⟨[], bs, by simp [bitsOfBytes], List.suffix_cons _ _⟩
      · rcases ih root (o.writeBits (BitVec.ofNat 8 v.val)) with ⟨ws, rest, h1, h2⟩ | ⟨ws, h1⟩
        · refine .inl ⟨BitVec.ofNat 8 v.val :: ws, rest, ?_, h2.trans (List.suffix_cons _ _)⟩
          rw [h1]; simp [OutChan.writeBits, OutChan.writeCode, bitsOfBytes_cons]
        · refine .inr ⟨BitVec.ofNat 8 v.val :: ws, ?_⟩
          rw [h1]; simp [OutChan.writeBits, OutChan.writeCode, bitsOfBytes_cons]

theorem encodeWords_eq (c : Vector (Option Bits) 257) (ws : List Byte) (o : OutChan) (k : Nat) (q : Bits)
    (h : codesOfWords (codeRead c) ws = some q) :
    encodeWords c o k ws = .encoded { o with bits := o.bits ++ q } := by
  induction ws generalizing o k q with
  | nil => simp [codesOfWords] at h; subst h; simp [encodeWords]
  | cons x xs ih =>
    simp only [codesOfWords] at h
    cases h1 : codeRead c (byteSymbol x) with
    | none => simp [h1] at h
    | some p =>
      cases h2 : codesOfWords (codeRead c) xs with
      | none => simp [h1, h2] at h
      | some q' =>
        simp [h1, h2] at h; subst h
        simp [encodeWords, h1, ih _ _ _ h2, OutChan.writeCode]

theorem encodeWords_missing (c : Vector (Option Bits) 257) (ws : List Byte) (w : Byte) (rest : List Byte)
    (o : OutChan) (k : Nat) (q : Bits)
    (h : codesOfWords (codeRead c) ws = some q) (hw : codeRead c (byteSymbol w) = none) :
    encodeWords c o k (ws ++ w :: rest) = .missing { o with bits := o.bits ++ q } (k + ws.length + 1) := by
  induction ws generalizing o k q with
  | nil => simp [codesOfWords] at h; subst h; simp [encodeWords, hw]
  | cons x xs ih =>
    simp only [codesOfWords] at h
    cases h1 : codeRead c (byteSymbol x) with
    | none => simp [h1] at h
    | some p =>
      cases h2 : codesOfWords (codeRead c) xs with
      | none => simp [h1, h2] at h
      | some q' =>
        simp [h1, h2] at h; subst h
        simp [encodeWords, h1, ih _ _ _ h2, OutChan.writeCode]; omega

/-- The encoding loop appends, and stops inside the words. -/
theorem encodeWords_cases (c : Vector (Option Bits) 257) (o : OutChan) (k : Nat) (ws : List Byte) :
    (∃ q, encodeWords c o k ws = .encoded { o with bits := o.bits ++ q }) ∨
    (∃ q n, n ≤ k + ws.length ∧ encodeWords c o k ws = .missing { o with bits := o.bits ++ q } n) := by
  induction ws generalizing o k with
  | nil => exact .inl ⟨[], by simp [encodeWords]⟩
  | cons w ws ih =>
    simp only [encodeWords]
    cases codeRead c (byteSymbol w) with
    | none => exact .inr ⟨[], k + 1, by simp, by simp⟩
    | some p =>
      rcases ih (o.writeCode p) (k + 1) with ⟨q, h⟩ | ⟨q, n, hn, h⟩
      · exact .inl ⟨p ++ q, by simp only [h]; simp [OutChan.writeCode]⟩
      · exact .inr ⟨p ++ q, n, by simp; omega, by simp only [h]; simp [OutChan.writeCode]⟩

/-! ### What a walk reads -/

theorem walkBits_spells (w : Weight) (l r : Tree) (ws : List Byte) : ∀ (q : Bits) (o : OutChan) (rest : Bits),
    (Tree.node w l r).spells ws q →
    walkBits (.node w l r) (.node w l r) o (q ++ rest) = .stopped { o with bits := o.bits ++ bitsOfBytes ws } rest := by
  induction ws with
  | nil =>
    intro q o rest h
    rw [walkBits_path _ _ _ _ h (path_ne_nil _ _ _ _ _ h), if_pos rfl]; simp [bitsOfBytes]
  | cons x xs ih =>
    rintro _ o rest ⟨p, q, hp, rfl, hq⟩
    rw [List.append_assoc, walkBits_path _ _ _ _ hp (path_ne_nil _ _ _ _ _ hp),
      if_neg (byteSymbol_ne_pseudoEof x), ih q _ _ hq, byte_of_byteSymbol]
    simp [OutChan.writeBits, OutChan.writeCode, bitsOfBytes_cons]

theorem byteSymbol_ofNat (v : Symbol) (h : v ≠ Config.pseudoEof) : byteSymbol (BitVec.ofNat 8 v.val) = v := by
  have h1 := v.isLt
  have h2 : v.val ≠ 256 := fun e => h (Fin.ext e)
  apply Fin.ext
  simp [byteSymbol]; omega

theorem paths_child (w : Weight) (l r : Tree) (b : Bool) (v : Symbol) (q : Bits)
    (h : (v, q) ∈ ((Tree.node w l r).child b).paths) : (v, b :: q) ∈ (Tree.node w l r).paths := by
  cases b <;> simp [Tree.child] at h <;> simp [Tree.paths, h]

/-- A walk that stops has read words and 256, from the place `p` on. -/
theorem walkBits_stopped (root : Tree) (hroot : ∃ w l r, root = .node w l r) (bits : Bits) :
    ∀ (w : Weight) (l r : Tree) (p : Bits) (o o' : OutChan) (rest : Bits),
    (∀ v q, (v, q) ∈ (Tree.node w l r).paths → (v, p ++ q) ∈ root.paths) →
    walkBits root (.node w l r) o bits = .stopped o' rest → ∃ ws q, root.spells ws (p ++ q) ∧ bits = q ++ rest := by
  induction bits with
  | nil => intro w l r p o o' rest _ h; simp [walkBits] at h
  | cons b bs ih =>
    intro w l r p o o' rest hp h
    have hc := paths_child w l r b
    simp only [walkBits] at h
    cases hch : (Tree.node w l r).child b with
    | node w' l' r' =>
      rw [hch] at h hc
      obtain ⟨ws, q, h1, h2⟩ := ih w' l' r' (p ++ [b]) o o' rest
        (fun v q hq => by rw [List.append_assoc]; exact hp v _ (hc v q hq)) h
      exact ⟨ws, b :: q, by simpa using h1, by rw [h2]; rfl⟩
    | leaf v w' =>
      rw [hch] at h hc
      have hv : (v, p ++ [b]) ∈ root.paths := hp v _ (hc v [] (by simp [Tree.paths]))
      simp only at h
      split at h
      · next e => subst e; cases h; exact ⟨[], [b], hv, rfl⟩
      · next e =>
        obtain ⟨rw', rl, rr, rfl⟩ := hroot
        obtain ⟨ws, q, h1, h2⟩ := ih rw' rl rr [] _ o' rest (fun v q hq => hq) h
        refine ⟨BitVec.ofNat 8 v.val :: ws, b :: q, ⟨p ++ [b], q, by rw [byteSymbol_ofNat v e]; exact hv, by simp, h1⟩, by rw [h2]; rfl⟩

end Sys2Proof.Machine
end

