-- ==== Sys2Proof/Laws/Commands.lean ====
section
/-! SUPPORT. The command decoder, the step between commands, and a command run while IDLE (30_encoding.md R88 to R91). -/

namespace Sys2Proof.Machine

open Sys2Proof

theorem commandOfOpcode_some (n : Nat) (i : Instr) (h : commandOfOpcode n = some i) :
    encode i = .command (BitVec.ofNat 32 n) := by
  unfold commandOfOpcode at h
  split at h <;> first | (cases h; done) | (cases h; rfl)

/-- A word decodes exactly when it is one of the fourteen. -/
theorem decodeCommand_eq (w : Word) :
    decodeCommand w = if w.toNat < 256 then
      (match commandOfOpcode w.toNat with | some i => .ok i | none => .error .reservedOpcode)
      else .error .zeroFieldNotZero := by
  have hw := w.isLt
  have h1 : (w.extractLsb' 8 24).toNat = w.toNat / 256 := by
    simp [BitVec.extractLsb'_toNat, Nat.shiftRight_eq_div_pow]; omega
  have h2 : (w.extractLsb' 0 8).toNat = w.toNat % 256 := by
    simp [BitVec.extractLsb'_toNat]
  unfold decodeCommand
  by_cases h : w.toNat < 256
  · have hz : w.extractLsb' 8 24 = 0#24 := by
      apply BitVec.eq_of_toNat_eq
      rw [h1]; simp; omega
    cases hc : commandOfOpcode w.toNat <;> simp [h, hz, h2, Nat.mod_eq_of_lt h, hc]
  · rw [if_neg h, if_pos]
    intro e
    have := congrArg BitVec.toNat e
    rw [h1] at this; simp at this; omega

theorem decodeCommand_ok (w : Word) (i : Instr) (h : decodeCommand w = .ok i) : encode i = .command w := by
  rw [decodeCommand_eq] at h
  split at h
  · cases hc : commandOfOpcode w.toNat with
    | none => simp [hc] at h
    | some j =>
      simp [hc] at h; subst h
      rw [commandOfOpcode_some _ _ hc]; simp
  · cases h

theorem decodeCommand_isCommand (w : Word) (i : Instr) (h : decodeCommand w = .ok i) : i.isCommand = true := by
  have := decodeCommand_ok w i h
  cases i <;> simp [encode] at this <;> rfl

theorem step_move (s : State) (m : Move) (rest : List Move) (hq : s.quiet) (hm : s.moves = m :: rest) :
    step s = hostMove m { s with moves := rest, reply := .nothing } := by
  obtain ⟨h1, h2, h3⟩ := hq
  simp [step, stepOf, h1, h2, h3, hm]

theorem step_wait (s : State) (hq : s.quiet) (hm : s.moves = []) : step s = .next s := by
  obtain ⟨h1, h2, h3⟩ := hq
  simp [step, stepOf, h1, h2, h3, hm]

theorem startsCommand_of {s : State} {w : Word} {i : Instr} (hs : s.st = .idle ∨ i = .clear)
    (hd : decode (.command w) = .ok i) : startsCommand w s = some i := by
  rcases hs with hs | rfl
  · simp only [startsCommand, hd, hs]
  · cases h : s.st <;> simp only [startsCommand, hd, h]

/-- A word that starts a command, with an event inside it. -/
theorem step_during {s : State} {w : Word} {i : Instr} {e : BusyEvent} {rest : List Move} (hq : s.quiet)
    (hs : s.st = .idle ∨ i = .clear) (hd : decode (.command w) = .ok i) (hm : s.moves = .during w e :: rest) :
    step s = eventWhileRunning i e { s with moves := rest, reply := .nothing } := by
  rw [step_move s _ rest hq hm]
  have : startsCommand w { s with moves := rest, reply := .nothing } = some i := startsCommand_of hs hd
  simp only [hostMove, duringCommand, this]

theorem run_succ (n : Nat) (s t : State) (h : step s = .next t) :
    runSteps (n + 1) s = runSteps n t := by
  simp only [runSteps, h]

theorem exec_run_count (s : State) (h : s.st = .idle) : exec .count s = finish s (countBody s) := by simp [exec, execCount, runCommand, h]

theorem exec_run_build (s : State) (h : s.st = .idle) : exec .build s = finish s (buildBody s) := by simp [exec, execBuild, runCommand, h]

theorem exec_run_gencodes (s : State) (h : s.st = .idle) : exec .gencodes s = finish s (gencodesBody s) := by simp [exec, execGencodes, runCommand, h]

theorem exec_run_wrhdr (s : State) (h : s.st = .idle) : exec .wrhdr s = finish s (wrhdrBody s) := by simp [exec, execWrhdr, runCommand, h]

theorem exec_run_rdhdr (s : State) (h : s.st = .idle) : exec .rdhdr s = finish s (rdhdrBody s) := by simp [exec, execRdhdr, runCommand, h]

theorem exec_run_wrmagic (s : State) (h : s.st = .idle) : exec .wrmagic s = finish s (wrmagicBody s) := by simp [exec, execWrmagic, runCommand, h]

theorem exec_run_rdmagic (s : State) (h : s.st = .idle) : exec .rdmagic s = finish s (rdmagicBody s) := by simp [exec, execRdmagic, runCommand, h]

theorem exec_run_rewind (s : State) (h : s.st = .idle) : exec .rewind s = finish s (rewindBody s) := by simp [exec, execRewind, runCommand, h]

theorem exec_run_encode (s : State) (h : s.st = .idle) : exec .encode s = finish s (encodeBody s) := by simp [exec, execEncode, runCommand, h]

theorem exec_run_decode (s : State) (h : s.st = .idle) : exec .decode s = finish s (decodeBody s) := by simp [exec, execDecode, runCommand, h]

theorem exec_run_close (s : State) (h : s.st = .idle) : exec .close s = finish s (closeBody s) := by simp [exec, execClose, runCommand, h]

theorem exec_run_compress (s : State) (h : s.st = .idle) : exec .compress s = finish s (compressBody s) := by simp [exec, execCompress, runCommand, h]

theorem exec_run_decompress (s : State) (h : s.st = .idle) : exec .decompress s = finish s (decompressBody s) := by simp [exec, execDecompress, runCommand, h]

theorem exec_run_streamMagic (m) (s : State) (h : s.st = .idle) : exec (.streamMagic m) s = finish s (streamMagicBody m s) := by simp [exec, execStreamMagic, runCommand, h]

theorem exec_run_streamHdrInternal (s : State) (h : s.st = .idle) : exec .streamHdrInternal s = finish s (streamHdrInternalBody s) := by simp [exec, execStreamHdrInternal, runCommand, h]

theorem exec_run_streamHdrLeaf (v) (s : State) (h : s.st = .idle) : exec (.streamHdrLeaf v) s = finish s (streamHdrLeafBody v s) := by simp [exec, execStreamHdrLeaf, runCommand, h]

theorem exec_faulted (i : Instr) (s : State) (h : s.st = .faulted) (hi : i ≠ .clear) : exec i s = .next s := by
  cases i <;> first | exact absurd rfl hi | (simp only [exec, execCount, execBuild, execGencodes, execWrhdr, execRdhdr, execWrmagic, execRdmagic, execRewind, execEncode, execDecode, execClose, execCompress, execDecompress, execStreamMagic, execStreamHdrInternal, execStreamHdrLeaf, runCommand, h])

theorem exec_of_idle_next (i : Instr) (s t : State) (h : exec i s = .next t) (hs : s.st = .faulted) (hi : i ≠ .clear) : t = s := by
  rw [exec_faulted i s hs hi] at h; cases h; rfl

end Sys2Proof.Machine
end

