-- ==== Sys2Proof/Laws/Count.lean ====
section
/-! SUPPORT. The register file FREQ and the counting loop (10_state.md R23, 40_count.md R110). -/

namespace Sys2Proof.Machine

open Sys2Proof

@[simp] theorem freqRead_eof (f : Vector Word 256) : freqRead f Config.pseudoEof = 1 := rfl

theorem freqRead_freqWrite (f : Vector Word 256) (s t : Symbol) (v : Word) :
    freqRead (freqWrite f s v) t = if t = s ∧ s.val < 256 then v else freqRead f t := by
  unfold freqRead freqWrite
  by_cases ht : t.val < 256 <;> by_cases hs : s.val < 256
  · by_cases h : t = s
    · subst h; simp [ht]
    · have : s.val ≠ t.val := fun e => h (Fin.ext e.symm)
      simp [ht, hs, h, this]
  · have : ¬(t = s) := by rintro rfl; exact hs ht
    simp [ht, hs]
  · have : ¬(t = s) := by rintro rfl; exact ht hs
    simp [ht, hs, this]
  · simp [ht, hs]

@[simp] theorem freqRead_freqZero (w : Byte) : freqRead freqZero (byteSymbol w) = 0 := by
  simp [freqRead, byteSymbol_lt, freqZero]

theorem freqZero_get (n : Fin 256) : freqZero[n.val] = 0 := by simp [freqZero]

/-- The counting loop, as long as no count is full. -/
theorem countWords_eq (ws : List Byte) (rest : List Byte) (f : Vector Word 256) (k : Nat)
    (h : ∀ b : Byte, (freqRead f (byteSymbol b)).toNat + ws.count b ≤ 4294967295) :
    ∃ g, countWords f k (ws ++ rest) = countWords g (k + ws.length) rest ∧
      ∀ b : Byte, (freqRead g (byteSymbol b)).toNat = (freqRead f (byteSymbol b)).toNat + ws.count b := by
  induction ws generalizing f k with
  | nil => exact ⟨f, by simp, by simp⟩
  | cons x xs ih =>
    have hx := h x
    rw [List.count_cons_self] at hx
    have hne : freqRead f (byteSymbol x) ≠ Config.countMax := by
      intro e; rw [e] at hx; simp [Config.countMax] at hx
    have hadd : (freqRead f (byteSymbol x) + 1).toNat = (freqRead f (byteSymbol x)).toNat + 1 := by
      rw [BitVec.toNat_add]; simp at hx ⊢; omega
    have hg : ∀ b : Byte, (freqRead (freqWrite f (byteSymbol x) (freqRead f (byteSymbol x) + 1)) (byteSymbol b)).toNat
        = (freqRead f (byteSymbol b)).toNat + if b = x then 1 else 0 := by
      intro b
      rw [freqRead_freqWrite]
      by_cases hb : b = x
      · subst hb; rw [if_pos ⟨rfl, byteSymbol_lt b⟩, hadd, if_pos rfl]
      · rw [if_neg (by simp [byteSymbol_inj, hb]), if_neg hb, Nat.add_zero]
    obtain ⟨g, h1, h2⟩ := ih (freqWrite f (byteSymbol x) (freqRead f (byteSymbol x) + 1)) (k + 1) (by
      intro b; rw [hg]; have := h b
      rw [List.count_cons] at this
      by_cases hb : b = x
      · subst hb; simp at this ⊢; omega
      · have hb' : (x == b) = false := by simpa using Ne.symm hb
        simp [hb, hb'] at this ⊢; omega)
    refine ⟨g, ?_, ?_⟩
    · simp only [List.cons_append, countWords, if_neg hne]
      rw [h1]; congr 1; simp; omega
    · intro b; rw [h2, hg, List.count_cons]
      by_cases hb : b = x
      · subst hb; simp; omega
      · have hb' : (x == b) = false := by simpa using Ne.symm hb
        simp [hb, hb']

theorem countWords_full (ws : List Byte) (w : Byte) (f : Vector Word 256) (k : Nat)
    (h : freqRead f (byteSymbol w) = Config.countMax) :
    countWords f k (w :: ws) = .overflow f (k + 1) := by simp [countWords, h]

theorem countWords_overflow_le (f : Vector Word 256) (k : Nat) (ws : List Byte) (g : Vector Word 256) (n : Nat)
    (h : countWords f k ws = .overflow g n) : n ≤ k + ws.length := by
  induction ws generalizing f k with
  | nil => cases h
  | cons w ws ih =>
    simp only [countWords] at h
    split at h
    · cases h; simp
    · have := ih _ _ h; simp; omega

theorem sum_indicator (n : Nat) (a : Fin n) : ((List.finRange n).map fun i => if a = i then 1 else 0).sum = 1 := by
  have := List.sum_ofFn (f := fun i : Fin n => if a = i then 1 else 0)
  rw [List.ofFn_eq_map] at this
  rw [this]; simp

theorem sum_map_add' {α : Type} (l : List α) (f g : α → Nat) : (l.map fun n => f n + g n).sum = (l.map f).sum + (l.map g).sum := by
  induction l with
  | nil => rfl
  | cons a l ih => simp only [List.map_cons, List.sum_cons, ih]; omega

theorem sum_map_zero {α : Type} (l : List α) : (l.map fun _ => 0).sum = 0 := by
  induction l with
  | nil => rfl
  | cons a l ih => simp

end Sys2Proof.Machine
end

