-- ==== Sys2Proof/Laws/Header.lean ====
section
/-! SUPPORT. Trees and headers (00_scope.md R11, 30_encoding.md R82, 43_header.md). -/

namespace Sys2Proof.Machine

open Sys2Proof

theorem nodes_pos (t : Tree) : 1 ≤ t.nodes := by cases t <;> simp [Tree.nodes]; omega

theorem nodes_eq (t : Tree) : t.nodes + 1 = 2 * t.leaves := by
  induction t with
  | leaf => rfl
  | node w l r ihl ihr => simp [Tree.nodes, Tree.leaves]; omega

theorem depth_lt_leaves (t : Tree) : t.depth < t.leaves := by
  induction t with
  | leaf => simp [Tree.depth, Tree.leaves]
  | node w l r ihl ihr => simp [Tree.depth, Tree.leaves]; omega

theorem leaves_pos (t : Tree) : 1 ≤ t.leaves := by
  induction t with
  | leaf => simp [Tree.leaves]
  | node w l r ihl ihr => simp [Tree.leaves]; omega

theorem emitHeader_eq (t : Tree) (o : OutChan) :
    emitHeader t o = { o with bits := o.bits ++ t.headerBits } := by
  induction t generalizing o with
  | leaf v w =>
    simp [emitHeader, OutChan.writeBits, OutChan.writeCode, Tree.headerBits, fieldOfSymbol]
    rfl
  | node w l r ihl ihr =>
    simp [emitHeader, ihl, ihr, OutChan.writeBits, OutChan.writeCode, Tree.headerBits]
    rfl

theorem length_headerBits (t : Tree) : t.headerBits.length = t.nodes + 9 * t.leaves := by
  induction t with
  | leaf v w => simp [Tree.headerBits, Tree.nodes, Tree.leaves]
  | node w l r ihl ihr => simp [Tree.headerBits, Tree.nodes, Tree.leaves, ihl, ihr]; omega

theorem headerBits_ne_nil (t : Tree) : t.headerBits ≠ [] := by cases t <;> simp [Tree.headerBits]

theorem symbolOfField_fieldOfSymbol (v : Symbol) : symbolOfField (BitVec.ofNat 9 v.val) = some v := by
  have h := v.isLt
  have h2 : (BitVec.ofNat 9 v.val).toNat = v.val := by
    rw [BitVec.toNat_ofNat]; exact Nat.mod_eq_of_lt (by omega)
  unfold symbolOfField
  rw [dif_pos (by rw [h2]; exact h)]
  congr 1
  exact Fin.ext h2

theorem symbolOfField_eq (v : SymField) (sym : Symbol) (h : v.toNat = sym.val) : symbolOfField v = some sym := by
  have := sym.isLt
  simp [symbolOfField, h]

theorem feedLeaf_bad (room : Nat) (os : List (Option Tree)) (v : SymField) (h : 256 < v.toNat) :
    feedLeaf room os v = .malformed := by
  cases room with
  | zero => rfl
  | succ r =>
    have : symbolOfField v = none := by simp [symbolOfField]; omega
    simp [feedLeaf, this]

/-- What the reader does after a whole subtree has been read. -/
def afterSubtree (room : Nat) (t : Tree) (openNodes : List (Option Tree)) (rest : Bits) : HeaderEnd :=
  match deliver room t openNodes with
  | .malformed => .malformed rest
  | .root t => .tree t rest
  | .more _ openNodes' => readHeader room openNodes' rest

theorem afterSubtree_right (room : Nat) (l r : Tree) (openNodes : List (Option Tree)) (rest : Bits) :
    afterSubtree room r (some l :: openNodes) rest = afterSubtree room (.node 0 l r) openNodes rest := by
  simp [afterSubtree, deliver]

theorem afterSubtree_left (room : Nat) (l : Tree) (openNodes : List (Option Tree)) (rest : Bits) :
    afterSubtree room l (none :: openNodes) rest = readHeader room (some l :: openNodes) rest := by
  simp [afterSubtree, deliver]

theorem readHeader_leaf (room : Nat) (openNodes : List (Option Tree)) (v : Symbol) (rest : Bits) :
    readHeader (room + 1) openNodes (true :: (bitsMsb (BitVec.ofNat 9 v.val) ++ rest)) =
      afterSubtree room (.leaf v 0) openNodes rest := by
  have hl : (bitsMsb (BitVec.ofNat 9 v.val)).length = 9 := length_bitsMsb _
  have ht : (bitsMsb (BitVec.ofNat 9 v.val) ++ rest).take 9 = bitsMsb (BitVec.ofNat 9 v.val) := by
    rw [List.take_append_of_le_length (by omega), List.take_of_length_le (by omega)]
  have hd : (bitsMsb (BitVec.ofNat 9 v.val) ++ rest).drop 9 = rest := by
    rw [List.drop_append, hl, List.drop_eq_nil_of_le (by omega)]; rfl
  rw [readHeader, if_neg (by simp [hl]), ht, hd, ofBitsMsb_bitsMsb]
  simp only [feedLeaf, symbolOfField_fieldOfSymbol]
  rfl

/-- The header of a tree, read where a subtree is due, delivers the tree with its weights dropped. -/
theorem readHeader_headerBits (t : Tree) : ∀ (room : Nat) (openNodes : List (Option Tree)) (rest : Bits),
    t.nodes ≤ room →
    readHeader room openNodes (t.headerBits ++ rest) =
      afterSubtree (room - t.nodes) t.zeroWeights openNodes rest := by
  induction t with
  | leaf v w =>
    intro room openNodes rest h
    obtain ⟨room, rfl⟩ : ∃ k, room = k + 1 := ⟨room - 1, by simp [Tree.nodes] at h; omega⟩
    simpa [Tree.headerBits, Tree.zeroWeights, Tree.nodes] using readHeader_leaf room openNodes v rest
  | node w l r ihl ihr =>
    intro room openNodes rest h
    simp only [Tree.nodes] at h
    obtain ⟨room, rfl⟩ : ∃ k, room = k + 1 := ⟨room - 1, by omega⟩
    simp only [Tree.headerBits, List.cons_append, List.append_assoc, readHeader]
    rw [ihl _ _ _ (by omega), afterSubtree_left, ihr _ _ _ (by omega), afterSubtree_right]
    simp only [Tree.zeroWeights, Tree.nodes]
    congr 1; omega

/-- A header cut short anywhere is truncated. -/
theorem readHeader_truncated (t : Tree) : ∀ (room : Nat) (openNodes : List (Option Tree)) (bits : Bits),
    t.nodes ≤ room → bits <+: t.headerBits → bits ≠ t.headerBits →
    readHeader room openNodes bits = .truncated := by
  induction t with
  | leaf v w =>
    intro room openNodes bits h hp hn
    obtain ⟨room, rfl⟩ : ∃ k, room = k + 1 := ⟨room - 1, by simp [Tree.nodes] at h; omega⟩
    simp only [Tree.headerBits] at hp hn
    cases bits with
    | nil => simp [readHeader]
    | cons b bs =>
      rw [List.cons_prefix_cons] at hp
      obtain ⟨rfl, hp⟩ := hp
      rw [readHeader, if_pos]
      have h1 := hp.length_le
      have h2 : bs.length ≠ 9 := fun h => hn (by rw [hp.eq_of_length (by simp [h])])
      simp at h1; omega
  | node w l r ihl ihr =>
    intro room openNodes bits h hp hn
    simp only [Tree.nodes] at h
    obtain ⟨room, rfl⟩ : ∃ k, room = k + 1 := ⟨room - 1, by omega⟩
    simp only [Tree.headerBits] at hp hn
    cases bits with
    | nil => simp [readHeader]
    | cons b bs =>
      rw [List.cons_prefix_cons] at hp
      obtain ⟨rfl, hp⟩ := hp
      simp only [readHeader]
      by_cases hb : bs.length < l.headerBits.length
      · refine ihl _ _ _ (by omega) (List.prefix_of_prefix_length_le hp (List.prefix_append _ _) (by omega)) ?_
        intro h; rw [h] at hb; omega
      · obtain ⟨bs', rfl⟩ : l.headerBits <+: bs :=
          List.prefix_of_prefix_length_le (List.prefix_append _ _) hp (by omega)
        rw [readHeader_headerBits l _ _ _ (by omega), afterSubtree_left]
        refine ihr _ _ _ (by omega) ?_ ?_
        · exact (List.prefix_append_right_inj _).mp hp
        · intro h; exact hn (by rw [h])

/-- A header of more nodes than there is room for is malformed. -/
theorem readHeader_tooBig (t : Tree) : ∀ (room : Nat) (openNodes : List (Option Tree)) (rest : Bits),
    room < t.nodes → ∃ rest', readHeader room openNodes (t.headerBits ++ rest) = .malformed rest' ∧
      rest'.length ≤ (t.headerBits ++ rest).length - room := by
  induction t with
  | leaf v w =>
    intro room openNodes rest h
    simp [Tree.nodes] at h; subst h
    exact ⟨_, rfl, by simp⟩
  | node w l r ihl ihr =>
    intro room openNodes rest h
    rcases room with _ | room
    · exact ⟨_, rfl, by simp⟩
    · simp only [Tree.headerBits, List.cons_append, List.append_assoc, readHeader]
      by_cases hl : room < l.nodes
      · obtain ⟨r', h1, h2⟩ := ihl room (none :: openNodes) (r.headerBits ++ rest) hl
        exact ⟨r', h1, by simp at h2 ⊢; omega⟩
      · rw [readHeader_headerBits l _ _ _ (by omega), afterSubtree_left]
        obtain ⟨r', h1, h2⟩ := ihr (room - l.nodes) (some l.zeroWeights :: openNodes) rest (by simp [Tree.nodes] at h; omega)
        refine ⟨r', h1, ?_⟩
        have := length_headerBits l
        have := nodes_eq l
        have := nodes_pos l
        simp at h2 ⊢; omega

theorem readHeader_zeros (n room : Nat) (os : List (Option Tree)) (rest : Bits) :
    readHeader (n + room) os (List.replicate n false ++ rest) = readHeader room (List.replicate n none ++ os) rest := by
  induction n generalizing os with
  | zero => simp
  | succ n ih =>
    rw [List.replicate_succ, List.cons_append, show n + 1 + room = (n + room) + 1 by omega, readHeader, ih]
    congr 1
    rw [List.replicate_succ', List.append_assoc]; rfl

theorem deliver_more (room r : Nat) (t : Tree) (os os' : List (Option Tree)) (h : deliver room t os = .more r os') : r = room := by
  induction os generalizing t with
  | nil => simp [deliver] at h
  | cons x xs ih =>
    cases x with
    | none => simp [deliver] at h; exact h.1.symm
    | some l => exact ih _ (by simpa [deliver] using h)

/-- The nodes that stand in the open nodes of a header. -/
def openCount : List (Option Tree) → Nat
  | [] => 0
  | none :: rest => 1 + openCount rest
  | some l :: rest => 1 + l.nodes + openCount rest

theorem deliver_root_nodes (room : Nat) (t u : Tree) (os : List (Option Tree)) (h : deliver room t os = .root u) :
    u.nodes = t.nodes + openCount os := by
  induction os generalizing t with
  | nil => simp [deliver] at h; subst h; simp [openCount]
  | cons x xs ih =>
    cases x with
    | none => simp [deliver] at h
    | some l =>
      have := ih _ (by simpa [deliver] using h)
      simp [this, Tree.nodes, openCount]; omega

theorem deliver_more_count (room r : Nat) (t : Tree) (os os' : List (Option Tree)) (h : deliver room t os = .more r os') :
    openCount os' = t.nodes + openCount os := by
  induction os generalizing t with
  | nil => simp [deliver] at h
  | cons x xs ih =>
    cases x with
    | none => simp [deliver] at h; rw [← h.2]; simp [openCount]; omega
    | some l =>
      have := ih _ (by simpa [deliver] using h)
      simp [this, Tree.nodes, openCount]; omega

theorem readHeader_nodes (room : Nat) (os : List (Option Tree)) (bits : Bits) (t : Tree) (rest : Bits)
    (h : readHeader room os bits = .tree t rest) : t.nodes ≤ room + openCount os := by
  induction room, os, bits using readHeader.induct with
  | case1 => simp [readHeader] at h
  | case2 => simp [readHeader] at h
  | case3 room os bits ih =>
    have := ih (by simpa [readHeader] using h)
    simp [openCount] at this; omega
  | case4 room os bits hl => simp [readHeader, hl] at h
  | case5 room os bits hl hf => rw [readHeader, if_neg hl, hf] at h; cases h
  | case6 room os bits hl u hf =>
    rw [readHeader, if_neg hl, hf] at h
    injection h with h1 h2; subst h1
    unfold feedLeaf at hf
    simp only at hf
    split at hf
    · cases hf
    · have := deliver_root_nodes _ _ _ _ hf
      simp [Tree.nodes] at this; omega
  | case7 room os bits hl r os' hf ih =>
    rw [readHeader, if_neg hl, hf] at h
    have := ih h
    unfold feedLeaf at hf
    simp only at hf
    split at hf
    · cases hf
    · have := deliver_more_count _ _ _ _ _ hf
      simp [Tree.nodes] at this; omega

/-! ### Tokens one after another -/

/-- How many open nodes still wait for their left child. -/
def leftsDue (os : List (Option Tree)) : Nat := os.countP (·.isNone)

theorem deliver_due (room : Nat) (os : List (Option Tree)) : ∀ t : Tree, 0 < leftsDue os →
    ∃ os', deliver room t os = .more room os' ∧ leftsDue os' + 1 = leftsDue os := by
  induction os with
  | nil => intro t h; simp [leftsDue] at h
  | cons x xs ih =>
    intro t h
    cases x with
    | none => exact ⟨_, rfl, by simp [leftsDue]⟩
    | some l =>
      obtain ⟨os', h1, h2⟩ := ih (.node 0 l t) (by simpa [leftsDue] using h)
      exact ⟨os', h1, by simpa [leftsDue] using h2⟩

/-- Tokens that leave a subtree due take one node each and leave the reader inside the header. -/
theorem readHeader_tokens (toks : List (Option Symbol)) : ∀ (room : Nat) (os : List (Option Tree)) (tail : Bits),
    0 < subtreesDue (leftsDue os + 1) toks →
    ∃ os', readHeader (toks.length + room) os (toks.flatMap tokenBits ++ tail) = readHeader room os' tail := by
  induction toks with
  | nil => intro room os tail _; exact ⟨os, by simp⟩
  | cons x xs ih =>
    intro room os tail h
    cases x with
    | none =>
      obtain ⟨os', h'⟩ := ih room (none :: os) tail (by simpa [subtreesDue, leftsDue] using h)
      refine ⟨os', ?_⟩
      rw [← h', List.length_cons, show xs.length + 1 + room = (xs.length + room) + 1 by omega]
      rfl
    | some v =>
      simp only [subtreesDue] at h
      obtain ⟨os1, h1, h2⟩ := deliver_due (xs.length + room) os (.leaf v 0) (by
        by_contra hc
        rw [show leftsDue os = 0 by omega] at h; simp [subtreesDue] at h)
      obtain ⟨os', h'⟩ := ih room os1 tail (by rw [h2]; exact h)
      refine ⟨os', ?_⟩
      rw [← h', List.length_cons, show xs.length + 1 + room = (xs.length + room) + 1 by omega]
      simp only [List.flatMap_cons, tokenBits, List.cons_append, List.append_assoc]
      rw [readHeader_leaf, afterSubtree, h1]

/-- What the reader leaves unread is no more than it was given. -/
theorem readHeader_rest_le (room : Nat) (os : List (Option Tree)) (bits : Bits) :
    match readHeader room os bits with
    | .tree _ rest | .malformed rest => rest.length ≤ bits.length
    | .truncated => True := by
  induction room, os, bits using readHeader.induct with
  | case1 => simp [readHeader]
  | case2 => simp [readHeader]
  | case3 room os bits ih =>
    simp only [readHeader]
    cases h : readHeader room (none :: os) bits <;> rw [h] at ih <;> simp at ih ⊢ <;> omega
  | case4 room os bits hl => simp [readHeader, hl]
  | case5 room os bits hl hf => rw [readHeader, if_neg hl, hf]; simp; omega
  | case6 room os bits hl u hf => rw [readHeader, if_neg hl, hf]; simp; omega
  | case7 room os bits hl r os' hf ih =>
    rw [readHeader, if_neg hl, hf]
    simp only
    cases h : readHeader room os' (bits.drop 9) <;> rw [h] at ih <;> simp at ih ⊢ <;> omega

theorem deliver_lefts (room : Nat) (lefts : List Tree) : ∀ (t : Tree) (os : List (Option Tree)),
    deliver room t (lefts.map some ++ os) = deliver room (lefts.foldl (fun r l => .node 0 l r) t) os := by
  induction lefts with
  | nil => intro t os; rfl
  | cons l ls ih => intro t os; exact ih _ _

end Sys2Proof.Machine
end

