-- ==== Sys2Proof/Laws/Queue.lean ====
section
/-! SUPPORT. The priority queue and BUILD (10_state.md R32, 41_treebuild.md). -/

namespace Sys2Proof.Machine

open Sys2Proof

theorem pqInsert_perm (e : Entry) (l : List Entry) : (pqInsert e l).Perm (e :: l) := by
  induction l with
  | nil => exact .refl _
  | cons x xs ih =>
    simp only [pqInsert]
    split
    · exact .refl _
    · exact (ih.cons x).trans (.swap _ _ _)

@[simp] theorem length_pqInsert (e : Entry) (l : List Entry) : (pqInsert e l).length = l.length + 1 := by
  simpa using (pqInsert_perm e l).length_eq

theorem mem_pqInsert (e x : Entry) (l : List Entry) : x ∈ pqInsert e l ↔ x = e ∨ x ∈ l := by
  simpa using (pqInsert_perm e l).mem_iff

theorem before_iff (a b : Entry) : a.before b = true ↔
    a.w.toNat < b.w.toNat ∨ (a.w.toNat = b.w.toNat ∧ a.q.toNat < b.q.toNat) := by
  simp [Entry.before, BitVec.lt_def, BitVec.toNat_eq]

theorem before_trans {a b c : Entry} (h1 : a.before b = true) (h2 : b.before c = true) : a.before c = true := by
  rw [before_iff] at *; omega

theorem before_total {a b : Entry} (h : a.q ≠ b.q) : a.before b = true ∨ b.before a = true := by
  have : a.q.toNat ≠ b.q.toNat := fun e => h (BitVec.eq_of_toNat_eq e)
  rw [before_iff, before_iff]; omega

/-- Inserting an entry with a new sequence number keeps the queue sorted by the order of R32. -/
theorem pqInsert_sorted (e : Entry) (l : List Entry) (hl : l.Pairwise fun a b => a.before b = true)
    (he : ∀ x ∈ l, x.q ≠ e.q) : (pqInsert e l).Pairwise fun a b => a.before b = true := by
  induction l with
  | nil => simp [pqInsert]
  | cons x xs ih =>
    rw [List.pairwise_cons] at hl
    simp only [pqInsert]
    split
    · next h =>
      refine List.pairwise_cons.mpr ⟨?_, List.pairwise_cons.mpr hl⟩
      intro y hy
      rcases List.mem_cons.mp hy with rfl | hy
      · exact h
      · exact before_trans h (hl.1 y hy)
    · next h =>
      refine List.pairwise_cons.mpr ⟨?_, ih hl.2 fun y hy => he y (List.mem_cons_of_mem _ hy)⟩
      intro y hy
      rcases (mem_pqInsert _ _ _).mp hy with rfl | hy
      · exact (before_total (he x List.mem_cons_self)).resolve_right h
      · exact hl.1 y hy

/-- What BUILD keeps of its queue: the entries carry their trees' weights, the trees are merged trees, the
queue is sorted by weight, and no sum of its weights overflows. -/
structure QueueOk (pq : List Entry) : Prop where
  weights : ∀ e ∈ pq, e.w = e.t.weight
  merged : ∀ e ∈ pq, e.t.merged
  sorted : pq.Pairwise fun a b => a.w.toNat ≤ b.w.toNat
  fits : (pq.map fun e => e.w.toNat).sum < 2 ^ 41

theorem pqInsert_sortedByWeight (e : Entry) (l : List Entry)
    (hl : l.Pairwise fun a b => a.w.toNat ≤ b.w.toNat) :
    (pqInsert e l).Pairwise fun a b => a.w.toNat ≤ b.w.toNat := by
  induction l with
  | nil => simp [pqInsert]
  | cons x xs ih =>
    rw [List.pairwise_cons] at hl
    simp only [pqInsert]
    split
    · next h =>
      have h' := (before_iff e x).mp h
      refine List.pairwise_cons.mpr ⟨?_, List.pairwise_cons.mpr hl⟩
      intro y hy
      rcases List.mem_cons.mp hy with rfl | hy
      · omega
      · have := hl.1 y hy; omega
    · next h =>
      have h' : ¬ _ := fun hh => h ((before_iff e x).mpr hh)
      refine List.pairwise_cons.mpr ⟨?_, ih hl.2⟩
      intro y hy
      rcases (mem_pqInsert _ _ _).mp hy with rfl | hy
      · omega
      · exact hl.1 y hy

theorem QueueOk.insert {e : Entry} {pq : List Entry} (h : QueueOk pq) (hw : e.w = e.t.weight) (hm : e.t.merged)
    (hf : e.w.toNat + (pq.map fun e => e.w.toNat).sum < 2 ^ 41) : QueueOk (pqInsert e pq) where
  weights := by
    intro x hx
    rcases (mem_pqInsert _ _ _).mp hx with rfl | hx
    · exact hw
    · exact h.weights x hx
  merged := by
    intro x hx
    rcases (mem_pqInsert _ _ _).mp hx with rfl | hx
    · exact hm
    · exact h.merged x hx
  sorted := pqInsert_sortedByWeight e pq h.sorted
  fits := by
    rw [((pqInsert_perm e pq).map _).sum_eq]; simpa using hf

theorem toNat_merged {k : Nat} {a b : Entry} {rest : List Entry} (h : QueueOk (a :: b :: rest)) :
    (mergedEntry k a b).w.toNat = a.w.toNat + b.w.toNat := by
  have := h.fits
  simp at this
  simp [mergedEntry, BitVec.toNat_add]; omega

/-- One merge keeps all of it. -/
theorem QueueOk.merge {k : Nat} {a b : Entry} {rest : List Entry} (h : QueueOk (a :: b :: rest)) :
    QueueOk (pqInsert (mergedEntry k a b) rest) := by
  have hw := toNat_merged (k := k) h
  have hf := h.fits
  simp only [List.map_cons, List.sum_cons] at hf
  have hs := h.sorted
  rw [List.pairwise_cons, List.pairwise_cons] at hs
  refine QueueOk.insert ⟨?_, ?_, hs.2.2, ?_⟩ rfl ?_ ?_
  · intro x hx; exact h.weights x (by simp [hx])
  · intro x hx; exact h.merged x (by simp [hx])
  · omega
  · have ha := h.weights a (by simp)
    have hb := h.weights b (by simp)
    refine ⟨?_, ?_, h.merged a (by simp), h.merged b (by simp)⟩
    · rw [← ha, ← hb]; exact hw
    · rw [← ha, ← hb]; exact hs.1 b (by simp)
  · omega

/-- The leaves of a queue's trees. -/
def queueLeaves (pq : List Entry) : List (Symbol × Weight) := pq.flatMap fun e => e.t.leafList

theorem queueLeaves_insert (e : Entry) (pq : List Entry) :
    (queueLeaves (pqInsert e pq)).Perm (e.t.leafList ++ queueLeaves pq) := by
  have := (pqInsert_perm e pq).flatMap_right (fun e => e.t.leafList)
  simpa [queueLeaves] using this

theorem queueLeaves_merge (k : Nat) (a b : Entry) (rest : List Entry) :
    (queueLeaves (pqInsert (mergedEntry k a b) rest)).Perm (queueLeaves (a :: b :: rest)) := by
  refine (queueLeaves_insert _ _).trans ?_
  simp [queueLeaves, mergedEntry, Tree.leafList]

/-- The merge loop ends with one entry, whose tree has the queue's leaves and its whole weight. -/
theorem mergeAll_spec (n k : Nat) (pq : List Entry) (h : QueueOk pq) (hn : pq.length ≤ n + 1) (h0 : pq ≠ []) :
    ∃ e, mergeAll n k pq = [e] ∧ e.t.merged ∧ e.t.leafList.Perm (queueLeaves pq) ∧
      e.t.weight.toNat = (pq.map fun e => e.w.toNat).sum := by
  induction n generalizing k pq with
  | zero =>
    rcases pq with _ | ⟨a, _ | ⟨b, rest⟩⟩
    · exact absurd rfl h0
    · refine ⟨a, by simp [mergeAll], h.merged a (by simp), by simp [queueLeaves], ?_⟩
      rw [← h.weights a (by simp)]; simp
    · simp at hn
  | succ n ih =>
    rcases pq with _ | ⟨a, _ | ⟨b, rest⟩⟩
    · exact absurd rfl h0
    · refine ⟨a, by simp [mergeAll], h.merged a (by simp), by simp [queueLeaves], ?_⟩
      rw [← h.weights a (by simp)]; simp
    · obtain ⟨e, h1, h2, h3, h4⟩ := ih (k + 1) (pqInsert (mergedEntry k a b) rest) h.merge
        (by simp at hn ⊢; omega) (by intro e; simpa using congrArg List.length e)
      refine ⟨e, by simpa [mergeAll] using h1, h2, h3.trans (queueLeaves_merge k a b rest), ?_⟩
      rw [h4, ((pqInsert_perm _ _).map _).sum_eq]
      simp only [List.map_cons, List.sum_cons, toNat_merged (k := k) h]; omega

theorem toNat_leafEntry (f : Vector Word 256) (s : Symbol) : (leafEntry f s).w.toNat = (freqRead f s).toNat := by
  simp [leafEntry]; omega

/-- The seeding loop. -/
theorem foldl_insert_spec (f : Vector Word 256) (l : List Symbol) (pq : List Entry) (h : QueueOk pq)
    (hf : (pq.map fun e => e.w.toNat).sum + (l.map fun s => (freqRead f s).toNat).sum < 2 ^ 41) :
    let r := l.foldl (fun pq s => pqInsert (leafEntry f s) pq) pq
    QueueOk r ∧ r.length = pq.length + l.length ∧
    (queueLeaves r).Perm (l.map (fun s => (s, (freqRead f s).setWidth 41)) ++ queueLeaves pq) ∧
    (r.map fun e => e.w.toNat).sum =
      (pq.map fun e => e.w.toNat).sum + (l.map fun s => (freqRead f s).toNat).sum := by
  induction l generalizing pq with
  | nil => simp [h]
  | cons s l ih =>
    simp only [List.map_cons, List.sum_cons] at hf
    have hi : QueueOk (pqInsert (leafEntry f s) pq) :=
      h.insert rfl trivial (by rw [toNat_leafEntry]; omega)
    have hs : ((pqInsert (leafEntry f s) pq).map fun e => e.w.toNat).sum
        = (freqRead f s).toNat + (pq.map fun e => e.w.toNat).sum := by
      rw [((pqInsert_perm _ _).map _).sum_eq]; simp [toNat_leafEntry]
    obtain ⟨h1, h2, h3, h4⟩ := ih (pqInsert (leafEntry f s) pq) hi (by rw [hs]; omega)
    refine ⟨h1, ?_, ?_, ?_⟩
    · simp only [List.foldl_cons, h2, length_pqInsert, List.length_cons]; omega
    · simp only [List.foldl_cons, List.map_cons, List.cons_append]
      refine h3.trans ?_
      refine ((queueLeaves_insert _ _).append_left _).trans ?_
      simp only [leafEntry, Tree.leafList, List.singleton_append]
      exact List.perm_middle
    · simp only [List.foldl_cons, h4, hs, List.map_cons, List.sum_cons]; omega

theorem sum_counts_lt (f : Vector Word 256) (l : List Symbol) (hl : l.length ≤ 257) :
    (l.map fun s => (freqRead f s).toNat).sum < 2 ^ 41 := by
  have : (l.map fun s => (freqRead f s).toNat).sum ≤ l.length * 4294967295 := by
    clear hl
    induction l with
    | nil => simp
    | cons s l ih =>
      have := (freqRead f s).isLt
      simp only [List.map_cons, List.sum_cons, List.length_cons]; omega
  omega

theorem length_seeded_le (f : Vector Word 256) : (seeded f).length ≤ 257 := by
  have := List.length_filter_le (fun s => freqRead f s != 0) allSymbols
  simpa [seeded, allSymbols] using this

theorem mem_allSymbols (s : Symbol) : s ∈ allSymbols := List.mem_finRange s

theorem pseudoEof_seeded (f : Vector Word 256) : Config.pseudoEof ∈ seeded f :=
  List.mem_filter.mpr ⟨mem_allSymbols _, by simp⟩

theorem seedQueue_spec (f : Vector Word 256) :
    QueueOk (seedQueue f) ∧ (seedQueue f).length = (seeded f).length ∧
    (queueLeaves (seedQueue f)).Perm ((seeded f).map fun s => (s, (freqRead f s).setWidth 41)) ∧
    ((seedQueue f).map fun e => e.w.toNat).sum = ((seeded f).map fun s => (freqRead f s).toNat).sum := by
  have h := foldl_insert_spec f (seeded f) [] ⟨by simp, by simp, by simp, by simp⟩
    (by simpa using sum_counts_lt f _ (length_seeded_le f))
  simpa [seedQueue, queueLeaves] using h

theorem seedQueue_ne_nil (f : Vector Word 256) : seedQueue f ≠ [] := by
  intro h
  have h1 := (seedQueue_spec f).2.1
  rw [h] at h1
  exact absurd (pseudoEof_seeded f) (by rw [List.length_eq_zero_iff.mp h1.symm]; simp)

theorem seedQueue_perm (f : Vector Word 256) : (seedQueue f).Perm ((seeded f).map (leafEntry f)) := by
  have : ∀ (l : List Symbol) (pq : List Entry),
      (l.foldl (fun pq s => pqInsert (leafEntry f s) pq) pq).Perm (l.map (leafEntry f) ++ pq) := by
    intro l
    induction l with
    | nil => intro pq; exact .refl _
    | cons s l ih =>
      intro pq
      refine (ih _).trans ?_
      refine ((pqInsert_perm _ _).append_left _).trans ?_
      exact List.perm_middle
  simpa [seedQueue] using this (seeded f) []

/-- BUILD, in one equation: it makes a tree of FREQ alone and writes nothing else. -/
theorem buildBody_spec (s : State) : ∃ t, buildBody s = .done { s with codesValid := false, tree := some t, pq := [] } ∧
    (∃ e, mergeAll (seedQueue s.freq).length 0 (seedQueue s.freq) = [e] ∧ e.t = t) ∧
    t.merged ∧ t.leafList.Perm ((seeded s.freq).map fun v => (v, (freqRead s.freq v).setWidth 41)) ∧
    t.weight.toNat = ((seeded s.freq).map fun v => (freqRead s.freq v).toNat).sum := by
  obtain ⟨h1, h2, h3, h4⟩ := seedQueue_spec s.freq
  obtain ⟨e, he, hm, hl, hw⟩ := mergeAll_spec (seedQueue s.freq).length 0 (seedQueue s.freq) h1 (by omega) (seedQueue_ne_nil _)
  refine ⟨e.t, ?_, ⟨e, he, rfl⟩, hm, hl.trans h3, by rw [hw, h4]⟩
  simp [buildBody, takeRoot, he]

theorem leaves_eq_length (t : Tree) : t.leaves = t.leafList.length := by
  induction t with
  | leaf => rfl
  | node w l r ihl ihr => simp [Tree.leaves, Tree.leafList, ihl, ihr]

theorem sum_positive (f : Vector Word 256) (l : List Symbol) :
    ((l.filter fun v => freqRead f v != 0).map fun v => (freqRead f v).toNat).sum =
      (l.map fun v => (freqRead f v).toNat).sum := by
  induction l with
  | nil => rfl
  | cons x xs ih =>
    by_cases h : freqRead f x = 0
    · rw [List.filter_cons_of_neg (by simp [h]), ih, List.map_cons, List.sum_cons, h]
      simp
    · rw [List.filter_cons_of_pos (by simpa using h), List.map_cons, List.sum_cons, List.map_cons, List.sum_cons, ih]

/-! ### The merging of R122 -/

theorem MergesTo.perm {k : Nat} {l l' : List Entry} {t : Tree} (h : MergesTo k l t) (hp : l.Perm l') : MergesTo k l' t := by
  match h with
  | .root k e => rw [List.perm_singleton.mp hp.symm]; exact .root k e
  | .merge k _ a b rest t h1 h2 h3 h4 => exact .merge k l' a b rest t (hp.symm.trans h1) h2 h3 h4

theorem seedQueue_sorted (f : Vector Word 256) : (seedQueue f).Pairwise fun a b => a.before b = true := by
  have : ∀ (l : List Symbol) (pq : List Entry), l.Nodup → (pq.Pairwise fun a b => a.before b = true) →
      (∀ x ∈ pq, ∀ v ∈ l, x.q ≠ (leafEntry f v).q) →
      (l.foldl (fun pq s => pqInsert (leafEntry f s) pq) pq).Pairwise fun a b => a.before b = true := by
    intro l
    induction l with
    | nil => intro pq _ h _; exact h
    | cons v l ih =>
      intro pq hn hs hq
      rw [List.nodup_cons] at hn
      refine ih _ hn.2 (pqInsert_sorted _ _ hs fun x hx => hq x hx v (by simp)) ?_
      intro x hx u hu
      rcases (mem_pqInsert _ _ _).mp hx with rfl | hx
      · intro e
        have := congrArg BitVec.toNat e
        have h1 := v.isLt
        have h2 := u.isLt
        simp [leafEntry, Nat.mod_eq_of_lt (show v.val < 1024 by omega), Nat.mod_eq_of_lt (show u.val < 1024 by omega)] at this
        exact hn.1 (by rw [Fin.ext this]; exact hu)
      · exact hq x hx u (by simp [hu])
  exact this _ [] ((List.nodup_finRange 257).filter _) .nil (by simp)
theorem mergeAll_mergesTo (n : Nat) : ∀ (k : Nat) (pq : List Entry), (pq.Pairwise fun a b => a.before b = true) →
    (∀ x ∈ pq, x.q.toNat < 257 + k) → k + pq.length ≤ 767 → pq.length ≤ n + 1 → pq ≠ [] →
    ∃ e, mergeAll n k pq = [e] ∧ MergesTo k pq e.t := by
  induction n with
  | zero =>
    intro k pq hs hq hk hn h0
    rcases pq with _ | ⟨a, _ | ⟨b, rest⟩⟩
    · exact absurd rfl h0
    · exact ⟨a, by simp [mergeAll], .root k a⟩
    · simp at hn
  | succ n ih =>
    intro k pq hs hq hk hn h0
    rcases pq with _ | ⟨a, _ | ⟨b, rest⟩⟩
    · exact absurd rfl h0
    · exact ⟨a, by simp [mergeAll], .root k a⟩
    · rw [List.pairwise_cons, List.pairwise_cons] at hs
      have hqk : (mergedEntry k a b).q.toNat = 257 + k := by
        simp [mergedEntry] at hk ⊢; omega
      obtain ⟨e, h1, h2⟩ := ih (k + 1) (pqInsert (mergedEntry k a b) rest)
        (pqInsert_sorted _ _ hs.2.2 fun x hx hxq => by
          have := hq x (by simp [hx]); rw [hxq, hqk] at this; omega)
        (fun x hx => by
          rcases (mem_pqInsert _ _ _).mp hx with rfl | hx
          · omega
          · have := hq x (by simp [hx]); omega)
        (by simp at hk ⊢; omega) (by simp at hn ⊢; omega) (by intro e; simpa using congrArg List.length e)
      refine ⟨e, by simpa [mergeAll] using h1, ?_⟩
      refine .merge k _ a b rest e.t (.refl _) (fun x hx => (before_iff a x).mp (hs.1 x hx))
        (fun x hx => (before_iff b x).mp (hs.2.1 x hx)) ?_
      exact h2.perm (pqInsert_perm _ _)

/-- BUILD's tree is the one of R122's merging. -/
theorem seedQueue_mergesTo (f : Vector Word 256) (e : Entry) (h : mergeAll (seedQueue f).length 0 (seedQueue f) = [e]) :
    MergesTo 0 ((seeded f).map (leafEntry f)) e.t := by
  have hl := (seedQueue_spec f).2.1
  obtain ⟨e', h1, h2⟩ := mergeAll_mergesTo (seedQueue f).length 0 (seedQueue f) (seedQueue_sorted f) (fun x hx => by
      obtain ⟨v, _, rfl⟩ := List.mem_map.mp ((seedQueue_perm f).mem_iff.mp hx)
      have := v.isLt
      simp [leafEntry]; omega) (by have := length_seeded_le f; omega) (by omega) (seedQueue_ne_nil f)
  rw [h] at h1
  obtain rfl : e = e' := by simpa using h1
  exact h2.perm (seedQueue_perm f)

end Sys2Proof.Machine
end

