-- ==== Sys2Proof/Laws/State.lean ====
section
/-! SUPPORT. One lemma per field per named update of the state, true by `rfl`. -/

namespace Sys2Proof.Machine

open Sys2Proof

/-! ### `resetEngine` -/

@[simp] theorem resetEngine_st (s : State) : (resetEngine s).st = .idle := rfl
@[simp] theorem resetEngine_err (s : State) : (resetEngine s).err = 0 := rfl
@[simp] theorem resetEngine_freq (s : State) : (resetEngine s).freq = freqZero := rfl
@[simp] theorem resetEngine_tree (s : State) : (resetEngine s).tree = none := rfl
@[simp] theorem resetEngine_codesValid (s : State) : (resetEngine s).codesValid = false := rfl
@[simp] theorem resetEngine_code (s : State) : (resetEngine s).code = codeNone := rfl
@[simp] theorem resetEngine_pq (s : State) : (resetEngine s).pq = [] := rfl
@[simp] theorem resetEngine_cur (s : State) : (resetEngine s).cur = none := rfl
@[simp] theorem resetEngine_inp (s : State) : (resetEngine s).inp = s.inp := rfl
@[simp] theorem resetEngine_out (s : State) : (resetEngine s).out = s.out := rfl
@[simp] theorem resetEngine_rd (s : State) : (resetEngine s).rd = .off := rfl
@[simp] theorem resetEngine_magic (s : State) : (resetEngine s).magic = s.magic := rfl
@[simp] theorem resetEngine_moves (s : State) : (resetEngine s).moves = s.moves := rfl
@[simp] theorem resetEngine_reply (s : State) : (resetEngine s).reply = s.reply := rfl
@[simp] theorem resetEngine_freeCtr (s : State) : (resetEngine s).freeCtr = s.freeCtr := rfl

/-! ### `discard` -/

@[simp] theorem discard_st (s : State) : (Machine.discard s).st = s.st := rfl
@[simp] theorem discard_err (s : State) : (Machine.discard s).err = s.err := rfl
@[simp] theorem discard_freq (s : State) : (Machine.discard s).freq = freqZero := rfl
@[simp] theorem discard_tree (s : State) : (Machine.discard s).tree = none := rfl
@[simp] theorem discard_codesValid (s : State) : (Machine.discard s).codesValid = false := rfl
@[simp] theorem discard_code (s : State) : (Machine.discard s).code = codeNone := rfl
@[simp] theorem discard_pq (s : State) : (Machine.discard s).pq = s.pq := rfl
@[simp] theorem discard_cur (s : State) : (Machine.discard s).cur = s.cur := rfl
@[simp] theorem discard_inp (s : State) : (Machine.discard s).inp = s.inp := rfl
@[simp] theorem discard_out (s : State) : (Machine.discard s).out = s.out := rfl
@[simp] theorem discard_rd (s : State) : (Machine.discard s).rd = s.rd := rfl
@[simp] theorem discard_magic (s : State) : (Machine.discard s).magic = s.magic := rfl
@[simp] theorem discard_moves (s : State) : (Machine.discard s).moves = s.moves := rfl
@[simp] theorem discard_reply (s : State) : (Machine.discard s).reply = s.reply := rfl
@[simp] theorem discard_freeCtr (s : State) : (Machine.discard s).freeCtr = s.freeCtr := rfl

/-! ### `takeFault` -/

@[simp] theorem takeFault_st (s0 : State) (e : Cause) (s : State) : (takeFault s0 e s).st = .faulted := rfl
@[simp] theorem takeFault_err (s0 : State) (e : Cause) (s : State) : (takeFault s0 e s).err = e.code := rfl
@[simp] theorem takeFault_freq (s0 : State) (e : Cause) (s : State) : (takeFault s0 e s).freq = s.freq := rfl
@[simp] theorem takeFault_tree (s0 : State) (e : Cause) (s : State) : (takeFault s0 e s).tree = s.tree := rfl
@[simp] theorem takeFault_codesValid (s0 : State) (e : Cause) (s : State) : (takeFault s0 e s).codesValid = s.codesValid := rfl
@[simp] theorem takeFault_code (s0 : State) (e : Cause) (s : State) : (takeFault s0 e s).code = s.code := rfl
@[simp] theorem takeFault_pq (s0 : State) (e : Cause) (s : State) : (takeFault s0 e s).pq = [] := rfl
@[simp] theorem takeFault_cur (s0 : State) (e : Cause) (s : State) : (takeFault s0 e s).cur = none := rfl
@[simp] theorem takeFault_inp (s0 : State) (e : Cause) (s : State) : (takeFault s0 e s).inp = s.inp := rfl
@[simp] theorem takeFault_out (s0 : State) (e : Cause) (s : State) : (takeFault s0 e s).out = (outAfterFault e s0.out s.out s.freeCtr).1 := rfl
@[simp] theorem takeFault_rd (s0 : State) (e : Cause) (s : State) : (takeFault s0 e s).rd = .off := rfl
@[simp] theorem takeFault_magic (s0 : State) (e : Cause) (s : State) : (takeFault s0 e s).magic = s.magic := rfl
@[simp] theorem takeFault_moves (s0 : State) (e : Cause) (s : State) : (takeFault s0 e s).moves = s.moves := rfl
@[simp] theorem takeFault_reply (s0 : State) (e : Cause) (s : State) : (takeFault s0 e s).reply = s.reply := rfl
@[simp] theorem takeFault_freeCtr (s0 : State) (e : Cause) (s : State) : (takeFault s0 e s).freeCtr = (outAfterFault e s0.out s.out s.freeCtr).2 := rfl

/-! ### The states a command starts from (log 6) -/

@[simp] theorem startHeader_st (s : State) : (startHeader s).st = s.st := rfl
@[simp] theorem startHeader_err (s : State) : (startHeader s).err = s.err := rfl
@[simp] theorem startHeader_freq (s : State) : (startHeader s).freq = s.freq := rfl
@[simp] theorem startHeader_tree (s : State) : (startHeader s).tree = none := rfl
@[simp] theorem startHeader_codesValid (s : State) : (startHeader s).codesValid = false := rfl
@[simp] theorem startHeader_code (s : State) : (startHeader s).code = s.code := rfl
@[simp] theorem startHeader_pq (s : State) : (startHeader s).pq = s.pq := rfl
@[simp] theorem startHeader_cur (s : State) : (startHeader s).cur = s.cur := rfl
@[simp] theorem startHeader_inp (s : State) : (startHeader s).inp = s.inp := rfl
@[simp] theorem startHeader_out (s : State) : (startHeader s).out = s.out := rfl
@[simp] theorem startHeader_rd (s : State) : (startHeader s).rd = .header Config.nodeCap [] := rfl
@[simp] theorem startHeader_magic (s : State) : (startHeader s).magic = s.magic := rfl
@[simp] theorem startHeader_moves (s : State) : (startHeader s).moves = s.moves := rfl
@[simp] theorem startHeader_reply (s : State) : (startHeader s).reply = s.reply := rfl
@[simp] theorem startHeader_freeCtr (s : State) : (startHeader s).freeCtr = s.freeCtr := rfl
@[simp] theorem startWalk_st (s : State) : (startWalk s).st = s.st := rfl
@[simp] theorem startWalk_err (s : State) : (startWalk s).err = s.err := rfl
@[simp] theorem startWalk_freq (s : State) : (startWalk s).freq = s.freq := rfl
@[simp] theorem startWalk_tree (s : State) : (startWalk s).tree = s.tree := rfl
@[simp] theorem startWalk_codesValid (s : State) : (startWalk s).codesValid = s.codesValid := rfl
@[simp] theorem startWalk_code (s : State) : (startWalk s).code = s.code := rfl
@[simp] theorem startWalk_pq (s : State) : (startWalk s).pq = s.pq := rfl
@[simp] theorem startWalk_cur (s : State) : (startWalk s).cur = s.tree := rfl
@[simp] theorem startWalk_inp (s : State) : (startWalk s).inp = s.inp := rfl
@[simp] theorem startWalk_out (s : State) : (startWalk s).out = s.out := rfl
@[simp] theorem startWalk_rd (s : State) : (startWalk s).rd = .body s.out.bits.length := rfl
@[simp] theorem startWalk_magic (s : State) : (startWalk s).magic = s.magic := rfl
@[simp] theorem startWalk_moves (s : State) : (startWalk s).moves = s.moves := rfl
@[simp] theorem startWalk_reply (s : State) : (startWalk s).reply = s.reply := rfl
@[simp] theorem startWalk_freeCtr (s : State) : (startWalk s).freeCtr = s.freeCtr := rfl
@[simp] theorem startMerge_st (s : State) : (startMerge s).st = s.st := rfl
@[simp] theorem startMerge_err (s : State) : (startMerge s).err = s.err := rfl
@[simp] theorem startMerge_freq (s : State) : (startMerge s).freq = s.freq := rfl
@[simp] theorem startMerge_tree (s : State) : (startMerge s).tree = s.tree := rfl
@[simp] theorem startMerge_codesValid (s : State) : (startMerge s).codesValid = false := rfl
@[simp] theorem startMerge_code (s : State) : (startMerge s).code = s.code := rfl
@[simp] theorem startMerge_pq (s : State) : (startMerge s).pq = seedQueue s.freq := rfl
@[simp] theorem startMerge_cur (s : State) : (startMerge s).cur = s.cur := rfl
@[simp] theorem startMerge_inp (s : State) : (startMerge s).inp = s.inp := rfl
@[simp] theorem startMerge_out (s : State) : (startMerge s).out = s.out := rfl
@[simp] theorem startMerge_rd (s : State) : (startMerge s).rd = s.rd := rfl
@[simp] theorem startMerge_magic (s : State) : (startMerge s).magic = s.magic := rfl
@[simp] theorem startMerge_moves (s : State) : (startMerge s).moves = s.moves := rfl
@[simp] theorem startMerge_reply (s : State) : (startMerge s).reply = s.reply := rfl
@[simp] theorem startMerge_freeCtr (s : State) : (startMerge s).freeCtr = s.freeCtr := rfl

/-! ### A reset that cuts a command short -/

@[simp] theorem cutShort_st (i : Instr) (s : State) : (cutShort i s).st = .idle := rfl
@[simp] theorem cutShort_err (i : Instr) (s : State) : (cutShort i s).err = 0 := rfl
@[simp] theorem cutShort_freq (i : Instr) (s : State) : (cutShort i s).freq = freqZero := rfl
@[simp] theorem cutShort_tree (i : Instr) (s : State) : (cutShort i s).tree = none := rfl
@[simp] theorem cutShort_codesValid (i : Instr) (s : State) : (cutShort i s).codesValid = false := rfl
@[simp] theorem cutShort_code (i : Instr) (s : State) : (cutShort i s).code = codeNone := rfl
@[simp] theorem cutShort_pq (i : Instr) (s : State) : (cutShort i s).pq = [] := rfl
@[simp] theorem cutShort_cur (i : Instr) (s : State) : (cutShort i s).cur = none := rfl
@[simp] theorem cutShort_rd (i : Instr) (s : State) : (cutShort i s).rd = .off := rfl
@[simp] theorem cutShort_magic (i : Instr) (s : State) : (cutShort i s).magic = s.magic := rfl
@[simp] theorem cutShort_moves (i : Instr) (s : State) : (cutShort i s).moves = s.moves := rfl
@[simp] theorem cutShort_reply (i : Instr) (s : State) : (cutShort i s).reply = s.reply := rfl
@[simp] theorem cutShort_freeCtr (i : Instr) (s : State) : (cutShort i s).freeCtr = s.freeCtr + 1 := rfl

/-- The commands, and the states, in which no channel is reached. -/
theorem reaches_nothing (i : Instr) (s : State)
    (h : i ∈ ([.clear, .build, .gencodes] : List Instr) ∨
      (i ∈ ([.wrmagic, .close, .wrhdr, .encode, .decode] : List Instr) ∧ s.out.closed = true) ∨
      (i = .wrhdr ∧ s.tree = none) ∨ (i = .encode ∧ s.codesValid = false) ∨
      (i = .decode ∧ ∀ n l r, s.tree ≠ some (.node n l r))) :
    reachesChannel i s = false ∧ reachesOut i s = false := by
  rcases h with h | ⟨h, hc⟩ | ⟨rfl, h⟩ | ⟨rfl, h⟩ | ⟨rfl, h⟩
  · simp at h; rcases h with rfl | rfl | rfl <;> simp [reachesChannel, reachesOut]
  · simp at h; rcases h with rfl | rfl | rfl | rfl | rfl <;> simp [reachesChannel, reachesOut, hc]
  · simp [reachesChannel, reachesOut, h]
  · simp [reachesChannel, reachesOut, h]
  · simp only [reachesChannel, reachesOut, and_self]
    cases ht : s.tree with
    | none => simp
    | some t =>
      cases t with
      | leaf => simp
      | node n l r => exact absurd ht (h n l r)

/-- OUT after a cut: the old bits stay in front, the flag stays, and an output the command never reaches is as it
was, a closed one among them. -/
theorem cutShort_out (i : Instr) (s : State) :
    s.out.bits <+: (cutShort i s).out.bits ∧ (cutShort i s).out.closed = s.out.closed ∧
      (reachesOut i s = false → (cutShort i s).out = s.out) ∧ (s.out.closed = true → (cutShort i s).out = s.out) := by
  have hc (h : s.out.closed = true) : reachesOut i s = false := by simp [reachesOut, h]
  simp only [cutShort]
  split
  · next h => exact ⟨List.prefix_append _ _, rfl, fun h' => by simp [h] at h', fun h' => by simp [hc h'] at h⟩
  · exact ⟨List.prefix_rfl, rfl, fun _ => rfl, fun _ => rfl⟩

/-! ### OUT after a fault -/

/-- Everything a fault can do to OUT: the old bits stay in front, the flag stays, and a closed channel stays whole. -/
theorem outAfterFault_spec (e : Cause) (o0 o : OutChan) (ctr : Nat) (hp : o0.bits <+: o.bits)
    (hc : o.closed = o0.closed) (hw : o0.closed = true → o = o0) :
    ∃ bits ctr', o0.bits <+: bits ∧ (o0.closed = true → bits = o0.bits) ∧
      outAfterFault e o0 o ctr = ({ bits := bits, closed := o0.closed }, ctr') := by
  unfold outAfterFault
  split
  · exact ⟨o.bits, ctr, hp, fun h => by rw [hw h], by rw [← hc]⟩
  · next hn => exact ⟨_, _, List.prefix_append _ _, fun h => by simp [hc, h] at hn, by rw [← hc]⟩

/-- A fault that writes nothing leaves OUT as the `raise` found it. -/
theorem takeFault_writesNothing (s0 s : State) (e : Cause) (h : e.writesNothing = true) :
    takeFault s0 e s = { s with st := .faulted, err := e.code, pq := [], cur := none, rd := .off } := by
  simp [takeFault, outAfterFault, h]

/-- Any fault of a command that had written nothing to OUT. -/
theorem takeFault_faultLeaves (s0 s : State) (e : Cause) (hp : s0.out.bits <+: s.out.bits)
    (hc : s.out.closed = s0.out.closed) (hw : s0.out.closed = true → s.out = s0.out) :
    State.faultLeaves { s with out := s0.out, pq := [], cur := none, rd := .off } e.code (takeFault s0 e s) := by
  obtain ⟨bits, ctr, h1, h2, h3⟩ := outAfterFault_spec e s0.out s.out s.freeCtr hp hc hw
  exact ⟨bits, ctr, h1, h2, by simp only [takeFault, h3]⟩

/-- The same of a command that began between commands, as the end of its run. -/
theorem finish_faultLeaves {s u : State} (e : Cause) (hq : u.quiet) (hp : s.out.bits <+: u.out.bits)
    (hc : u.out.closed = s.out.closed) (hw : s.out.closed = true → u.out = s.out) :
    ∃ t, finish s (.raised e u) = .next t ∧ State.faultLeaves { u with out := s.out } e.code t := by
  have h := takeFault_faultLeaves s u e hp hc hw
  obtain ⟨q1, q2, q3⟩ := hq
  rw [← q1, ← q2, ← q3] at h
  exact ⟨_, rfl, h⟩

theorem code_ne_zero (e : Cause) : e.code ≠ 0 := by cases e <;> decide

end Sys2Proof.Machine
end

