-- ==== Sys2Proof/Laws/Effects.lean ====
section
/-! SUPPORT. What each command's body can do, said once, and the frame that every one keeps. -/

namespace Sys2Proof.Machine

open Sys2Proof

/-- The state a body ends in. -/
def Ending.state : Ending → State
  | .done s => s
  | .raised _ s => s

/-- What every body keeps, from `s` on, whichever way it ends. -/
structure BodyFrame (causes : List Cause) (s : State) (r : Ending) : Prop where
  st : r.state.st = s.st
  err : r.state.err = s.err
  magic : r.state.magic = s.magic
  moves : r.state.moves = s.moves
  reply : r.state.reply = s.reply
  inpBits : r.state.inp.bits = s.inp.bits
  outGrows : s.out.bits <+: r.state.out.bits
  outClosed : s.out.closed = true → r.state.out = s.out
  raises : ∀ e u, r = .raised e u → e ∈ causes ∧ u.out.closed = s.out.closed

theorem BodyFrame.andThen {cs cs' : List Cause} {s : State} {r : Ending} {body : State → Ending}
    (h : BodyFrame cs s r) (hc : ∀ u, r = .done u → u.out.closed = s.out.closed)
    (hb : ∀ u, BodyFrame cs' u (body u)) (hs : cs ⊆ cs') : BodyFrame cs' s (r.andThen body) := by
  cases r with
  | raised e u =>
    exact ⟨h.st, h.err, h.magic, h.moves, h.reply, h.inpBits, h.outGrows, h.outClosed,
      fun e' u' he => ⟨hs (h.raises e' u' he).1, (h.raises e' u' he).2⟩⟩
  | done u =>
    have g := hb u
    have hc := hc u rfl
    refine ⟨g.st.trans h.st, g.err.trans h.err, g.magic.trans h.magic, g.moves.trans h.moves, g.reply.trans h.reply,
      g.inpBits.trans h.inpBits, h.outGrows.trans g.outGrows, ?_, ?_⟩
    · intro hcl
      exact (g.outClosed (hc.trans hcl)).trans (h.outClosed hcl)
    · intro e u' he
      exact ⟨(g.raises e u' he).1, (g.raises e u' he).2.trans hc⟩

theorem BodyFrame.mono {cs cs' : List Cause} {s : State} {r : Ending} (h : BodyFrame cs s r) (hs : cs ⊆ cs') :
    BodyFrame cs' s r :=
  ⟨h.st, h.err, h.magic, h.moves, h.reply, h.inpBits, h.outGrows, h.outClosed,
    fun e u he => ⟨hs (h.raises e u he).1, (h.raises e u he).2⟩⟩

theorem countBody_cases (s : State) :
    (∃ f, countBody s = .done { s with freq := f, inp := s.inp.toEnd }) ∨
    (∃ f p, (s.inp.pos ≤ s.inp.bits.length → p ≤ s.inp.bits.length) ∧
      countBody s = .raised .countOverflowError { s with freq := f, inp := { s.inp with pos := p } }) := by
  unfold countBody
  cases h : countWords freqZero 0 s.inp.words with
  | counted f => exact .inl ⟨f, rfl⟩
  | overflow f k =>
    have := countWords_overflow_le _ _ _ _ _ h
    rw [words_length] at this
    exact .inr ⟨f, _, by omega, rfl⟩

theorem buildBody_cases (s : State) : ∃ t, t.nodes ≤ Config.nodeCap ∧
    buildBody s = .done { s with codesValid := false, tree := some t, pq := [] } := by
  obtain ⟨t, h1, _, h2, h3, h4⟩ := buildBody_spec s
  have hl : t.leaves ≤ 257 := by
    rw [leaves_eq_length, h3.length_eq, List.length_map]; exact length_seeded_le _
  exact ⟨t, by have := nodes_eq t; simp only [Config.nodeCap]; omega, h1⟩

theorem gencodesBody_cases (s : State) :
    gencodesBody s = .raised .sequenceError s ∨
    ∃ t, s.tree = some t ∧ gencodesBody s = .done { s with code := codeTable t, codesValid := true } := by
  unfold gencodesBody
  cases h : s.tree with
  | none => exact .inl rfl
  | some t => exact .inr ⟨t, rfl, rfl⟩

theorem wrhdrBody_cases (s : State) :
    wrhdrBody s = .raised .sequenceError s ∨
    ∃ t, s.out.closed = false ∧
      wrhdrBody s = .done { s with out := { s.out with bits := s.out.bits ++ Tree.headerBits t } } := by
  unfold wrhdrBody
  obtain h | ⟨t, h⟩ := Option.eq_none_or_eq_some s.tree
  · simp [h]
  · rcases Bool.eq_false_or_eq_true s.out.closed with hc | hc
    · simp [h, hc, requireElse]
    · exact .inr ⟨t, hc, by simp [h, hc, requireElse, emitHeader_eq]⟩

theorem rdhdrBody_cases (s : State) :
    (∃ t rest, t.nodes ≤ Config.nodeCap ∧
      rdhdrBody s = .done { s with tree := some t, codesValid := false, inp := s.inp.leaving rest }) ∨
    (∃ e p, e ∈ [Cause.truncatedHeaderError, .malformedHeaderError] ∧ p ≤ s.inp.bits.length ∧
      rdhdrBody s = .raised e { s with tree := none, codesValid := false, inp := { s.inp with pos := p } }) := by
  unfold rdhdrBody
  cases h : readHeader Config.nodeCap [] s.inp.rest with
  | tree t rest => exact .inl ⟨t, rest, by simpa [openCount] using readHeader_nodes _ _ _ _ _ h, rfl⟩
  | truncated => exact .inr ⟨_, _, by simp, le_refl _, rfl⟩
  | malformed rest => exact .inr ⟨_, _, by simp, Nat.sub_le _ _, rfl⟩

theorem wrmagicBody_cases (s : State) :
    wrmagicBody s = .raised .sequenceError s ∨
    (s.out.closed = false ∧ wrmagicBody s = .done { s with out := { s.out with bits := s.out.bits ++ bitsMsb s.magic } }) := by
  unfold wrmagicBody
  rcases Bool.eq_false_or_eq_true s.out.closed with hc | hc
  · simp [hc, requireElse]
  · exact .inr ⟨hc, by simp [hc, requireElse, OutChan.writeBits, OutChan.writeCode]⟩

theorem closeBody_cases (s : State) :
    closeBody s = .raised .sequenceError s ∨ (s.out.closed = false ∧ closeBody s = .done { s with out := s.out.close }) := by
  unfold closeBody
  rcases Bool.eq_false_or_eq_true s.out.closed with hc | hc
  · simp [hc, requireElse]
  · exact .inr ⟨hc, by simp [hc, requireElse]⟩

theorem encodeBody_cases (s : State) :
    encodeBody s = .raised .sequenceError s ∨
    (s.out.closed = false ∧ ∃ q, encodeBody s =
      .done { s with out := { s.out with bits := s.out.bits ++ q }, inp := s.inp.toEnd }) ∨
    (s.out.closed = false ∧ ∃ q p, (s.inp.pos ≤ s.inp.bits.length → p ≤ s.inp.bits.length) ∧ encodeBody s =
      .raised .missingCodeError
        { s with out := { s.out with bits := s.out.bits ++ q }, inp := { s.inp with pos := p } }) := by
  unfold encodeBody
  rcases Bool.eq_false_or_eq_true s.codesValid with hv | hv
  · rcases Bool.eq_false_or_eq_true s.out.closed with hc | hc
    · simp [hv, hc, requireElse]
    · right
      simp only [hv, hc, requireElse, Bool.not_false, Bool.and_self, if_true]
      rcases encodeWords_cases s.code s.out 0 s.inp.words with ⟨q, h⟩ | ⟨q, n, hn, h⟩
      · simp only [h]
        obtain he | ⟨p, he⟩ := Option.eq_none_or_eq_some (codeRead s.code Config.pseudoEof)
        · exact .inr ⟨trivial, q, s.inp.bits.length, fun _ => le_refl _, by simp [he, InChan.toEnd, hc]⟩
        · exact .inl ⟨trivial, q ++ p, by simp [he, OutChan.writeCode, hc]⟩
      · rw [words_length] at hn
        exact .inr ⟨trivial, q, s.inp.pos + 8 * n, by omega, by simp [h, hc]⟩
  · simp [hv, requireElse]

theorem decodeBody_cases (s : State) :
    decodeBody s = .raised .sequenceError s ∨ decodeBody s = .raised .malformedHeaderError s ∨
    decodeBody s = .done { s with cur := none } ∨
    (s.out.closed = false ∧ ∃ q p, p ≤ s.inp.bits.length ∧ decodeBody s =
      .done { s with out := { s.out with bits := s.out.bits ++ q }, inp := { s.inp with pos := p }, cur := none }) ∨
    (s.out.closed = false ∧ ∃ q, decodeBody s =
      .raised .truncatedBodyError { s with out := { s.out with bits := s.out.bits ++ q }, inp := s.inp.toEnd }) := by
  unfold decodeBody
  obtain ht | ⟨t, ht⟩ := Option.eq_none_or_eq_some s.tree
  · simp [ht]
  · rcases Bool.eq_false_or_eq_true s.out.closed with hc | hc
    · simp [ht, hc, requireElse]
    · right
      simp only [ht, hc, requireElse, Bool.not_false, if_true]
      cases t with
      | leaf v w =>
        simp only [decodeTree]
        split
        · right; left; simp [ht]
        · left; simp
      | node w l r =>
        right; right
        simp only [decodeTree]
        rcases walkBits_spec (.node w l r) (.node w l r) s.out s.inp.rest with ⟨ws, rest, h1, h2⟩ | ⟨ws, h1⟩
        · exact .inl ⟨trivial, bitsOfBytes ws, _, Nat.sub_le _ rest.length, by simp [h1, InChan.leaving, hc, ht]⟩
        · exact .inr ⟨trivial, bitsOfBytes ws, by simp [h1, hc, ht]⟩

theorem rdmagicBody_cases (s : State) :
    (∃ p, p ≤ s.inp.bits.length ∧ rdmagicBody s = .done { s with inp := { s.inp with pos := p }, rd := .off }) ∨
    (∃ p rd, p ≤ s.inp.bits.length ∧
      rdmagicBody s = .raised .formatError { s with inp := { s.inp with pos := p }, rd := rd }) := by
  unfold rdmagicBody InChan.readBits
  by_cases h : s.inp.pos + 32 ≤ s.inp.bits.length
  · rw [if_pos h]
    simp only [streamMagicBody]
    split
    · exact .inl ⟨_, h, rfl⟩
    · exact .inr ⟨_, _, h, rfl⟩
  · rw [if_neg h]; exact .inr ⟨_, s.rd, le_refl _, rfl⟩

theorem applyFed_cases (s : State) (f : Fed) :
    (∃ rd, applyFed s f = .done { s with rd := rd }) ∨ (∃ t, f = .root t ∧ applyFed s f = .done { s with tree := some t, rd := .off }) ∨
    applyFed s f = .raised .malformedHeaderError s := by
  cases f with
  | more r os => exact .inl ⟨_, rfl⟩
  | root t => exact .inr (.inl ⟨t, rfl, rfl⟩)
  | malformed => exact .inr (.inr rfl)

theorem countBody_frame (s : State) : BodyFrame (causesOf .count) s (countBody s) := by
  rcases countBody_cases s with ⟨f, h⟩ | ⟨f, p, _, h⟩ <;> rw [h] <;>
    exact ⟨rfl, rfl, rfl, rfl, rfl, rfl, List.prefix_rfl, fun _ => rfl, by simp [causesOf]⟩

theorem buildBody_frame (s : State) : BodyFrame (causesOf .build) s (buildBody s) := by
  obtain ⟨t, _, h⟩ := buildBody_cases s
  rw [h]; exact ⟨rfl, rfl, rfl, rfl, rfl, rfl, List.prefix_rfl, fun _ => rfl, by simp⟩

theorem frame_raised (s : State) (e : Cause) : BodyFrame [e] s (.raised e s) :=
  ⟨rfl, rfl, rfl, rfl, rfl, rfl, List.prefix_rfl, fun _ => rfl, by rintro _ _ ⟨⟩; simp⟩

theorem gencodesBody_frame (s : State) : BodyFrame (causesOf .gencodes) s (gencodesBody s) := by
  rcases gencodesBody_cases s with h | ⟨t, _, h⟩ <;> rw [h]
  · exact frame_raised _ _
  · exact ⟨rfl, rfl, rfl, rfl, rfl, rfl, List.prefix_rfl, fun _ => rfl, by simp⟩

theorem wrhdrBody_frame (s : State) : BodyFrame (causesOf .wrhdr) s (wrhdrBody s) := by
  rcases wrhdrBody_cases s with h | ⟨t, hc, h⟩ <;> rw [h]
  · exact frame_raised _ _
  · exact ⟨rfl, rfl, rfl, rfl, rfl, rfl, List.prefix_append _ _, by simp [hc], by simp⟩

theorem wrmagicBody_frame (s : State) : BodyFrame (causesOf .wrmagic) s (wrmagicBody s) := by
  rcases wrmagicBody_cases s with h | ⟨hc, h⟩ <;> rw [h]
  · exact frame_raised _ _
  · exact ⟨rfl, rfl, rfl, rfl, rfl, rfl, List.prefix_append _ _, by simp [hc], by simp⟩

theorem closeBody_frame (s : State) : BodyFrame (causesOf .close) s (closeBody s) := by
  rcases closeBody_cases s with h | ⟨hc, h⟩ <;> rw [h]
  · exact frame_raised _ _
  · exact ⟨rfl, rfl, rfl, rfl, rfl, rfl, List.prefix_append _ _, by simp [hc], by simp⟩

theorem rewindBody_frame (s : State) : BodyFrame (causesOf .rewind) s (rewindBody s) :=
  ⟨rfl, rfl, rfl, rfl, rfl, rfl, List.prefix_rfl, fun _ => rfl, by simp [rewindBody]⟩

theorem rdhdrBody_frame (s : State) : BodyFrame (causesOf .rdhdr) s (rdhdrBody s) := by
  rcases rdhdrBody_cases s with ⟨t, rest, _, h⟩ | ⟨e, p, he, _, h⟩ <;> rw [h]
  · exact ⟨rfl, rfl, rfl, rfl, rfl, rfl, List.prefix_rfl, fun _ => rfl, by simp⟩
  · exact ⟨rfl, rfl, rfl, rfl, rfl, rfl, List.prefix_rfl, fun _ => rfl, by rintro _ _ ⟨⟩; exact ⟨he, rfl⟩⟩

theorem encodeBody_frame (s : State) : BodyFrame (causesOf .encode) s (encodeBody s) := by
  rcases encodeBody_cases s with h | ⟨hc, q, h⟩ | ⟨hc, q, p, _, h⟩ <;> rw [h]
  · exact (frame_raised _ _).mono (by simp [causesOf])
  · exact ⟨rfl, rfl, rfl, rfl, rfl, rfl, List.prefix_append _ _, by simp [hc], by simp⟩
  · exact ⟨rfl, rfl, rfl, rfl, rfl, rfl, List.prefix_append _ _, by simp [hc], by rintro _ _ ⟨⟩; simp [causesOf]⟩

theorem decodeBody_frame (s : State) : BodyFrame (causesOf .decode) s (decodeBody s) := by
  rcases decodeBody_cases s with h | h | h | ⟨hc, q, p, _, h⟩ | ⟨hc, q, h⟩ <;> rw [h]
  · exact (frame_raised _ _).mono (by simp [causesOf])
  · exact (frame_raised _ _).mono (by simp [causesOf])
  · exact ⟨rfl, rfl, rfl, rfl, rfl, rfl, List.prefix_rfl, fun _ => rfl, by simp⟩
  · exact ⟨rfl, rfl, rfl, rfl, rfl, rfl, List.prefix_append _ _, by simp [hc], by simp⟩
  · exact ⟨rfl, rfl, rfl, rfl, rfl, rfl, List.prefix_append _ _, by simp [hc], by rintro _ _ ⟨⟩; simp [causesOf]⟩

theorem rdmagicBody_frame (s : State) : BodyFrame (causesOf .rdmagic) s (rdmagicBody s) := by
  rcases rdmagicBody_cases s with ⟨p, _, h⟩ | ⟨p, rd, _, h⟩ <;> rw [h]
  · exact ⟨rfl, rfl, rfl, rfl, rfl, rfl, List.prefix_rfl, fun _ => rfl, by simp⟩
  · exact ⟨rfl, rfl, rfl, rfl, rfl, rfl, List.prefix_rfl, fun _ => rfl, by rintro _ _ ⟨⟩; simp [causesOf]⟩

theorem streamMagicBody_frame (m : Word) (s : State) : BodyFrame (causesOf (.streamMagic m)) s (streamMagicBody m s) := by
  unfold streamMagicBody
  split
  · exact ⟨rfl, rfl, rfl, rfl, rfl, rfl, List.prefix_rfl, fun _ => rfl, by simp⟩
  · exact ⟨rfl, rfl, rfl, rfl, rfl, rfl, List.prefix_rfl, fun _ => rfl, by rintro _ _ ⟨⟩; simp [causesOf]⟩

theorem applyFed_frame (s : State) (f : Fed) : BodyFrame [.malformedHeaderError] s (applyFed s f) := by
  rcases applyFed_cases s f with ⟨rd, h⟩ | ⟨t, _, h⟩ | h <;> rw [h]
  · exact ⟨rfl, rfl, rfl, rfl, rfl, rfl, List.prefix_rfl, fun _ => rfl, by simp⟩
  · exact ⟨rfl, rfl, rfl, rfl, rfl, rfl, List.prefix_rfl, fun _ => rfl, by simp⟩
  · exact frame_raised _ _

/-- Closed is closed and open is open, up to CLOSE. -/
def KeepsClosed (body : State → Ending) : Prop := ∀ s u, body s = .done u → u.out.closed = s.out.closed

theorem keepsClosed_count : KeepsClosed countBody := by
  intro s u h; rcases countBody_cases s with ⟨f, h'⟩ | ⟨f, p, _, h'⟩ <;> rw [h'] at h <;> cases h; rfl

theorem keepsClosed_build : KeepsClosed buildBody := by
  intro s u h; obtain ⟨t, _, h'⟩ := buildBody_cases s; rw [h'] at h; cases h; rfl

theorem keepsClosed_gencodes : KeepsClosed gencodesBody := by
  intro s u h; rcases gencodesBody_cases s with h' | ⟨t, _, h'⟩ <;> rw [h'] at h <;> cases h; rfl

theorem keepsClosed_wrmagic : KeepsClosed wrmagicBody := by
  intro s u h; rcases wrmagicBody_cases s with h' | ⟨_, h'⟩ <;> rw [h'] at h <;> cases h; rfl

theorem keepsClosed_wrhdr : KeepsClosed wrhdrBody := by
  intro s u h; rcases wrhdrBody_cases s with h' | ⟨t, _, h'⟩ <;> rw [h'] at h <;> cases h; rfl

theorem keepsClosed_rewind : KeepsClosed rewindBody := by
  intro s u h; cases h; rfl

theorem keepsClosed_encode : KeepsClosed encodeBody := by
  intro s u h; rcases encodeBody_cases s with h' | ⟨_, q, h'⟩ | ⟨_, q, p, _, h'⟩ <;> rw [h'] at h <;> cases h; rfl

theorem keepsClosed_rdmagic : KeepsClosed rdmagicBody := by
  intro s u h; rcases rdmagicBody_cases s with ⟨p, _, h'⟩ | ⟨p, rd, _, h'⟩ <;> rw [h'] at h <;> cases h; rfl

theorem keepsClosed_rdhdr : KeepsClosed rdhdrBody := by
  intro s u h; rcases rdhdrBody_cases s with ⟨t, r, _, h'⟩ | ⟨e, p, _, _, h'⟩ <;> rw [h'] at h <;> cases h; rfl

theorem keepsClosed_decode : KeepsClosed decodeBody := by
  intro s u h; rcases decodeBody_cases s with h' | h' | h' | ⟨hc, q, p, _, h'⟩ | ⟨hc, q, h'⟩ <;> rw [h'] at h <;> cases h <;> rfl

theorem KeepsClosed.andThen {s : State} {r : Ending} {body : State → Ending}
    (h : ∀ u, r = .done u → u.out.closed = s.out.closed) (hb : KeepsClosed body) :
    ∀ u, r.andThen body = .done u → u.out.closed = s.out.closed := by
  intro u hu
  cases r with
  | raised e v => cases hu
  | done v => exact (hb v u hu).trans (h v rfl)

/-- Discarding after CLOSE: nothing can raise any more, so the closed flag does not matter. -/
theorem BodyFrame.andDiscard {cs : List Cause} {s : State} {r : Ending} (h : BodyFrame cs s r) :
    BodyFrame cs s (r.andThen fun t => .done (Machine.discard t)) := by
  cases r with
  | raised e u => exact h
  | done u => exact ⟨h.st, h.err, h.magic, h.moves, h.reply, h.inpBits, h.outGrows, h.outClosed, by simp [Ending.andThen]⟩

theorem compressBody_frame (s : State) : BodyFrame (causesOf .compress) s (compressBody s) := by
  have m : ∀ {i}, (i ∈ ([.count, .build, .gencodes, .wrmagic, .wrhdr, .rewind, .encode, .close] : List Instr)) → causesOf i ⊆ causesOf .compress := by
    intro i hi; simp at hi; rcases hi with rfl | rfl | rfl | rfl | rfl | rfl | rfl | rfl <;> simp [causesOf]
  have k1 := keepsClosed_count s
  have k2 := KeepsClosed.andThen k1 keepsClosed_build
  have k3 := KeepsClosed.andThen k2 keepsClosed_gencodes
  have k4 := KeepsClosed.andThen k3 keepsClosed_wrmagic
  have k5 := KeepsClosed.andThen k4 keepsClosed_wrhdr
  have k6 := KeepsClosed.andThen k5 keepsClosed_rewind
  have k7 := KeepsClosed.andThen k6 keepsClosed_encode
  refine BodyFrame.andDiscard ?_
  exact (((((((countBody_frame s).mono (m (by simp))).andThen k1 (fun u => (buildBody_frame u).mono (m (by simp))) (by simp)).andThen k2
    (fun u => (gencodesBody_frame u).mono (m (by simp))) (by simp)).andThen k3
    (fun u => (wrmagicBody_frame u).mono (m (by simp))) (by simp)).andThen k4
    (fun u => (wrhdrBody_frame u).mono (m (by simp))) (by simp)).andThen k5
    (fun u => (rewindBody_frame u).mono (m (by simp))) (by simp)).andThen k6
    (fun u => (encodeBody_frame u).mono (m (by simp))) (by simp) |>.andThen k7
    (fun u => (closeBody_frame u).mono (m (by simp))) (by simp)

theorem decompressBody_frame (s : State) : BodyFrame (causesOf .decompress) s (decompressBody s) := by
  have m : ∀ {i}, (i ∈ ([.rdmagic, .rdhdr, .decode, .close] : List Instr)) → causesOf i ⊆ causesOf .decompress := by
    intro i hi; simp at hi; rcases hi with rfl | rfl | rfl | rfl <;> simp [causesOf]
  have k1 := keepsClosed_rdmagic s
  have k2 := KeepsClosed.andThen k1 keepsClosed_rdhdr
  have k3 := KeepsClosed.andThen k2 keepsClosed_decode
  refine BodyFrame.andDiscard ?_
  exact (((rdmagicBody_frame s).mono (m (by simp))).andThen k1 (fun u => (rdhdrBody_frame u).mono (m (by simp))) (by simp)).andThen k2
    (fun u => (decodeBody_frame u).mono (m (by simp))) (by simp) |>.andThen k3
    (fun u => (closeBody_frame u).mono (m (by simp))) (by simp)

/-- Every instruction: CLEAR, ignored, or a body run to its end. -/
theorem exec_cases (i : Instr) (s : State) :
    (i = .clear ∧ exec i s = .next (resetEngine s)) ∨ (i ≠ .clear ∧ s.st = .faulted ∧ exec i s = .next s) ∨
    (i ≠ .clear ∧ s.st = .idle ∧ ∃ r, exec i s = finish s r ∧ BodyFrame (causesOf i) s r) := by
  by_cases hi : i = .clear
  · subst hi; exact .inl ⟨rfl, rfl⟩
  · right
    cases hs : s.st with
    | faulted => exact .inl ⟨hi, rfl, exec_faulted i s hs hi⟩
    | idle =>
      refine .inr ⟨hi, rfl, ?_⟩
      cases i with
      | clear => exact absurd rfl hi
      | count => exact ⟨_, exec_run_count s hs, countBody_frame s⟩
      | build => exact ⟨_, exec_run_build s hs, buildBody_frame s⟩
      | gencodes => exact ⟨_, exec_run_gencodes s hs, gencodesBody_frame s⟩
      | wrhdr => exact ⟨_, exec_run_wrhdr s hs, wrhdrBody_frame s⟩
      | rdhdr => exact ⟨_, exec_run_rdhdr s hs, rdhdrBody_frame s⟩
      | wrmagic => exact ⟨_, exec_run_wrmagic s hs, wrmagicBody_frame s⟩
      | rdmagic => exact ⟨_, exec_run_rdmagic s hs, rdmagicBody_frame s⟩
      | rewind => exact ⟨_, exec_run_rewind s hs, rewindBody_frame s⟩
      | encode => exact ⟨_, exec_run_encode s hs, encodeBody_frame s⟩
      | decode => exact ⟨_, exec_run_decode s hs, decodeBody_frame s⟩
      | close => exact ⟨_, exec_run_close s hs, closeBody_frame s⟩
      | compress => exact ⟨_, exec_run_compress s hs, compressBody_frame s⟩
      | decompress => exact ⟨_, exec_run_decompress s hs, decompressBody_frame s⟩
      | streamMagic m => exact ⟨_, exec_run_streamMagic m s hs, streamMagicBody_frame m s⟩
      | streamHdrInternal => exact ⟨_, exec_run_streamHdrInternal s hs, applyFed_frame s _⟩
      | streamHdrLeaf v => exact ⟨_, exec_run_streamHdrLeaf v s hs, applyFed_frame s _⟩

theorem finish_next {s t : State} {r : Ending} (h : finish s r = .next t) :
    t.freq = r.state.freq ∧ t.tree = r.state.tree ∧ t.codesValid = r.state.codesValid ∧ t.code = r.state.code ∧
      t.inp = r.state.inp ∧
      (r.state.out = s.out → t.out = s.out ∨ ∃ e u, r = .raised e u ∧ e.writesNothing = false) ∧
      (t.st = .idle → r = .done t) := by
  cases r with
  | done u => cases h; exact ⟨rfl, rfl, rfl, rfl, rfl, .inl, fun _ => rfl⟩
  | raised e u =>
    cases h
    refine ⟨rfl, rfl, rfl, rfl, rfl, ?_, ?_⟩
    · intro ho
      cases he : e.writesNothing with
      | true => exact .inl (by rw [takeFault_writesNothing s u e he]; exact ho)
      | false => exact .inr ⟨e, u, rfl, he⟩
    · intro h; cases h

theorem andDiscard_done {r : Ending} {t : State} (h : r.andThen (fun u => .done (Machine.discard u)) = .done t) :
    t.freq = freqZero := by
  cases r with
  | raised e u => cases h
  | done u => cases h; rfl

theorem decodeTree_body (t : Tree) (s : State) (ws : List Byte) (q rest : Bits)
    (hb : bodyBits t.codeOf ws = some q) (hr : s.inp.rest = q ++ rest) (hp : s.inp.pos ≤ s.inp.bits.length) :
    decodeTree t s = .done
      { s with
        out := { s.out with bits := s.out.bits ++ bitsOfBytes ws }
        inp := { s.inp with pos := s.inp.pos + q.length }, cur := none } := by
  cases t with
  | leaf v w =>
    obtain ⟨rfl, rfl, rfl⟩ := bodyBits_leaf _ _ _ _ hb
    simp [decodeTree, bitsOfBytes]
  | node w l r =>
    simp only [decodeTree, hr, walkBits_body w l r ws q s.out rest hb, leaving_eq _ _ _ hr hp]

end Sys2Proof.Machine
end

