-- ==== Sys2Proof/Laws/Composites.lean ====
section
/-! SUPPORT. A composite command against its units given one after another (44_compress.md R166, 45_decompress.md R185). -/

namespace Sys2Proof.Machine

open Sys2Proof

/-- What OUT may have become before CLOSE. -/
structure OutGrew (s t : State) : Prop where
  closed : t.out.closed = s.out.closed
  bits : s.out.bits <+: t.out.bits
  closedStays : s.out.closed = true → t.out = s.out

/-- Where a composite that began in `s` stands, its units so far ended in `r` and `is` still to come. -/
def CompositeAt (s : State) (all : List Instr) (r : Ending) (is : List Instr) : Prop :=
  match r with
  | .done t => t.st = .idle ∧ runUnits all s = runUnits is t ∧ OutGrew s t
  | .raised e t => (∃ s', runUnits all s = takeFault s' e t) ∧ OutGrew s t

theorem CompositeAt.andThen {s : State} {all : List Instr} {r : Ending} {i : Instr} {is : List Instr} {body : State → Ending}
    (h : CompositeAt s all r (i :: is)) (hx : ∀ t, t.st = .idle → exec i t = finish t (body t))
    (hf : ∀ t, BodyFrame (causesOf i) t (body t)) (hk : KeepsClosed body) : CompositeAt s all (r.andThen body) is := by
  cases r with
  | raised e t => exact h
  | done t =>
    obtain ⟨h1, h2, h3⟩ := h
    have he := hx t h1
    have hft := hf t
    have hg (u : State) (hc : u.out.closed = t.out.closed) (hu : (body t).state = u) : OutGrew s u :=
      ⟨hc.trans h3.closed, by rw [← hu]; exact h3.bits.trans hft.outGrows,
        fun h => by rw [← hu, hft.outClosed (h3.closed.trans h), h3.closedStays h]⟩
    simp only [Ending.andThen]
    cases hb : body t with
    | done u =>
      rw [hb] at hft he
      have hst : u.st = .idle := hft.st.trans h1
      refine ⟨hst, ?_, hg u (hk t u hb) (by rw [hb]; rfl)⟩
      rw [h2]; simp only [runUnits, he, finish, hst, if_true]
    | raised e u =>
      rw [hb] at hft he
      refine ⟨⟨t, ?_⟩, hg u (hft.raises e u rfl).2 (by rw [hb]; rfl)⟩
      rw [h2]; simp [runUnits, he, finish, takeFault]

theorem takeFault_from (s s' : State) (e : Cause) (t : State) (h : OutGrew s t) :
    ∃ bits ctr, s.out.bits <+: bits ∧ takeFault s e t = { takeFault s' e t with out := { bits := bits, closed := s.out.closed }, freeCtr := ctr } := by
  obtain ⟨bits, ctr, hp, _, ho⟩ := outAfterFault_spec e s.out t.out t.freeCtr h.bits h.closed h.closedStays
  exact ⟨bits, ctr, hp, by simp only [takeFault, ho]⟩

/-- The end of a composite: CLOSE, then `discard`. -/
theorem CompositeAt.close {s : State} {all : List Instr} {r : Ending} (hr : CompositeAt s all r [.close]) :
    ((runUnits all s).st = .idle → finish s ((r.andThen closeBody).andThen fun t => .done (Machine.discard t)) =
      .next (Machine.discard (runUnits all s))) ∧
    ((runUnits all s).st = .faulted → ∃ bits ctr, s.out.bits <+: bits ∧
      finish s ((r.andThen closeBody).andThen fun t => .done (Machine.discard t)) = .next
        { runUnits all s with out := { bits := bits, closed := s.out.closed }, freeCtr := ctr }) := by
  cases r with
  | raised e t =>
    obtain ⟨⟨s', h1⟩, h2⟩ := hr
    rw [h1]
    refine ⟨fun h => (by cases h), fun _ => ?_⟩
    obtain ⟨bits, ctr, hp, ht⟩ := takeFault_from s s' e t h2
    exact ⟨bits, ctr, hp, by simp only [Ending.andThen, finish, ht]⟩
  | done t =>
    obtain ⟨h1, h2, h3⟩ := hr
    have he := exec_run_close t h1
    rw [h2]
    rcases closeBody_cases t with hb | ⟨hc, hb⟩ <;> rw [hb] at he
    · simp only [runUnits, he, finish, Ending.andThen, hb]
      have : (takeFault t .sequenceError t).st = .faulted := rfl
      rw [if_neg (by rw [this]; simp)]
      refine ⟨fun h => (by cases h), fun _ => ?_⟩
      obtain ⟨bits, ctr, hp, ht⟩ := takeFault_from s t .sequenceError t h3
      exact ⟨bits, ctr, hp, by rw [ht]⟩
    · have : (({ t with out := t.out.close } : State)).st = .idle := h1
      simp only [runUnits, he, finish, Ending.andThen, hb, h1, if_true]
      exact ⟨fun _ => trivial, fun h => (by cases h)⟩

end Sys2Proof.Machine
end

