-- ==== Sys2Proof/Laws/Cursor.lean ====
section
/-! SUPPORT. The input cursor only grows, and stays inside the input (10_state.md R25, 20_memory.md R51). -/

namespace Sys2Proof.Machine

open Sys2Proof

/-- From a cursor inside the input the body, however it ends, moves the cursor on and keeps it inside. -/
def CursorGrows (body : State → Ending) : Prop :=
  ∀ s, s.inp.pos ≤ s.inp.bits.length →
    s.inp.pos ≤ (body s).state.inp.pos ∧ (body s).state.inp.pos ≤ (body s).state.inp.bits.length

theorem CursorGrows.andThen {b c : State → Ending} (hb : CursorGrows b) (hc : CursorGrows c) :
    CursorGrows fun s => (b s).andThen c := by
  intro s h
  have h1 := hb s h
  simp only
  cases e : b s with
  | raised x u => rw [e] at h1; exact h1
  | done u =>
    rw [e] at h1
    have h2 := hc u h1.2
    exact ⟨h1.1.trans h2.1, h2.2⟩

theorem cursorGrows_of_eq {body : State → Ending} (h : ∀ s, (body s).state.inp = s.inp) : CursorGrows body := by
  intro s hp; rw [h]; exact ⟨le_refl _, hp⟩

theorem cursorGrows_count : CursorGrows countBody := by
  intro s h
  unfold countBody
  cases hc : countWords freqZero 0 s.inp.words with
  | counted f => exact ⟨h, le_refl _⟩
  | overflow f k =>
    have := countWords_overflow_le _ _ _ _ _ hc
    rw [words_length] at this
    simp [Ending.state]; omega

theorem cursorGrows_rdhdr : CursorGrows rdhdrBody := by
  intro s h
  have hl := readHeader_rest_le Config.nodeCap [] s.inp.rest
  rw [rest_length] at hl
  unfold rdhdrBody
  cases hr : readHeader Config.nodeCap [] s.inp.rest <;> rw [hr] at hl <;>
    simp [Ending.state, InChan.leaving, InChan.toEnd] at hl ⊢ <;> omega

theorem cursorGrows_streamMagic (m : Word) : CursorGrows (streamMagicBody m) :=
  cursorGrows_of_eq fun s => by unfold streamMagicBody; split <;> rfl

theorem cursorGrows_rdmagic : CursorGrows rdmagicBody := by
  intro s h
  unfold rdmagicBody InChan.readBits
  by_cases hl : s.inp.pos + 32 ≤ s.inp.bits.length
  · rw [if_pos hl]
    have := cursorGrows_streamMagic (ofBitsMsb 32 (s.inp.rest.take 32))
      { s with inp := { s.inp with pos := s.inp.pos + 32 } } hl
    exact ⟨le_trans (Nat.le_add_right _ _) this.1, this.2⟩
  · rw [if_neg hl]; exact ⟨h, le_refl _⟩

theorem cursorGrows_decode : CursorGrows decodeBody := by
  intro s h
  unfold decodeBody
  cases ht : s.tree with
  | none => exact ⟨le_refl _, h⟩
  | some t =>
    simp only [requireElse]
    split
    · cases t with
      | leaf v w => simp only [decodeTree]; split <;> exact ⟨le_refl _, h⟩
      | node w l r =>
        simp only [decodeTree]
        rcases walkBits_spec (.node w l r) (.node w l r) s.out s.inp.rest with ⟨ws, rest, h1, h2⟩ | ⟨ws, h1⟩
        · have := h2.length_le
          rw [rest_length] at this
          simp [h1, Ending.state, InChan.leaving]; omega
        · simp [h1, Ending.state, InChan.toEnd, h]
    · exact ⟨le_refl _, h⟩

theorem cursorGrows_encode : CursorGrows encodeBody := by
  intro s h
  unfold encodeBody
  simp only [requireElse]
  split
  · rcases encodeWords_cases s.code s.out 0 s.inp.words with ⟨q, hq⟩ | ⟨q, n, hn, hq⟩
    · simp only [hq]
      cases codeRead s.code Config.pseudoEof <;> exact ⟨h, le_refl _⟩
    · rw [words_length] at hn
      simp [hq, Ending.state]; omega
  · exact ⟨le_refl _, h⟩

theorem cursorGrows_close : CursorGrows closeBody :=
  cursorGrows_of_eq fun s => by rcases closeBody_cases s with h | ⟨_, h⟩ <;> rw [h] <;> rfl

theorem cursorGrows_decompress : CursorGrows decompressBody :=
  (((cursorGrows_rdmagic.andThen cursorGrows_rdhdr).andThen cursorGrows_decode).andThen cursorGrows_close).andThen
    (cursorGrows_of_eq fun _ => rfl)

/-- No instruction changes the bits of the input. -/
theorem exec_inp_bits (i : Instr) (s t : State) (h : exec i s = .next t) : t.inp.bits = s.inp.bits := by
  rcases exec_cases i s with ⟨rfl, h'⟩ | ⟨_, _, h'⟩ | ⟨_, _, r, h', hf⟩ <;> rw [h'] at h
  · cases h; rfl
  · cases h; rfl
  · cases r <;> cases h <;> exact hf.inpBits

theorem applyFed_inp (s : State) (f : Fed) : (applyFed s f).state.inp = s.inp := by cases f <;> rfl

/-- COMPRESS that does not get past WRMAGIC ends at COUNT or at WRMAGIC, with the cursor where COUNT left it. -/
theorem compress_unreached (s : State) (h : reachesOut .compress s = false) :
    (compressBody s).state.inp = (countBody s).state.inp := by
  unfold compressBody
  cases hc : countBody s with
  | raised e u => rfl
  | done u =>
    have hs : s.out.closed = true := by simpa [reachesOut, hc] using h
    have hu : u.out = s.out := by
      rcases countBody_cases s with ⟨f, h'⟩ | ⟨f, p, _, h'⟩ <;> rw [h'] at hc <;> cases hc; rfl
    obtain ⟨t, _, hb⟩ := buildBody_cases u
    simp only [Ending.andThen, hb, gencodesBody, wrmagicBody, requireElse, hu, hs]
    rfl

/-- No instruction but REWIND, and COMPRESS that gets to its REWIND, moves the cursor back, and none of the
others moves it out of the input. -/
theorem exec_cursor (i : Instr) (s t : State) (h : exec i s = .next t) (h1 : i ≠ .rewind)
    (h2 : i = .compress → reachesOut .compress s = false) (hp : s.inp.pos ≤ s.inp.bits.length) :
    s.inp.pos ≤ t.inp.pos ∧ t.inp.pos ≤ t.inp.bits.length := by
  by_cases hi : i = .clear
  · subst hi; cases h; exact ⟨le_refl _, hp⟩
  cases hs : s.st with
  | faulted => rw [exec_faulted i s hs hi] at h; cases h; exact ⟨le_refl _, hp⟩
  | idle =>
    have key (body : State → Ending) (hb : CursorGrows body) (he : exec i s = finish s (body s)) :
        s.inp.pos ≤ t.inp.pos ∧ t.inp.pos ≤ t.inp.bits.length := by
      rw [he] at h
      rw [(finish_next h).2.2.2.2.1]; exact hb s hp
    cases i with
    | clear => exact absurd rfl hi
    | rewind => exact absurd rfl h1
    | compress =>
      rw [exec_run_compress s hs] at h
      rw [(finish_next h).2.2.2.2.1, compress_unreached s (h2 rfl)]; exact cursorGrows_count s hp
    | count => exact key _ cursorGrows_count (exec_run_count s hs)
    | build => exact key _ (cursorGrows_of_eq fun s => by obtain ⟨t, _, h⟩ := buildBody_cases s; rw [h]; rfl) (exec_run_build s hs)
    | gencodes =>
      exact key _ (cursorGrows_of_eq fun s => by rcases gencodesBody_cases s with h | ⟨t, _, h⟩ <;> rw [h] <;> rfl)
        (exec_run_gencodes s hs)
    | wrhdr =>
      exact key _ (cursorGrows_of_eq fun s => by rcases wrhdrBody_cases s with h | ⟨t, _, h⟩ <;> rw [h] <;> rfl)
        (exec_run_wrhdr s hs)
    | rdhdr => exact key _ cursorGrows_rdhdr (exec_run_rdhdr s hs)
    | wrmagic =>
      exact key _ (cursorGrows_of_eq fun s => by rcases wrmagicBody_cases s with h | ⟨_, h⟩ <;> rw [h] <;> rfl)
        (exec_run_wrmagic s hs)
    | rdmagic => exact key _ cursorGrows_rdmagic (exec_run_rdmagic s hs)
    | encode => exact key _ cursorGrows_encode (exec_run_encode s hs)
    | decode => exact key _ cursorGrows_decode (exec_run_decode s hs)
    | close => exact key _ cursorGrows_close (exec_run_close s hs)
    | decompress => exact key _ cursorGrows_decompress (exec_run_decompress s hs)
    | streamMagic m => exact key _ (cursorGrows_streamMagic m) (exec_run_streamMagic m s hs)
    | streamHdrInternal =>
      exact key _ (cursorGrows_of_eq fun s => applyFed_inp s _) (exec_run_streamHdrInternal s hs)
    | streamHdrLeaf v => exact key _ (cursorGrows_of_eq fun s => applyFed_inp s _) (exec_run_streamHdrLeaf v s hs)

/-- A command that reaches no channel, or only the output, leaves the input as it was. -/
theorem exec_inp_unreached (i : Instr) (s t : State) (h : exec i s = .next t)
    (hr : reachesChannel i s = false ∨ i ∈ ([.wrhdr, .wrmagic, .close] : List Instr)) : t.inp = s.inp := by
  by_cases hi : i = .clear
  · subst hi; cases h; rfl
  cases hs : s.st with
  | faulted => rw [exec_faulted i s hs hi] at h; cases h; rfl
  | idle =>
    have key (r : Ending) (hb : r.state.inp = s.inp) (he : exec i s = finish s r) : t.inp = s.inp := by
      rw [he] at h
      rw [(finish_next h).2.2.2.2.1]; exact hb
    cases i with
    | clear => exact absurd rfl hi
    | count | rdhdr | rdmagic | rewind | compress | decompress => simp [reachesChannel] at hr
    | streamMagic | streamHdrInternal | streamHdrLeaf => simp [reachesChannel] at hr
    | build => exact key _ (by obtain ⟨t, _, h⟩ := buildBody_cases s; rw [h]; rfl) (exec_run_build s hs)
    | gencodes =>
      exact key _ (by rcases gencodesBody_cases s with h | ⟨t, _, h⟩ <;> rw [h] <;> rfl) (exec_run_gencodes s hs)
    | wrhdr => exact key _ (by rcases wrhdrBody_cases s with h | ⟨t, _, h⟩ <;> rw [h] <;> rfl) (exec_run_wrhdr s hs)
    | wrmagic => exact key _ (by rcases wrmagicBody_cases s with h | ⟨_, h⟩ <;> rw [h] <;> rfl) (exec_run_wrmagic s hs)
    | close => exact key _ (by rcases closeBody_cases s with h | ⟨_, h⟩ <;> rw [h] <;> rfl) (exec_run_close s hs)
    | encode =>
      have hg : (s.codesValid && !s.out.closed) = false := by
        simpa [reachesChannel, reachesOut, Bool.and_comm] using hr
      exact key _ (by simp only [encodeBody, requireElse, hg]; rfl) (exec_run_encode s hs)
    | decode =>
      refine key _ ?_ (exec_run_decode s hs)
      unfold decodeBody
      cases ht : s.tree with
      | none => rfl
      | some u =>
        cases u with
        | leaf v w => simp only [requireElse, decodeTree]; split <;> (try split) <;> rfl
        | node w l r =>
          have hc : s.out.closed = true := by simpa [reachesChannel, reachesOut, ht] using hr
          simp only [requireElse, hc]; rfl

/-- Where a command that is cut short can have left the cursor. -/
theorem cutCursor_spec (i : Instr) (f : Nat) (s : State) :
    (cutCursor i f s).bits = s.inp.bits ∧
      (s.inp.pos ≤ s.inp.bits.length → (cutCursor i f s).pos ≤ (cutCursor i f s).bits.length) ∧
      (i ≠ .rewind → (i = .compress → reachesOut .compress s = false) → s.inp.pos ≤ (cutCursor i f s).pos ∧
        (s.inp.pos ≤ s.inp.bits.length → ∀ u, exec i s = .next u → (cutCursor i f s).pos ≤ u.inp.pos)) ∧
      (i = .rewind → (cutCursor i f s).pos = 0 ∨ (cutCursor i f s).pos = s.inp.pos) ∧
      (reachesChannel i s = false ∨ i ∈ ([.wrhdr, .wrmagic, .close] : List Instr) → cutCursor i f s = s.inp) := by
  unfold cutCursor
  by_cases hr : i = .rewind
  · subst hr
    rw [if_pos rfl]
    split <;> simp [InChan.resetToStart, reachesChannel]
  rw [if_neg hr]
  split
  · next h =>
    obtain ⟨rfl, h⟩ := h
    simp [h, reachesChannel]
  · next h =>
    have h2 : i = .compress → reachesOut .compress s = false := by
      rintro rfl; simpa using h
    have hl (hp : s.inp.pos ≤ s.inp.bits.length) :
        s.inp.pos ≤ lastPos i s ∧ lastPos i s ≤ s.inp.bits.length := by
      unfold lastPos
      cases he : exec i s with
      | next t =>
        have := exec_cursor i s t he hr h2 hp
        rwa [exec_inp_bits i s t he] at this
      | fault _ => exact ⟨le_refl _, hp⟩
      | refused _ => exact ⟨le_refl _, hp⟩
    refine ⟨rfl, fun hp => ?_, fun _ _ => ⟨Nat.le_add_right _ _, fun hp u he => ?_⟩, fun h => absurd h hr, fun hu => ?_⟩
    · have := hl hp
      show s.inp.pos + min f (lastPos i s - s.inp.pos) ≤ s.inp.bits.length
      omega
    · have := (hl hp).1
      have he' : lastPos i s = u.inp.pos := by simp only [lastPos, he]
      rw [← he']
      show s.inp.pos + min f (lastPos i s - s.inp.pos) ≤ lastPos i s
      omega
    · have : lastPos i s = s.inp.pos := by
        unfold lastPos
        cases he : exec i s with
        | next t => exact congrArg InChan.pos (exec_inp_unreached i s t he hu)
        | fault _ => rfl
        | refused _ => rfl
      simp [this]

end Sys2Proof.Machine
end

