-- ==== Sys2Proof/Laws/Invariant.lean ====
section
/-! SUPPORT. That bodies, commands and host moves keep the invariant `State.Inv`. -/

namespace Sys2Proof.Machine

open Sys2Proof

/-- The part of the invariant about TREE and CODE. -/
structure DataOk (s : State) : Prop where
  treeFits : ∀ t, s.tree = some t → t.nodes ≤ Config.nodeCap
  codesFit : ∀ v p, codeRead s.code v = some p → p.length ≤ Config.codeMax
  codesMean : s.codesValid = true → ∃ t, s.tree = some t ∧ s.code = codeTable t

theorem codeTable_fits (t : Tree) (h : t.nodes ≤ Config.nodeCap) (v : Symbol) (p : Bits)
    (hp : codeRead (codeTable t) v = some p) : p.length ≤ Config.codeMax := by
  rw [codeRead_codeTable] at hp
  have := paths_length_le_depth t v p (codeOf_mem _ _ _ hp)
  have := depth_lt_leaves t
  have := nodes_eq t
  simp only [Config.nodeCap, Config.codeMax] at *
  omega

/-- What a body keeps of the invariant: `o0` is the output before the command. -/
structure BodyOk (o0 : OutChan) (r : Ending) : Prop where
  st : r.state.st = .idle
  err : r.state.err = 0
  memory : Memory.wf r.state.inp r.state.out = true
  data : DataOk r.state
  quiet : ∀ t, r = .done t → t.quiet
  outKept : ∀ e t, r = .raised e t → t.out.closed = false ∨ t.out = o0

theorem Inv_of_finish {s t : State} {r : Ending} (h : BodyOk s.out r) (he : finish s r = .next t) : t.Inv := by
  cases r with
  | done u =>
    cases he
    exact ⟨h.quiet _ rfl, h.memory, ⟨fun _ => h.st, fun _ => h.err⟩, by have := h.err; simp only [Ending.state] at this; simp [this], h.data.treeFits, h.data.codesFit, h.data.codesMean⟩
  | raised e u =>
    cases he
    refine ⟨⟨rfl, rfl, rfl⟩, ?_, ?_, ?_, h.data.treeFits, h.data.codesFit, h.data.codesMean⟩
    · exact wf_outAfterFault _ _ _ _ _ h.memory
    · constructor
      · intro h; exact absurd h (code_ne_zero e)
      · intro h; cases h
    · cases e <;> simp [takeFault, Cause.code]

/-- What a body needs, between the bodies of a composite. -/
structure Ready (o0 : OutChan) (s : State) : Prop where
  st : s.st = .idle
  err : s.err = 0
  memory : Memory.wf s.inp s.out = true
  data : DataOk s
  quiet : s.quiet
  outKept : s.out.closed = false ∨ s.out = o0

theorem Ready.raised {o0 : OutChan} {s : State} (h : Ready o0 s) (e : Cause) : BodyOk o0 (.raised e s) :=
  ⟨h.st, h.err, h.memory, h.data, by simp, by rintro _ _ ⟨⟩; exact h.outKept⟩

theorem Ready.mk' {o0 : OutChan} {s u : State} (h : Ready o0 s) (st : u.st = s.st) (err : u.err = s.err)
    (hi : u.inp.pos ≤ u.inp.bits.length) (ho : u.out = s.out ∨ u.out.closed = false) (hd : DataOk u) :
    u.st = .idle ∧ u.err = 0 ∧ Memory.wf u.inp u.out = true ∧ DataOk u ∧ (u.out.closed = false ∨ u.out = o0) := by
  refine ⟨st.trans h.st, err.trans h.err, ?_, hd, ?_⟩
  · rw [wf_iff]
    refine ⟨hi, ?_⟩
    rcases ho with ho | ho
    · rw [ho]; exact ((wf_iff _ _).mp h.memory).2
    · simp [ho]
  · rcases ho with ho | ho
    · rw [ho]; exact h.outKept
    · exact .inl ho

theorem Ready.ok_done {o0 : OutChan} {s u : State} (h : Ready o0 s) (st : u.st = s.st) (err : u.err = s.err)
    (hi : u.inp.pos ≤ u.inp.bits.length) (ho : u.out = s.out ∨ u.out.closed = false) (hd : DataOk u) (hq : u.quiet) :
    Ready o0 u := by
  obtain ⟨a, b, c, d, e⟩ := h.mk' st err hi ho hd
  exact ⟨a, b, c, d, hq, e⟩

theorem Ready.ok {o0 : OutChan} {u : State} (h : Ready o0 u) : BodyOk o0 (.done u) :=
  ⟨h.st, h.err, h.memory, h.data, by rintro _ ⟨⟩; exact h.quiet, by simp⟩

theorem Ready.ok_raised {o0 : OutChan} {s u : State} (e : Cause) (h : Ready o0 s) (st : u.st = s.st) (err : u.err = s.err)
    (hi : u.inp.pos ≤ u.inp.bits.length) (ho : u.out = s.out ∨ u.out.closed = false) (hd : DataOk u) :
    BodyOk o0 (.raised e u) := by
  obtain ⟨a, b, c, d, f⟩ := h.mk' st err hi ho hd
  exact ⟨a, b, c, d, by simp, by rintro _ _ ⟨⟩; exact f⟩

theorem Ready.pos {o0 : OutChan} {s : State} (h : Ready o0 s) : s.inp.pos ≤ s.inp.bits.length := ((wf_iff _ _).mp h.memory).1

/-- A body's end is either ready for the next body, or a raise that leaves the invariant. -/
def Ending.fine (o0 : OutChan) : Ending → Prop
  | .done u => Ready o0 u
  | .raised e u => BodyOk o0 (.raised e u)

theorem Ending.fine.bodyOk {o0 : OutChan} {r : Ending} (h : r.fine o0) : BodyOk o0 r := by
  cases r with
  | done u => exact Ready.ok h
  | raised e u => exact h

theorem Ending.fine.andThen {o0 : OutChan} {r : Ending} {body : State → Ending} (h : r.fine o0)
    (hb : ∀ u, Ready o0 u → (body u).fine o0) : (r.andThen body).fine o0 := by
  cases r with
  | done u => exact hb u h
  | raised e u => exact h

theorem countBody_fine (o0 : OutChan) (s : State) (h : Ready o0 s) : (countBody s).fine o0 := by
  rcases countBody_cases s with ⟨f, e⟩ | ⟨f, p, hp, e⟩ <;> rw [e]
  · exact h.ok_done rfl rfl (le_refl _) (.inl rfl) ⟨h.data.treeFits, h.data.codesFit, h.data.codesMean⟩ h.quiet
  · exact h.ok_raised _ rfl rfl (hp h.pos) (.inl rfl) ⟨h.data.treeFits, h.data.codesFit, h.data.codesMean⟩

theorem buildBody_fine (o0 : OutChan) (s : State) (h : Ready o0 s) : (buildBody s).fine o0 := by
  obtain ⟨t, ht, e⟩ := buildBody_cases s
  rw [e]
  exact h.ok_done rfl rfl h.pos (.inl rfl) ⟨by rintro _ ⟨⟩; exact ht, h.data.codesFit, by simp⟩ ⟨h.quiet.1, h.quiet.2.1, rfl⟩

theorem gencodesBody_fine (o0 : OutChan) (s : State) (h : Ready o0 s) : (gencodesBody s).fine o0 := by
  rcases gencodesBody_cases s with e | ⟨t, ht, e⟩ <;> rw [e]
  · exact h.raised _
  · exact h.ok_done rfl rfl h.pos (.inl rfl) ⟨h.data.treeFits, codeTable_fits t (h.data.treeFits t ht), fun _ => ⟨t, ht, rfl⟩⟩ h.quiet

theorem wrhdrBody_fine (o0 : OutChan) (s : State) (h : Ready o0 s) : (wrhdrBody s).fine o0 := by
  rcases wrhdrBody_cases s with e | ⟨t, hc, e⟩ <;> rw [e]
  · exact h.raised _
  · exact h.ok_done rfl rfl h.pos (.inr hc) ⟨h.data.treeFits, h.data.codesFit, h.data.codesMean⟩ h.quiet

theorem wrmagicBody_fine (o0 : OutChan) (s : State) (h : Ready o0 s) : (wrmagicBody s).fine o0 := by
  rcases wrmagicBody_cases s with e | ⟨hc, e⟩ <;> rw [e]
  · exact h.raised _
  · exact h.ok_done rfl rfl h.pos (.inr hc) ⟨h.data.treeFits, h.data.codesFit, h.data.codesMean⟩ h.quiet

theorem rewindBody_fine (o0 : OutChan) (s : State) (h : Ready o0 s) : (rewindBody s).fine o0 :=
  h.ok_done rfl rfl (Nat.zero_le _) (.inl rfl) ⟨h.data.treeFits, h.data.codesFit, h.data.codesMean⟩ h.quiet

theorem encodeBody_fine (o0 : OutChan) (s : State) (h : Ready o0 s) : (encodeBody s).fine o0 := by
  rcases encodeBody_cases s with e | ⟨hc, q, e⟩ | ⟨hc, q, p, hp, e⟩ <;> rw [e]
  · exact h.raised _
  · exact h.ok_done rfl rfl (le_refl _) (.inr hc) ⟨h.data.treeFits, h.data.codesFit, h.data.codesMean⟩ h.quiet
  · exact h.ok_raised _ rfl rfl (hp h.pos) (.inr hc) ⟨h.data.treeFits, h.data.codesFit, h.data.codesMean⟩

theorem rdmagicBody_fine (o0 : OutChan) (s : State) (h : Ready o0 s) : (rdmagicBody s).fine o0 := by
  rcases rdmagicBody_cases s with ⟨p, hp, e⟩ | ⟨p, rd, hp, e⟩ <;> rw [e]
  · exact h.ok_done rfl rfl hp (.inl rfl) ⟨h.data.treeFits, h.data.codesFit, h.data.codesMean⟩ ⟨rfl, h.quiet.2.1, h.quiet.2.2⟩
  · exact h.ok_raised _ rfl rfl hp (.inl rfl) ⟨h.data.treeFits, h.data.codesFit, h.data.codesMean⟩

theorem rdhdrBody_fine (o0 : OutChan) (s : State) (h : Ready o0 s) : (rdhdrBody s).fine o0 := by
  rcases rdhdrBody_cases s with ⟨t, rest, ht, e⟩ | ⟨c, p, _, hp, e⟩ <;> rw [e]
  · exact h.ok_done rfl rfl (Nat.sub_le _ _) (.inl rfl) ⟨by rintro _ ⟨⟩; exact ht, h.data.codesFit, by simp⟩ h.quiet
  · exact h.ok_raised _ rfl rfl hp (.inl rfl) ⟨by simp, h.data.codesFit, by simp⟩

theorem decodeBody_fine (o0 : OutChan) (s : State) (h : Ready o0 s) : (decodeBody s).fine o0 := by
  rcases decodeBody_cases s with e | e | e | ⟨hc, q, p, hp, e⟩ | ⟨hc, q, e⟩ <;> rw [e]
  · exact h.raised _
  · exact h.raised _
  · exact h.ok_done rfl rfl h.pos (.inl rfl) ⟨h.data.treeFits, h.data.codesFit, h.data.codesMean⟩ ⟨h.quiet.1, rfl, h.quiet.2.2⟩
  · exact h.ok_done rfl rfl hp (.inr hc) ⟨h.data.treeFits, h.data.codesFit, h.data.codesMean⟩ ⟨h.quiet.1, rfl, h.quiet.2.2⟩
  · exact h.ok_raised _ rfl rfl (le_refl _) (.inr hc) ⟨h.data.treeFits, h.data.codesFit, h.data.codesMean⟩

/-- CLOSE leaves the invariant, its output closed on a byte. -/
theorem closeBody_ok (o0 : OutChan) (s : State) (h : Ready o0 s) : BodyOk o0 (closeBody s) := by
  rcases closeBody_cases s with e | ⟨hc, e⟩ <;> rw [e]
  · exact h.raised _
  · refine ⟨h.st, h.err, ?_, ⟨h.data.treeFits, h.data.codesFit, h.data.codesMean⟩, by rintro _ ⟨⟩; exact h.quiet, by simp⟩
    rw [wf_iff]
    refine ⟨h.pos, fun _ => ?_⟩
    simp [Ending.state, OutChan.close, padLength]; omega

theorem BodyOk.discard {o0 : OutChan} {r : Ending} (h : BodyOk o0 r) :
    BodyOk o0 (r.andThen fun t => .done (Machine.discard t)) := by
  cases r with
  | raised e u => exact h
  | done u =>
    refine ⟨h.st, h.err, h.memory, ⟨?_, ?_, ?_⟩, ?_, by simp [Ending.andThen]⟩
    · rintro _ ⟨⟩
    · intro v p hp; simp [Ending.state, Ending.andThen, Machine.discard] at hp
    · intro hc; cases hc
    · rintro _ ⟨⟩; exact h.quiet u rfl

theorem Ending.fine.close {o0 : OutChan} {r : Ending} (h : r.fine o0) : BodyOk o0 (r.andThen closeBody) := by
  cases r with
  | done u => exact closeBody_ok o0 u h
  | raised e u => exact h

theorem compressBody_ok (o0 : OutChan) (s : State) (h : Ready o0 s) : BodyOk o0 (compressBody s) := by
  refine BodyOk.discard (Ending.fine.close ?_)
  exact ((((((countBody_fine o0 s h).andThen (buildBody_fine o0)).andThen (gencodesBody_fine o0)).andThen (wrmagicBody_fine o0)).andThen
    (wrhdrBody_fine o0)).andThen (rewindBody_fine o0)).andThen (encodeBody_fine o0)

theorem decompressBody_ok (o0 : OutChan) (s : State) (h : Ready o0 s) : BodyOk o0 (decompressBody s) := by
  refine BodyOk.discard (Ending.fine.close ?_)
  exact ((rdmagicBody_fine o0 s h).andThen (rdhdrBody_fine o0)).andThen (decodeBody_fine o0)

theorem Ready_of_Inv {s : State} (h : s.Inv) (hs : s.st = .idle) : Ready s.out s :=
  ⟨hs, h.errMode.mpr hs, h.memory, ⟨h.treeFits, h.codesFit, h.codesMean⟩, h.quiet, .inr rfl⟩

theorem resetEngine_inv {s : State} (h : s.Inv) : (resetEngine s).Inv := by
  refine ⟨⟨rfl, rfl, rfl⟩, h.memory, ⟨fun _ => rfl, fun _ => rfl⟩, by simp [resetEngine], by rintro _ ⟨⟩, ?_, by rintro ⟨⟩⟩
  intro v p hp; simp [resetEngine] at hp

theorem exec_command_inv (i : Instr) (s t : State) (hc : i.isCommand = true) (h : s.Inv) (he : exec i s = .next t) : t.Inv := by
  by_cases hi : i = .clear
  · subst hi; cases he; exact resetEngine_inv h
  cases hs : s.st with
  | faulted => rw [exec_faulted i s hs hi] at he; cases he; exact h
  | idle =>
    have hr := Ready_of_Inv h hs
    cases i with
    | clear => exact absurd rfl hi
    | count => rw [exec_run_count s hs] at he; exact Inv_of_finish (countBody_fine _ s hr).bodyOk he
    | build => rw [exec_run_build s hs] at he; exact Inv_of_finish (buildBody_fine _ s hr).bodyOk he
    | gencodes => rw [exec_run_gencodes s hs] at he; exact Inv_of_finish (gencodesBody_fine _ s hr).bodyOk he
    | wrhdr => rw [exec_run_wrhdr s hs] at he; exact Inv_of_finish (wrhdrBody_fine _ s hr).bodyOk he
    | rdhdr => rw [exec_run_rdhdr s hs] at he; exact Inv_of_finish (rdhdrBody_fine _ s hr).bodyOk he
    | wrmagic => rw [exec_run_wrmagic s hs] at he; exact Inv_of_finish (wrmagicBody_fine _ s hr).bodyOk he
    | rdmagic => rw [exec_run_rdmagic s hs] at he; exact Inv_of_finish (rdmagicBody_fine _ s hr).bodyOk he
    | rewind => rw [exec_run_rewind s hs] at he; exact Inv_of_finish (rewindBody_fine _ s hr).bodyOk he
    | encode => rw [exec_run_encode s hs] at he; exact Inv_of_finish (encodeBody_fine _ s hr).bodyOk he
    | decode => rw [exec_run_decode s hs] at he; exact Inv_of_finish (decodeBody_fine _ s hr).bodyOk he
    | close => rw [exec_run_close s hs] at he; exact Inv_of_finish (closeBody_ok _ s hr) he
    | compress => rw [exec_run_compress s hs] at he; exact Inv_of_finish (compressBody_ok _ s hr) he
    | decompress => rw [exec_run_decompress s hs] at he; exact Inv_of_finish (decompressBody_ok _ s hr) he
    | streamMagic m => cases hc
    | streamHdrInternal => cases hc
    | streamHdrLeaf v => cases hc

theorem runCommand_inv (body : State → Ending) (s t : State) (h : s.Inv) (hb : s.st = .idle → BodyOk s.out (body s))
    (he : runCommand body s = .next t) : t.Inv := by
  cases hs : s.st with
  | faulted => simp only [runCommand, hs] at he; cases he; exact h
  | idle => simp only [runCommand, hs] at he; exact Inv_of_finish (hb hs) he

theorem cmdWrite_inv (w : Word) (s t : State) (h : s.Inv) (he : cmdWrite w s = .next t) : t.Inv := by
  unfold cmdWrite at he
  split at he
  · next i hd => exact exec_command_inv i s t (decodeCommand_isCommand w i hd) h he
  · exact runCommand_inv _ s t h (fun hs => (Ready_of_Inv h hs).raised _) he

theorem reply_inv {s : State} (h : s.Inv) (r : Reply) (n : Nat) : ({ s with reply := r, freeCtr := n } : State).Inv :=
  ⟨h.quiet, h.memory, h.errMode, h.errLegal, h.treeFits, h.codesFit, h.codesMean⟩

theorem cutShort_inv (i : Instr) {s : State} (h : s.Inv) : (cutShort i s).Inv := by
  have hr := resetEngine_inv h
  have hm := (wf_iff _ _).mp h.memory
  refine ⟨hr.quiet, ?_, hr.errMode, hr.errLegal, hr.treeFits, hr.codesFit, hr.codesMean⟩
  rw [wf_iff]
  obtain ⟨_, h2, _, h4⟩ := cutShort_out i s
  exact ⟨(cutCursor_spec i _ s).2.1 hm.1, fun hc => by rw [h4 (h2 ▸ hc)]; exact hm.2 (h2 ▸ hc)⟩

theorem startsCommand_isCommand {w : Word} {s : State} {i : Instr} (h : startsCommand w s = some i) : i.isCommand = true := by
  unfold startsCommand at h
  split at h
  · next hd _ => cases h; exact decodeCommand_isCommand w _ hd
  · cases h; rfl
  · cases h

theorem hostAccess_inv (a : Access) (s t : State) (h : s.Inv) (he : hostAccess a s = .next t) : t.Inv := by
  cases a with
  | attachIn bits =>
    cases he
    refine ⟨h.quiet, ?_, h.errMode, h.errLegal, h.treeFits, h.codesFit, h.codesMean⟩
    rw [wf_iff]; exact ⟨Nat.zero_le _, ((wf_iff _ _).mp h.memory).2⟩
  | attachOut =>
    cases he
    refine ⟨h.quiet, ?_, h.errMode, h.errLegal, h.treeFits, h.codesFit, h.codesMean⟩
    rw [wf_iff]; exact ⟨((wf_iff _ _).mp h.memory).1, by simp [OutChan.fresh]⟩
  | write width off v =>
    simp only [hostAccess] at he
    split at he
    · unfold hostWrite at he
      split at he
      · exact cmdWrite_inv v s t h he
      · refine runCommand_inv _ s t h (fun hs => ?_) he
        have hr := Ready_of_Inv h hs
        exact Ready.ok ⟨hr.st, hr.err, hr.memory, ⟨h.treeFits, h.codesFit, h.codesMean⟩, h.quiet, .inr rfl⟩
      all_goals (cases he; exact h)
    · cases he
  | read width off =>
    simp only [hostAccess] at he
    split at he
    · cases he; exact reply_inv h _ _
    · cases he
  | readOut =>
    simp only [hostAccess] at he
    split at he
    · cases he; exact reply_inv h _ _
    · cases he

theorem eventWhileRunning_inv (i : Instr) (e : BusyEvent) (s t : State) (hi : i.isCommand = true) (h : s.Inv)
    (he : eventWhileRunning i e s = .next t) : t.Inv := by
  cases e with
  | access a =>
    simp only [eventWhileRunning, accessWhileRunning] at he
    split at he
    · split at he
      · next u hu => cases he; exact reply_inv (exec_command_inv i s u hi h hu) _ _
      · cases he
      · cases he
    · cases he
  | reset => cases he; exact cutShort_inv i h
  | channelHangs =>
    simp only [eventWhileRunning] at he
    split at he
    · cases he
    · exact exec_command_inv i s t hi h he

theorem eventWhileIdle_inv (e : BusyEvent) (s t : State) (h : s.Inv) (he : eventWhileIdle e s = .next t) : t.Inv := by
  cases e with
  | access a => exact hostAccess_inv a s t h he
  | reset => cases he; exact resetEngine_inv h
  | channelHangs => cases he; exact h

theorem hostMove_inv (m : Move) (s t : State) (h : s.Inv) (he : hostMove m s = .next t) : t.Inv := by
  cases m with
  | reset => cases he; exact resetEngine_inv h
  | access a => exact hostAccess_inv a s t h he
  | during w e =>
    simp only [hostMove, duringCommand] at he
    split at he
    · next i hst => exact eventWhileRunning_inv i e s t (startsCommand_isCommand hst) h he
    · split at he
      · next u hu => exact eventWhileIdle_inv e u t (cmdWrite_inv w s u h hu) he
      · cases he
      · cases he

end Sys2Proof.Machine
end

