-- ==== Sys2Proof/Laws/Minimal.lean ====
section
/-! SUPPORT. Kraft's inequality and the exchange argument: the merge loop is optimal (41_treebuild.md R124). -/

namespace Sys2Proof.Machine

open Sys2Proof

/-- The Kraft sum of a list of lengths, in units of `2 ^ -n`. -/
def kraft (n : Nat) (ls : List Nat) : Nat := (ls.map fun l => 2 ^ (n - l)).sum

theorem kraft_perm (n : Nat) {a b : List Nat} (h : a.Perm b) : kraft n a = kraft n b := (h.map _).sum_eq

/-- The strings that begin with `b`, without it. -/
def branch (b : Bool) (ps : List Bits) : List Bits :=
  ps.filterMap fun p => match p with
    | [] => none
    | x :: q => if x = b then some q else none

theorem mem_branch (b : Bool) (ps : List Bits) (q : Bits) : q ∈ branch b ps ↔ (b :: q) ∈ ps := by
  simp only [branch, List.mem_filterMap]
  constructor
  · rintro ⟨p, hp, h⟩
    cases p with
    | nil => cases h
    | cons x r =>
      simp only at h
      split at h
      · next hx => cases h; subst hx; exact hp
      · cases h
  · intro h; exact ⟨b :: q, h, by simp⟩

theorem kraft_branch (n : Nat) (ps : List Bits) (h : [] ∉ ps) :
    kraft (n + 1) (ps.map List.length) = kraft n ((branch false ps).map List.length) + kraft n ((branch true ps).map List.length) := by
  induction ps with
  | nil => rfl
  | cons p ps ih =>
    have ih := ih (fun h' => h (List.mem_cons_of_mem _ h'))
    cases p with
    | nil => exact absurd List.mem_cons_self h
    | cons b q =>
      cases b <;> simp [kraft, branch] at ih ⊢ <;> omega

/-- Strings of which none is a prefix of another one in the list. -/
def PrefixFree (ps : List Bits) : Prop := ps.Pairwise fun p q => ¬ p <+: q ∧ ¬ q <+: p

theorem PrefixFree.branch {ps : List Bits} (h : PrefixFree ps) (b : Bool) : PrefixFree (branch b ps) := by
  induction ps with
  | nil => exact List.Pairwise.nil
  | cons p ps ih =>
    unfold PrefixFree at h
    rw [List.pairwise_cons] at h
    have ih := ih h.2
    cases p with
    | nil => exact ih
    | cons x q =>
      by_cases hx : x = b
      · subst hx
        have : Machine.branch x ((x :: q) :: ps) = q :: Machine.branch x ps := by simp [Machine.branch]
        rw [this]
        refine List.pairwise_cons.mpr ⟨?_, ih⟩
        intro r hr
        have := h.1 _ ((mem_branch _ _ _).mp hr)
        simpa using this
      · have : Machine.branch b ((x :: q) :: ps) = Machine.branch b ps := by simp [Machine.branch, hx]
        rw [this]; exact ih

/-- Kraft's inequality. -/
theorem kraft_le (n : Nat) (ps : List Bits) (h : PrefixFree ps) (hn : ∀ p ∈ ps, p.length ≤ n) :
    kraft n (ps.map List.length) ≤ 2 ^ n := by
  induction n generalizing ps with
  | zero =>
    rcases ps with _ | ⟨p, _ | ⟨q, ps⟩⟩
    · simp [kraft]
    · simp [kraft]
    · exfalso
      have hp := List.length_eq_zero_iff.mp (Nat.le_zero.mp (hn p (by simp)))
      have := (List.pairwise_cons.mp h).1 q (by simp)
      rw [hp] at this
      exact this.1 List.nil_prefix
  | succ n ih =>
    by_cases h0 : [] ∈ ps
    · have : ps = [[]] := by
        obtain ⟨a, b, rfl⟩ := List.append_of_mem h0
        unfold PrefixFree at h
        rw [List.pairwise_append, List.pairwise_cons] at h
        obtain ⟨_, ⟨h1, _⟩, h2⟩ := h
        cases a with
        | cons x a => exact absurd List.nil_prefix (h2 x (by simp) [] (by simp)).2
        | nil =>
          cases b with
          | nil => rfl
          | cons y b => exact absurd List.nil_prefix (h1 y (by simp)).1
      subst this; simp [kraft]
    · rw [kraft_branch n ps h0]
      have bound : ∀ b, ∀ p ∈ Machine.branch b ps, p.length ≤ n := by
        intro b p hp
        have := hn _ ((mem_branch _ _ _).mp hp)
        simpa using this
      have h1 := ih _ (h.branch false) (bound false)
      have h2 := ih _ (h.branch true) (bound true)
      rw [pow_succ]; omega

/-- The cost of weights with lengths. -/
def pairCost (ps : List (Nat × Nat)) : Nat := (ps.map fun p => p.1 * p.2).sum

theorem swap_le (w x l m : Nat) (h : w ≤ x) (hl : l ≤ m) : w * m + x * l ≤ w * l + x * m := by
  obtain ⟨d, rfl⟩ := Nat.exists_eq_add_of_le h
  obtain ⟨e, rfl⟩ := Nat.exists_eq_add_of_le hl
  nlinarith

/-- Give a least weight the greatest length: that costs no more. -/
theorem pullMax (w l : Nat) (ps : List (Nat × Nat)) (h : ∀ p ∈ ps, w ≤ p.1) :
    ∃ l' ps', ps'.map (·.1) = ps.map (·.1) ∧ (l' :: ps'.map (·.2)).Perm (l :: ps.map (·.2)) ∧
      (∀ p ∈ ps', p.2 ≤ l') ∧ l ≤ l' ∧ w * l' + pairCost ps' ≤ w * l + pairCost ps := by
  induction ps generalizing l with
  | nil => exact ⟨l, [], rfl, .refl _, by simp, le_refl _, le_refl _⟩
  | cons p ps ih =>
    have hw := h p List.mem_cons_self
    have hps := fun q hq => h q (List.mem_cons_of_mem _ hq)
    by_cases hp : p.2 ≤ l
    · obtain ⟨l', ps', h1, h2, h3, h4, h5⟩ := ih l hps
      refine ⟨l', p :: ps', by simp [h1], ?_, ?_, h4, by simp [pairCost] at h5 ⊢; omega⟩
      · simp only [List.map_cons]
        exact (List.Perm.swap _ _ _).trans ((h2.cons _).trans (List.Perm.swap _ _ _))
      · intro q hq
        rcases List.mem_cons.mp hq with rfl | hq
        · exact hp.trans h4
        · exact h3 q hq
    · obtain ⟨l', ps', h1, h2, h3, h4, h5⟩ := ih p.2 hps
      refine ⟨l', (p.1, l) :: ps', by simp [h1], ?_, ?_, by omega, ?_⟩
      · simp only [List.map_cons]
        exact (List.Perm.swap _ _ _).trans ((h2.cons _))
      · intro q hq
        rcases List.mem_cons.mp hq with rfl | hq
        · simp; omega
        · exact h3 q hq
      · have := swap_le w p.1 l p.2 hw (by omega)
        simp [pairCost] at h5 ⊢; omega

theorem dvd_kraft (n m : Nat) (ls : List Nat) (h : ∀ l ∈ ls, l ≤ m) : 2 ^ (n - m) ∣ kraft n ls := by
  induction ls with
  | nil => simp [kraft]
  | cons l ls ih =>
    simp only [kraft, List.map_cons, List.sum_cons]
    refine Nat.dvd_add ?_ (ih fun x hx => h x (List.mem_cons_of_mem _ hx))
    exact pow_dvd_pow 2 (by have := h l List.mem_cons_self; omega)

/-- The two least weights can be given one common greatest length, at no cost, within Kraft's inequality. -/
theorem twoDeepest (n a b la lb : Nat) (ps : List (Nat × Nat)) (hab : a ≤ b) (hb : ∀ p ∈ ps, b ≤ p.1)
    (hn : ∀ l ∈ la :: lb :: ps.map (·.2), l ≤ n) (hk : kraft n (la :: lb :: ps.map (·.2)) ≤ 2 ^ n) :
    ∃ m ps', ps'.map (·.1) = ps.map (·.1) ∧ m + 1 ≤ n ∧ (∀ l ∈ ps'.map (·.2), l ≤ n) ∧
      kraft n ((m + 1) :: (m + 1) :: ps'.map (·.2)) ≤ 2 ^ n ∧
      a * (m + 1) + b * (m + 1) + pairCost ps' ≤ a * la + b * lb + pairCost ps := by
  obtain ⟨la', qs, q1, q2, q3, _, q5⟩ := pullMax a la ((b, lb) :: ps) (by
    intro p hp
    rcases List.mem_cons.mp hp with rfl | hp
    · exact hab
    · exact hab.trans (hb p hp))
  obtain ⟨⟨b', lb'⟩, rs, rfl⟩ : ∃ x rs, qs = x :: rs := by cases qs with
    | nil => simp at q1
    | cons x rs => exact ⟨x, rs, rfl⟩
  simp only [List.map_cons, List.cons.injEq] at q1 q2
  obtain ⟨rfl, q1⟩ := q1
  obtain ⟨m', rs', r1, r2, r3, r4, r5⟩ := pullMax b' lb' rs (by
    intro p hp
    have : p.1 ∈ rs.map (·.1) := List.mem_map_of_mem hp
    rw [q1] at this
    obtain ⟨p', hp', he⟩ := List.mem_map.mp this
    rw [← he]; exact hb p' hp')
  have hperm : (la' :: m' :: rs'.map (·.2)).Perm (la :: lb :: ps.map (·.2)) := (r2.cons _).trans q2
  have hle : ∀ l ∈ la' :: m' :: rs'.map (·.2), l ≤ n := fun l hl => hn l (hperm.mem_iff.mp hl)
  have hml : m' ≤ la' := by
    have : m' ∈ lb' :: rs.map (·.2) := r2.mem_iff.mp List.mem_cons_self
    rcases List.mem_cons.mp this with h | h
    · rw [h]; exact q3 _ List.mem_cons_self
    · obtain ⟨p, hp, he⟩ := List.mem_map.mp h
      rw [← he]; exact q3 p (List.mem_cons_of_mem _ hp)
  have hk' : kraft n (la' :: m' :: rs'.map (·.2)) ≤ 2 ^ n := by rw [kraft_perm n hperm]; exact hk
  have hmn : m' ≤ n := hle m' (by simp)
  have hdvd : 2 ^ (n - m') ∣ kraft n (m' :: rs'.map (·.2)) := dvd_kraft n m' _ (by
    intro l hl
    rcases List.mem_cons.mp hl with rfl | hl
    · exact le_refl _
    · obtain ⟨p, hp, he⟩ := List.mem_map.mp hl
      rw [← he]; exact r3 p hp)
  have hsplit : kraft n (la' :: m' :: rs'.map (·.2)) = 2 ^ (n - la') + kraft n (m' :: rs'.map (·.2)) := rfl
  have hsplit2 : kraft n (m' :: m' :: rs'.map (·.2)) = 2 ^ (n - m') + kraft n (m' :: rs'.map (·.2)) := rfl
  have hsplit3 : kraft n (m' :: rs'.map (·.2)) = 2 ^ (n - m') + kraft n (rs'.map (·.2)) := rfl
  have hpos : 0 < 2 ^ (n - la') := by positivity
  have hkm : kraft n (m' :: m' :: rs'.map (·.2)) ≤ 2 ^ n := by
    rw [hsplit2]
    obtain ⟨c, hc⟩ := hdvd
    obtain ⟨d, hd⟩ : 2 ^ (n - m') ∣ 2 ^ n := pow_dvd_pow 2 (by omega)
    rw [hsplit, hc, hd] at hk'
    rw [hc, hd]
    have : c < d := by
      by_contra hcd
      exact absurd (Nat.mul_le_mul_left (2 ^ (n - m')) (Nat.le_of_not_lt hcd)) (by omega)
    calc 2 ^ (n - m') + 2 ^ (n - m') * c = 2 ^ (n - m') * (c + 1) := by ring
      _ ≤ 2 ^ (n - m') * d := Nat.mul_le_mul_left _ this
  have hm0 : m' ≠ 0 := by
    rintro rfl
    rw [hsplit2, hsplit3] at hkm
    have : 0 < 2 ^ (n - 0) := by positivity
    simp at hkm this
  obtain ⟨m, rfl⟩ := Nat.exists_eq_succ_of_ne_zero hm0
  refine ⟨m, rs', r1.trans q1, hmn, fun l hl => hle l (by simp at hl ⊢; exact .inr (.inr hl)), hkm, ?_⟩
  have := Nat.mul_le_mul_left a hml
  simp only [pairCost, List.map_cons, List.sum_cons] at q5 r5 ⊢
  simp only [Nat.succ_eq_add_one] at *
  omega

/-- The counts of a tree's leaves together. -/
def Tree.total (f : Vector Word 256) : Tree → Nat
  | .leaf v _ => (freqRead f v).toNat
  | .node _ l r => l.total f + r.total f

theorem cost_eq (f : Vector Word 256) (t : Tree) (d : Nat) : t.cost f d = t.cost f 0 + d * t.total f := by
  induction t generalizing d with
  | leaf v w => simp [Tree.cost, Tree.total]
  | node w l r ihl ihr =>
    simp only [Tree.cost, Tree.total]
    rw [ihl (d + 1), ihr (d + 1), ihl (0 + 1), ihr (0 + 1)]; ring

/-- Every entry's weight is its leaves' counts together. -/
def Weighed (f : Vector Word 256) (pq : List Entry) : Prop := ∀ e ∈ pq, e.w.toNat = e.t.total f

theorem Weighed.merge {f : Vector Word 256} {k : Nat} {a b : Entry} {rest : List Entry}
    (h : Weighed f (a :: b :: rest)) (hq : QueueOk (a :: b :: rest)) : Weighed f (pqInsert (mergedEntry k a b) rest) := by
  intro e he
  rcases (mem_pqInsert _ _ _).mp he with rfl | he
  · rw [toNat_merged hq, h a (by simp), h b (by simp)]; rfl
  · exact h e (by simp [he])

theorem perm_map_cons {α β : Type} (g : α → β) (P : List α) (b : β) (l : List β) (h : (P.map g).Perm (b :: l)) :
    ∃ a P', g a = b ∧ P.Perm (a :: P') ∧ (P'.map g).Perm l := by
  have hm : b ∈ P.map g := h.mem_iff.mpr List.mem_cons_self
  obtain ⟨a, ha, rfl⟩ := List.mem_map.mp hm
  obtain ⟨s, t, rfl⟩ := List.append_of_mem ha
  have hp : (s ++ a :: t).Perm (a :: (s ++ t)) := List.perm_middle
  refine ⟨a, s ++ t, rfl, hp, ?_⟩
  exact ((hp.map g).symm.trans h).cons_inv

/-- The cost of trees hung at given depths. -/
def forestCost (f : Vector Word 256) (P : List (Entry × Nat)) : Nat :=
  (P.map fun p => p.1.t.cost f 0 + p.1.w.toNat * p.2).sum

theorem forestCost_perm (f : Vector Word 256) {P Q : List (Entry × Nat)} (h : P.Perm Q) : forestCost f P = forestCost f Q :=
  (h.map _).sum_eq

theorem forestCost_eq (f : Vector Word 256) (P : List (Entry × Nat)) :
    forestCost f P = (P.map fun p => p.1.t.cost f 0).sum + pairCost (P.map fun p => (p.1.w.toNat, p.2)) := by
  induction P with
  | nil => rfl
  | cons p P ih => simp [forestCost, pairCost] at ih ⊢; omega

/-- Entries and new lengths, zipped. -/
theorem exists_relabel (P : List (Entry × Nat)) (qs : List (Nat × Nat))
    (h : qs.map (·.1) = P.map fun p => p.1.w.toNat) :
    ∃ P' : List (Entry × Nat), P'.map (·.1) = P.map (·.1) ∧ (P'.map fun p => (p.1.w.toNat, p.2)) = qs := by
  induction P generalizing qs with
  | nil => simp at h; subst h; exact ⟨[], rfl, rfl⟩
  | cons p P ih =>
    cases qs with
    | nil => simp at h
    | cons q qs =>
      simp at h
      obtain ⟨P', h1, h2⟩ := ih qs h.2
      refine ⟨(p.1, q.2) :: P', by simp [h1], by simp [h2, ← h.1]⟩

theorem mergeAll_minimal (f : Vector Word 256) (n k N : Nat) (pq : List Entry) (h : QueueOk pq) (hw : Weighed f pq)
    (hn : pq.length ≤ n + 1) (h0 : pq ≠ []) (P : List (Entry × Nat)) (hP : (P.map (·.1)).Perm pq)
    (hN : ∀ l ∈ P.map (·.2), l ≤ N) (hK : kraft N (P.map (·.2)) ≤ 2 ^ N) :
    ∀ e, mergeAll n k pq = [e] → e.t.cost f 0 ≤ forestCost f P := by
  have single : ∀ (a : Entry) (P : List (Entry × Nat)), (P.map (·.1)).Perm [a] → a.t.cost f 0 ≤ forestCost f P := by
    intro a P hP
    obtain ⟨⟨x, la⟩, P', rfl, h1, h2⟩ := perm_map_cons _ P a [] hP
    rw [forestCost_perm f h1]
    simp [forestCost]; omega
  induction n generalizing k pq P with
  | zero =>
    rcases pq with _ | ⟨a, _ | ⟨b, rest⟩⟩
    · exact absurd rfl h0
    · intro e he; simp [mergeAll] at he; subst he; exact single a P hP
    · simp at hn
  | succ n ih =>
    rcases pq with _ | ⟨a, _ | ⟨b, rest⟩⟩
    · exact absurd rfl h0
    · intro e he; simp [mergeAll] at he; subst he; exact single a P hP
    · intro e he
      obtain ⟨⟨a', la⟩, P1, rfl, p1, p1'⟩ := perm_map_cons _ P a _ hP
      obtain ⟨⟨b', lb⟩, P2, rfl, p2, p2'⟩ := perm_map_cons _ P1 b _ p1'
      simp only at *
      have hp : P.Perm ((a', la) :: (b', lb) :: P2) := p1.trans (p2.cons _)
      have hs := h.sorted
      rw [List.pairwise_cons, List.pairwise_cons] at hs
      have hrest : ∀ p ∈ P2.map (fun p => (p.1.w.toNat, p.2)), b'.w.toNat ≤ p.1 := by
        intro p hp
        obtain ⟨x, hx, rfl⟩ := List.mem_map.mp hp
        exact hs.2.1 x.1 (p2'.mem_iff.mp (List.mem_map_of_mem hx))
      have hsnd : (P2.map fun p => (p.1.w.toNat, p.2)).map (·.2) = P2.map (·.2) := by simp
      obtain ⟨m, qs, t1, t2, t3, t4, t5⟩ := twoDeepest N a'.w.toNat b'.w.toNat la lb (P2.map fun p => (p.1.w.toNat, p.2))
        (hs.1 b' (by simp)) hrest
        (by intro l hl; rw [hsnd] at hl; exact hN l (((hp.map (·.2)).mem_iff).mpr (by simpa using hl)))
        (by rw [hsnd]; have := kraft_perm N (hp.map (·.2)); simp only [List.map_cons] at this; rw [← this]; exact hK)
      obtain ⟨P3, u1, u2⟩ := exists_relabel P2 qs (by rw [t1]; simp)
      have hsnd3 : P3.map (·.2) = qs.map (·.2) := by rw [← u2]; simp
      have key := ih (k + 1) (pqInsert (mergedEntry k a' b') rest) h.merge (hw.merge h)
        (by simp at hn ⊢; omega) (by intro e; simpa using congrArg List.length e)
        ((mergedEntry k a' b', m) :: P3)
        (by
          simp only [List.map_cons, u1]
          exact (p2'.cons _).trans (pqInsert_perm _ _).symm)
        (by
          intro l hl
          simp only [List.map_cons, List.mem_cons, hsnd3] at hl
          rcases hl with rfl | hl
          · omega
          · exact t3 l hl)
        (by
          have e1 : kraft N ((mergedEntry k a' b', m) :: P3 |>.map (·.2)) = 2 ^ (N - m) + kraft N (qs.map (·.2)) := by
            simp only [List.map_cons, hsnd3]; rfl
          have e2 : kraft N ((m + 1) :: (m + 1) :: qs.map (·.2)) = 2 ^ (N - (m + 1)) + (2 ^ (N - (m + 1)) + kraft N (qs.map (·.2))) := rfl
          have e3 : N - m = N - (m + 1) + 1 := by omega
          rw [e1, e3, pow_succ]; rw [e2] at t4; omega)
        e (by simpa [mergeAll] using he)
      refine key.trans ?_
      rw [forestCost_perm f hp, forestCost_eq, forestCost_eq]
      have c1 : (mergedEntry k a' b').t.cost f 0 = a'.t.cost f 0 + b'.t.cost f 0 + (a'.w.toNat + b'.w.toNat) := by
        simp only [mergedEntry, Tree.cost]
        rw [cost_eq f a'.t, cost_eq f b'.t, ← hw a' (by simp), ← hw b' (by simp)]; omega
      have c2 : (P3.map fun p => p.1.t.cost f 0) = P2.map fun p => p.1.t.cost f 0 := by
        have := congrArg (List.map fun e : Entry => e.t.cost f 0) u1
        simpa only [List.map_map, Function.comp_def] using this
      simp only [List.map_cons, List.sum_cons, c1, c2, u2, pairCost, toNat_merged (k := k) h] at t5 ⊢
      simp only [Nat.mul_add, Nat.mul_one, Nat.add_mul] at t5 ⊢
      omega

end Sys2Proof.Machine
end

