-- ==== Sys2Proof/Laws/PerInstr.lean ====
section
/-! SUPPORT. The family `EncodingSize`: how many bits the encoding of each instruction takes, and that a command
word's zero field is zero (30_encoding.md R81, R82, R88). -/

namespace Sys2Proof.Laws.EncodingSize

open Sys2Proof

/-- The lengths of 30_encoding.md R81 (32 bits), R82 (1 and 10 bits) and R88 (32 bits, of which 31:8 are 0). -/
def Statement (i : Instr) : Prop :=
  (encode i).size = (match i with | .streamHdrInternal => 1 | .streamHdrLeaf _ => 10 | _ => 32) ∧
  ∀ w : Word, encode i = .command w → w.extractLsb' 8 24 = 0#24

theorem clear : Statement .clear := ⟨rfl, by rintro _ ⟨⟩; rfl⟩
theorem count : Statement .count := ⟨rfl, by rintro _ ⟨⟩; rfl⟩
theorem build : Statement .build := ⟨rfl, by rintro _ ⟨⟩; rfl⟩
theorem gencodes : Statement .gencodes := ⟨rfl, by rintro _ ⟨⟩; rfl⟩
theorem wrhdr : Statement .wrhdr := ⟨rfl, by rintro _ ⟨⟩; rfl⟩
theorem rdhdr : Statement .rdhdr := ⟨rfl, by rintro _ ⟨⟩; rfl⟩
theorem wrmagic : Statement .wrmagic := ⟨rfl, by rintro _ ⟨⟩; rfl⟩
theorem rdmagic : Statement .rdmagic := ⟨rfl, by rintro _ ⟨⟩; rfl⟩
theorem rewind : Statement .rewind := ⟨rfl, by rintro _ ⟨⟩; rfl⟩
theorem encode : Statement .encode := ⟨rfl, by rintro _ ⟨⟩; rfl⟩
theorem decode : Statement .decode := ⟨rfl, by rintro _ ⟨⟩; rfl⟩
theorem close : Statement .close := ⟨rfl, by rintro _ ⟨⟩; rfl⟩
theorem compress : Statement .compress := ⟨rfl, by rintro _ ⟨⟩; rfl⟩
theorem decompress : Statement .decompress := ⟨rfl, by rintro _ ⟨⟩; rfl⟩
theorem streamMagic (m : Word) : Statement (.streamMagic m) :=
  ⟨by simp [Sys2Proof.encode, Fetched.size, Machine.length_bitsMsb], by rintro _ ⟨⟩⟩
theorem streamHdrInternal : Statement .streamHdrInternal := ⟨rfl, by rintro _ ⟨⟩⟩
theorem streamHdrLeaf (v : SymField) : Statement (.streamHdrLeaf v) :=
  ⟨by simp [Sys2Proof.encode, Fetched.size, Machine.length_bitsMsb], by rintro _ ⟨⟩⟩

end Sys2Proof.Laws.EncodingSize
end

