-- ==== Sys2Proof/Laws/Steps.lean ====
section
/-! SUPPORT. Runs of the engine's own steps inside RDHDR, DECODE and BUILD (log 6). -/

namespace Sys2Proof.Machine

open Sys2Proof

/-- The state the end of a header leaves. -/
def endHeader (u : State) : HeaderEnd → State
  | .tree t rest => { u with tree := some t, rd := .off, inp := u.inp.leaving rest }
  | .truncated => takeFault u .truncatedHeaderError { u with inp := u.inp.toEnd }
  | .malformed rest => takeFault u .malformedHeaderError { u with inp := u.inp.leaving rest }

theorem run_header (room : Nat) (os : List (Option Tree)) (bits : Bits) (u : State)
    (hs : u.st = .idle) (hr : u.rd = .header room os) (hc : u.cur = none) (hq : u.pq = [])
    (hp : u.inp.pos ≤ u.inp.bits.length) (hb : u.inp.rest = bits) :
    ∃ n, runSteps n u = .next (endHeader u (readHeader room os bits)) := by
  induction room, os, bits using readHeader.induct generalizing u with
  | case1 os bits =>
    have hl := leaving_eq u.inp [] bits (by simpa using hb) hp
    refine ⟨1, run_succ 0 _ _ ?_⟩
    simp only [step, stepOf, hr, headerStep, if_true, runCommand, hs, finish, endHeader, readHeader, hl]
    rfl
  | case2 room os =>
    refine ⟨1, run_succ 0 _ _ ?_⟩
    simp only [step, stepOf, hr, headerStep, hb, decode, decodeHeader, runCommand, hs, finish, endHeader, readHeader]
    rw [if_neg (by omega)]
    rfl
  | case3 room os bits ih =>
    have hlen := congrArg List.length hb
    rw [rest_length] at hlen; simp at hlen
    obtain ⟨n, hn⟩ := ih { u with inp := { u.inp with pos := u.inp.pos + 1 }, rd := .header room (none :: os) } hs rfl hc hq
      (by simp; omega) (by rw [rest_advance, hb]; rfl)
    refine ⟨n + 1, ?_⟩
    rw [run_succ n _ _ ?_, hn]
    · simp only [readHeader]
      cases readHeader room (none :: os) bits <;> rfl
    · simp only [step, stepOf, hr, headerStep, hb, decode, decodeHeader]
      rw [if_neg (by omega), exec_run_streamHdrInternal _ (by exact hs)]
      simp [streamHdrInternalBody, Reader.place, feedInternal, applyFed, finish, tokenLength]
  | case4 room os bits hl =>
    refine ⟨1, run_succ 0 _ _ ?_⟩
    simp only [step, stepOf, hr, headerStep, hb, decode, decodeHeader, readHeader]
    rw [if_neg (by omega), if_neg (by omega), if_pos hl]
    simp only [runCommand, hs, finish, endHeader]
    rfl
  | case5 room os bits hl hf =>
    have hlen := congrArg List.length hb
    rw [rest_length] at hlen; simp at hlen
    have hlv : u.inp.leaving (bits.drop 9) = { u.inp with pos := u.inp.pos + 10 } := by
      have := leaving_eq u.inp (true :: bits.take 9) (bits.drop 9) (by rw [hb]; simp) hp
      rw [this]; simp; omega
    refine ⟨1, run_succ 0 _ _ ?_⟩
    simp only [step, stepOf, hr, headerStep, hb, decode, decodeHeader, readHeader]
    rw [if_neg (by omega), if_pos (by omega), if_neg hl, hf]
    simp only [endHeader, hlv]
    rw [exec_run_streamHdrLeaf _ _ (by exact hs)]
    simp only [streamHdrLeafBody, Reader.place, hf, applyFed, finish, tokenLength]
    rfl
  | case6 room os bits hl t hf =>
    have hlen := congrArg List.length hb
    rw [rest_length] at hlen; simp at hlen
    have hlv : u.inp.leaving (bits.drop 9) = { u.inp with pos := u.inp.pos + 10 } := by
      have := leaving_eq u.inp (true :: bits.take 9) (bits.drop 9) (by rw [hb]; simp) hp
      rw [this]; simp; omega
    refine ⟨1, run_succ 0 _ _ ?_⟩
    simp only [step, stepOf, hr, headerStep, hb, decode, decodeHeader, readHeader]
    rw [if_neg (by omega), if_pos (by omega), if_neg hl, hf]
    simp only [endHeader, hlv]
    rw [exec_run_streamHdrLeaf _ _ (by exact hs)]
    simp only [streamHdrLeafBody, Reader.place, hf, applyFed, finish, tokenLength]
  | case7 room os bits hl r os' hf ih =>
    have hlen := congrArg List.length hb
    rw [rest_length] at hlen; simp at hlen
    have hrr : r = room := by
      unfold feedLeaf at hf
      simp only at hf
      split at hf
      · cases hf
      · exact deliver_more _ _ _ _ _ hf
    subst hrr
    obtain ⟨n, hn⟩ := ih { u with inp := { u.inp with pos := u.inp.pos + 10 }, rd := .header r os' } hs rfl hc hq
      (by simp; omega) (by rw [rest_advance, hb]; rfl)
    refine ⟨n + 1, ?_⟩
    rw [run_succ n _ _ ?_, hn]
    · simp only [readHeader]
      rw [if_neg hl, hf]
      simp only
      cases readHeader r os' (bits.drop 9) <;> rfl
    · simp only [step, stepOf, hr, headerStep, hb, decode, decodeHeader]
      rw [if_neg (by omega), if_pos (by omega)]
      simp only
      rw [exec_run_streamHdrLeaf _ _ (by exact hs)]
      simp only [streamHdrLeafBody, Reader.place, hf, applyFed, finish, tokenLength]

/-- The state the end of a walk leaves, `o0` the output before DECODE. -/
def endWalk (o0 : OutChan) (u : State) : WalkEnd → State
  | .stopped o rest => { u with out := o, inp := u.inp.leaving rest, cur := none, rd := .off }
  | .truncated o =>
    takeFault { u with out := o0 } .truncatedBodyError { u with out := o, inp := u.inp.toEnd }

theorem run_walk (w : Weight) (l r : Tree) (start : Nat) (o0 : OutChan) (bits : Bits) :
    ∀ (cw : Weight) (cl cr : Tree) (u : State),
    u.st = .idle → u.rd = .body start → u.cur = some (.node cw cl cr) → u.tree = some (.node w l r) →
    u.inp.pos ≤ u.inp.bits.length → u.inp.rest = bits → start ≤ u.out.bits.length → u.out.firstBits start = o0 →
    ∃ n, runSteps n u = .next (endWalk o0 u (walkBits (.node w l r) (.node cw cl cr) u.out bits)) := by
  induction bits with
  | nil =>
    intro cw cl cr u hs hr hc _ _ hb _ ho
    have hbit : u.inp.readBits 1 = (none, u.inp.toEnd) := by
      have hl := congrArg List.length hb
      rw [rest_length] at hl
      rw [InChan.readBits, if_neg (by simp at hl; omega)]; rfl
    refine ⟨1, run_succ 0 _ _ ?_⟩
    simp only [step, stepOf, hr, hc, runWalkStep, hs, walkStep, hbit, finish, outBeforeDecode, ho, walkBits, endWalk]
  | cons b bs ih =>
    intro cw cl cr u hs hr hc ht hp hb hst0 ho
    have hlen := congrArg List.length hb
    rw [rest_length] at hlen; simp at hlen
    have hbit : u.inp.readBits 1 = (some (if b then 1#1 else 0#1), { u.inp with pos := u.inp.pos + 1 }) := by
      apply readBits_some _ _ bs _ hp
      rw [hb]; cases b <;> rfl
    have hb1 : ((if b then 1#1 else 0#1) == 1#1) = b := by cases b <;> rfl
    have hadv : InChan.rest { u.inp with pos := u.inp.pos + 1 } = bs := by rw [rest_advance, hb]; rfl
    have hst : step u = finish { u with out := o0 } (walkStep (.node cw cl cr) u) := by
      simp only [step, stepOf, hr, hc, runWalkStep, hs, outBeforeDecode, ho]
    simp only [walkBits]
    simp only [walkStep, hbit, hb1] at hst
    cases hch : (Tree.node cw cl cr).child b with
    | node w' l' r' =>
      rw [hch] at hst
      simp only [finish] at hst
      obtain ⟨n, hn⟩ := ih w' l' r' { u with inp := { u.inp with pos := u.inp.pos + 1 }, cur := some (.node w' l' r') } hs hr rfl ht
        (by simp; omega) hadv hst0 ho
      refine ⟨n + 1, ?_⟩
      rw [run_succ n _ _ hst, hn]
      simp only
      cases walkBits (.node w l r) (.node w' l' r') u.out bs <;> rfl
    | leaf v w' =>
      rw [hch] at hst
      simp only at hst ⊢
      by_cases hv : v = Config.pseudoEof
      · rw [if_pos hv] at hst ⊢
        refine ⟨1, ?_⟩
        rw [run_succ 0 _ _ hst]
        simp only [runSteps, endWalk]; congr 2; simp [InChan.leaving]; omega
      · rw [if_neg hv] at hst ⊢
        simp only [finish] at hst
        obtain ⟨n, hn⟩ := ih w l r { u with inp := { u.inp with pos := u.inp.pos + 1 }, out := u.out.writeBits (BitVec.ofNat 8 v.val), cur := u.tree } hs hr ht ht
          (by simp; omega) hadv (by simp [OutChan.writeBits, OutChan.writeCode]; omega)
          (by rw [← ho]; simp [OutChan.firstBits, OutChan.writeBits, OutChan.writeCode, List.take_append_of_le_length hst0])
        refine ⟨n + 1, ?_⟩
        rw [run_succ n _ _ hst, hn]
        simp only
        cases walkBits (.node w l r) (.node w l r) (u.out.writeBits (BitVec.ofNat 8 v.val)) bs <;> rfl

theorem run_merge (m k : Nat) (l : List Entry) (u : State) (hr : u.rd = .off) (hc : u.cur = none) (hq : u.pq = l) (h0 : l ≠ [])
    (hl : l.length ≤ m + 1) (hk : l.length + k = (seeded u.freq).length) :
    ∃ n, runSteps n u = .next (takeRoot { u with pq := mergeAll m k l }) := by
  induction m generalizing k l u with
  | zero =>
    rcases l with _ | ⟨a, _ | ⟨b, rest⟩⟩
    · exact absurd rfl h0
    · refine ⟨1, run_succ 0 _ _ ?_⟩
      simp [step, stepOf, hr, hc, hq, buildStep, takeRoot, mergeAll]
    · simp at hl
  | succ m ih =>
    rcases l with _ | ⟨a, _ | ⟨b, rest⟩⟩
    · exact absurd rfl h0
    · refine ⟨1, run_succ 0 _ _ ?_⟩
      simp [step, stepOf, hr, hc, hq, buildStep, takeRoot, mergeAll]
    · obtain ⟨n, hn⟩ := ih (k + 1) (pqInsert (mergedEntry k a b) rest) { u with pq := pqInsert (mergedEntry k a b) rest } hr hc rfl
        (by intro e; simpa using congrArg List.length e) (by simp at hl ⊢; omega) (by simp at hk ⊢; omega)
      refine ⟨n + 1, ?_⟩
      rw [run_succ n _ _ ?_, hn]
      · simp [mergeAll]
      · have : (seeded u.freq).length - (a :: b :: rest).length = k := by omega
        simp only [step, stepOf, hr, hc, hq, buildStep, this]

end Sys2Proof.Machine
end

