-- ==== Sys2Proof/Tests/Slice0.lean ====
section
/-! SUPPORT. The model's own tests: WellFormed's checks, words written out from the spec's encodings, one or two
steps per instruction with results from 95_test_vectors.md, and a witness for the hypotheses of every obligation. -/

namespace Sys2Proof.Tests

open Sys2Proof Sys2Proof.Machine

set_option Elab.async false

/-! ### WellFormed -/

theorem test_wf_refuses_leaf_257 : Instr.wf 0 (.streamHdrLeaf 257) = false := by decide
theorem test_wf_refuses_leaf_511 : Instr.wf 0 (.streamHdrLeaf 511) = false := by decide
theorem test_wf_takes_leaf_256 : Instr.wf 0 (.streamHdrLeaf 256) = true := by decide
theorem test_wf_refuses_other_magic : Instr.wf 0xFACE8201 (.streamMagic 0xFACE8200) = false := by decide
theorem test_wf_takes_the_magic : Instr.wf 0xFACE8201 (.streamMagic 0xFACE8201) = true := by decide

/-! ### Decoding: words written out bit by bit (30_encoding.md R81, R82, R89) -/

theorem test_decode_commands :
    decode (.command 0b00000000_00000000_00000000_00000001) = .ok .clear ∧
    decode (.command 0b00000000_00000000_00000000_00000010) = .ok .count ∧
    decode (.command 0b00000000_00000000_00000000_00000011) = .ok .build ∧
    decode (.command 0b00000000_00000000_00000000_00000100) = .ok .gencodes ∧
    decode (.command 0b00000000_00000000_00000000_00000101) = .ok .wrhdr ∧
    decode (.command 0b00000000_00000000_00000000_00000110) = .ok .rdhdr ∧
    decode (.command 0b00000000_00000000_00000000_00000111) = .ok .wrmagic ∧
    decode (.command 0b00000000_00000000_00000000_00001000) = .ok .rdmagic ∧
    decode (.command 0b00000000_00000000_00000000_00001001) = .ok .rewind ∧
    decode (.command 0b00000000_00000000_00000000_00001010) = .ok .encode ∧
    decode (.command 0b00000000_00000000_00000000_00001011) = .ok .decode ∧
    decode (.command 0b00000000_00000000_00000000_00001100) = .ok .close ∧
    decode (.command 0b00000000_00000000_00000000_00010000) = .ok .compress ∧
    decode (.command 0b00000000_00000000_00000000_00010001) = .ok .decompress := by
  refine ⟨?_, ?_, ?_, ?_, ?_, ?_, ?_, ?_, ?_, ?_, ?_, ?_, ?_, ?_⟩ <;> rfl

theorem test_decode_leaf_98 :
    decode (.header [true, false, false, true, true, false, false, false, true, false]) = .ok (.streamHdrLeaf 98) := by
  decide
theorem test_decode_internal : decode (.header [false, true, true]) = .ok .streamHdrInternal := by decide
theorem test_decode_magic :
    decode (.magic [true, true, true, true, true, false, true, false, true, true, false, false, true, true, true, false,
      true, false, false, false, false, false, true, false, false, false, false, false, false, false, false, false]) =
    .ok (.streamMagic 0xFACE8200) := by rfl

/-- V40: words that are no command. -/
theorem test_decode_illegal :
    decode (.command 0x00000000) = .error .reservedOpcode ∧ decode (.command 0x0000000D) = .error .reservedOpcode ∧
    decode (.command 0x0000000F) = .error .reservedOpcode ∧ decode (.command 0x00000012) = .error .reservedOpcode ∧
    decode (.command 0x000000FF) = .error .reservedOpcode ∧ decode (.command 0x00000102) = .error .zeroFieldNotZero ∧
    decode (.command 0x80000001) = .error .zeroFieldNotZero := by
  refine ⟨?_, ?_, ?_, ?_, ?_, ?_, ?_⟩ <;> rfl

theorem test_decode_short : decode (.header []) = .error .noDiscriminator ∧
    decode (.header [true, false]) = .error .shortLeafValue ∧ decode (.magic [true]) = .error .shortMagic := by decide

theorem test_table_word : decodeTableWord 32 0x10 = some .compress ∧ decodeTableWord 32 0xFACE8201 = some (.streamMagic 0xFACE8201) ∧
    decodeTableWord 8 0 = some .streamHdrInternal ∧ decodeTableWord 16 0b1001100001 = some (.streamHdrLeaf 97) := by
  refine ⟨?_, ?_, ?_, ?_⟩ <;> rfl

/-! ### Small states -/

/-- An idle engine with this input, its cursor at 0, and the suggested MAGIC. -/
def withInput (bytes : List Byte) : State :=
  { State.reset with magic := 0xFACE8201, inp := { bits := bitsOfBytes bytes, pos := 0 } }

/-- The tree of V7, of the input "aab". -/
def treeAab : Tree := .node 4 (.leaf 97 2) (.node 2 (.leaf 98 1) (.leaf 256 1))

/-- "aab" counted. -/
def freqAab : Vector Word 256 := (freqZero.set 97 2).set 98 1

/-- "aab" at the start of the input, its tree and its codes in place. -/
def stateAab : State :=
  { withInput [0x61, 0x61, 0x62] with freq := freqAab, tree := some treeAab, code := codeTable treeAab, codesValid := true }

/-- A state in which the host's next move is `m`. -/
def withMove (m : Move) : State := { withInput [0x61, 0x61, 0x62] with moves := [m] }

/-- A faulted engine whose next move is `m`. -/
def faultedWithMove (m : Move) : State := { withMove m with st := .faulted, err := 3 }

/-- Does the result answer a next state of which `p` holds? -/
def nextIs (r : Result) (p : State → Bool) : Bool :=
  match r with
  | .next t => p t
  | .fault _ | .refused _ => false

theorem nextIs_spec {r : Result} {p : State → Bool} (h : nextIs r p = true) : ∃ t, r = .next t ∧ p t = true := by
  cases r with
  | next t => exact ⟨t, rfl, h⟩
  | fault _ => cases h
  | refused _ => cases h

/-! ### Instructions: results from 95_test_vectors.md -/

/-- The corner of 46_control.md R195's example. -/
theorem test_clear : nextIs (exec .clear { stateAab with st := .faulted, err := 1 })
    (fun t => t.st == .idle && t.err == 0 && t.statusWord == 0 && freqRead t.freq 97 == 0) = true := by decide +kernel

/-- 40_count.md R110, worked example. -/
theorem test_count : nextIs (exec .count (withInput [0x61, 0x61, 0x62]))
    (fun t => freqRead t.freq 97 == 2 && freqRead t.freq 98 == 1 && freqRead t.freq 99 == 0 && freqRead t.freq 256 == 1 &&
      t.inp.pos == 24) = true := by decide +kernel

/-- The trailing partial word of 40_count.md R110 is consumed and counted as nothing. -/
theorem test_count_partial : nextIs
    (exec .count { withInput [] with inp := { bits := bitsOfBytes [0x61] ++ [true, true, true], pos := 0 } })
    (fun t => freqRead t.freq 97 == 1 && freqRead t.freq 7 == 0 && t.inp.pos == 11) = true := by decide +kernel

/-- The state that BUILD of "aab" starts in. -/
def counted : State := { withInput [] with freq := freqAab }

/-- 41_treebuild.md R120, worked example. -/
theorem test_build : nextIs (exec .build counted) (fun t => t.tree == some treeAab && t.pq.isEmpty) = true := by
  decide +kernel

/-- The same as a next state. -/
theorem build_counted : ∃ t, exec .build counted = .next t ∧ t.tree = some treeAab := by
  obtain ⟨t, h, ht⟩ := nextIs_spec test_build
  rw [Bool.and_eq_true] at ht
  exact ⟨t, h, by simpa using ht.1⟩

/-- V18's counts: of equal weights the smaller symbol leaves first and is the left child. -/
theorem test_build_tie : nextIs (exec .build { withInput [] with freq := freqZero.set 0 1 })
    (fun t => t.tree == some (.node 2 (.leaf 0 1) (.leaf 256 1))) = true := by decide +kernel

/-- 42_codegen.md R135, worked example. -/
theorem test_gencodes : nextIs (exec .gencodes { withInput [] with tree := some treeAab })
    (fun t => codeRead t.code 97 == some [false] && codeRead t.code 98 == some [true, false] &&
      codeRead t.code 256 == some [true, true] && codeRead t.code 99 == none && t.codesValid) = true := by decide +kernel

/-- V32: the header of "aab". -/
theorem test_wrhdr : nextIs (exec .wrhdr stateAab)
    (fun t => t.out.bits == bitsOfBytes [0x4C, 0x29, 0x8B, 0x00]) = true := by decide +kernel

/-- 43_header.md R147, worked example. -/
theorem test_rdhdr : nextIs (exec .rdhdr (withInput [0x4C, 0x29, 0x8B, 0x00]))
    (fun t => t.tree == some (.node 0 (.leaf 97 0) (.node 0 (.leaf 98 0) (.leaf 256 0))) && t.inp.pos == 32) = true := by
  decide +kernel

/-- V27: a header cut inside the second leaf's value. -/
theorem test_rdhdr_truncated : nextIs (exec .rdhdr (withInput [0x4C, 0x29]))
    (fun t => t.st == .faulted && t.err == 2 && t.inp.pos == 16 && t.tree == none) = true := by decide +kernel

/-- 44_compress.md R160, worked example. -/
theorem test_wrmagic : nextIs (exec .wrmagic (withInput []))
    (fun t => t.out.bits == bitsOfBytes [0xFA, 0xCE, 0x82, 0x01]) = true := by decide +kernel

/-- V24's and V20's first 32 bits. -/
theorem test_rdmagic : nextIs (exec .rdmagic (withInput [0xFA, 0xCE, 0x82, 0x01, 0x4C]))
      (fun t => t.st == .idle && t.inp.pos == 32) = true ∧
    nextIs (exec .rdmagic (withInput [0xFA, 0xCE, 0x82, 0x00, 0x4C]))
      (fun t => t.st == .faulted && t.err == 1 && t.inp.pos == 32) = true := by decide +kernel

/-- 44_compress.md R161, worked example. -/
theorem test_rewind : nextIs (exec .rewind { stateAab with inp := { bits := bitsOfBytes [0x61, 0x61, 0x62], pos := 24 } })
    (fun t => t.inp.pos == 0) = true := by decide +kernel

/-- V37: the body of "aab". -/
theorem test_encode : nextIs (exec .encode stateAab)
    (fun t => t.out.bits == [false, false, true, false, true, true] && t.inp.pos == 24) = true := by decide +kernel

/-- 44_compress.md R162, MissingCodeError after one word: the old bits of OUT stand, and it is not closed. -/
theorem test_encode_missing : nextIs (exec .encode { stateAab with inp := { bits := bitsOfBytes [0x61, 0x63], pos := 0 } })
    (fun t => t.err == 6 && t.inp.pos == 16 && !t.out.closed) = true := by decide +kernel

/-- V20's body: the codes of "aab" and the terminator, two pad bits behind it unread. -/
theorem test_decode_body : nextIs (exec .decode { stateAab with inp := { bits := bitsOfBytes [0x2C], pos := 0 } })
    (fun t => t.out.bits == bitsOfBytes [0x61, 0x61, 0x62] && t.inp.pos == 6 && t.cur == none) = true := by decide +kernel

/-- V29: a root that is the leaf 97. -/
theorem test_decode_root_leaf : nextIs (exec .decode { withInput [0xFF] with tree := some (.leaf 97 0) })
    (fun t => t.err == 4 && t.statusWord == 6 && t.inp.pos == 0) = true := by decide +kernel

/-- V3: ten bits are padded to two bytes. -/
theorem test_close : nextIs (exec .close { withInput [] with out := { bits := [true, true] ++ List.replicate 8 false, closed := false } })
    (fun t => t.out.bytes == [0xC0, 0x00] && t.out.closed) = true := by decide +kernel

/-- V12: COMPRESS of "aab". -/
theorem test_compress : nextIs (exec .compress (withInput [0x61, 0x61, 0x62]))
    (fun t => t.out.bytes == [0xFA, 0xCE, 0x82, 0x01, 0x4C, 0x29, 0x8B, 0x00, 0x2C] && t.out.closed && t.statusWord == 0) = true := by
  decide +kernel

/-- V13: COMPRESS of the empty input. -/
theorem test_compress_empty : nextIs (exec .compress (withInput []))
    (fun t => t.out.bytes == [0xFA, 0xCE, 0x82, 0x01, 0xC0, 0x00]) = true := by decide +kernel

/-- V20: DECOMPRESS of that stream. -/
theorem test_decompress : nextIs (exec .decompress (withInput [0xFA, 0xCE, 0x82, 0x01, 0x4C, 0x29, 0x8B, 0x00, 0x2C]))
    (fun t => t.out.bytes == [0x61, 0x61, 0x62] && t.out.closed && t.inp.pos == 70 && t.statusWord == 0) = true := by
  decide +kernel

/-- P2: the stream without its body. -/
theorem test_decompress_truncated : nextIs (exec .decompress (withInput [0xFA, 0xCE, 0x82, 0x01, 0x4C, 0x29, 0x8B, 0x00]))
    (fun t => t.statusWord == 6 && t.err == 3 && t.inp.pos == 64 && !t.out.closed) = true := by
  decide +kernel

/-- 30_encoding.md R81: the magic field as a token. -/
theorem test_streamMagic : nextIs (exec (.streamMagic 0xFACE8201) { withInput [] with rd := .magic })
      (fun t => t.st == .idle && t.rd == .off) = true ∧
    nextIs (exec (.streamMagic 0xFACE8200) { withInput [] with rd := .magic })
      (fun t => t.err == 1 && t.rd == .off) = true := by decide +kernel

/-- 43_header.md R147: an internal node, then a leaf, then the leaf that finishes the tree. -/
theorem test_streamHdrInternal : nextIs (exec .streamHdrInternal { withInput [] with rd := .header 513 [] })
    (fun t => t.rd == .header 512 [none]) = true := by decide +kernel
theorem test_streamHdrLeaf_left : nextIs (exec (.streamHdrLeaf 97) { withInput [] with rd := .header 512 [none] })
    (fun t => t.rd == .header 511 [some (.leaf 97 0)]) = true := by decide +kernel
theorem test_streamHdrLeaf_right : nextIs
    (exec (.streamHdrLeaf 256) { withInput [] with rd := .header 511 [some (.leaf 97 0)] })
    (fun t => t.rd == .off && t.tree == some (.node 0 (.leaf 97 0) (.leaf 256 0))) = true := by decide +kernel

/-- V42: FREQ[256] over the window. -/
theorem test_window_pseudoEof : nextIs (step (withMove (.access (.write 32 0x800 5)))) (fun t => freqRead t.freq 256 == 1) = true ∧
    nextIs (step (withMove (.access (.read 32 0x800)))) (fun t => t.reply == .word 1) = true := by decide +kernel

/-- P3: SETFREQ 0x61, 5 is a write to 0x584. -/
theorem test_window_setfreq : nextIs (step (withMove (.access (.write 32 0x584 5)))) (fun t => freqRead t.freq 97 == 5) = true := by
  decide +kernel

/-- V40: a word that is no command. -/
theorem test_illegal_command : nextIs (step (withMove (.access (.write 32 0 0x0D))))
    (fun t => t.st == .faulted && t.err == 8 && t.statusWord == 2) = true := by decide +kernel

/-- 45_decompress.md R183: the walk's transition at the end of the input frees what DECODE had appended. -/
theorem test_walk_truncated : nextIs (runSteps 2 (startWalk { stateAab with inp := { bits := [false], pos := 0 } }))
    (fun t => t.err == 3 && t.inp.pos == 1 && t.cur == none && t.rd == .off && t.freeCtr == 1) = true := by decide +kernel

/-- The first step after reset runs a placed command word and a placed token. -/
theorem test_withFetchWord :
    nextIs (step ({ State.reset with out := { bits := [], closed := true } }.withFetchWord 32 0x0C)) (fun t => t.err == 7) = true ∧
    nextIs (step (State.reset.withFetchWord 16 0b1100000000)) (fun t => t.tree == some (.leaf 256 0) && t.inp.pos == 10) = true ∧
    nextIs (step ((withInput []).withFetchWord 32 0xFACE8200)) (fun t => t.err == 1 && t.inp.pos == 32) = true := by
  decide +kernel

/-! ### Witnesses: states and operands that meet the hypotheses of the obligations -/

theorem withMove_quiet (m : Move) : (withMove m).quiet ∧ (withMove m).st = .idle ∧ (withMove m).moves = [m] :=
  ⟨⟨rfl, rfl, rfl⟩, rfl, rfl⟩

theorem faultedWithMove_quiet (m : Move) :
    (faultedWithMove m).quiet ∧ (faultedWithMove m).st = .faulted ∧ (faultedWithMove m).moves = [m] :=
  ⟨⟨rfl, rfl, rfl⟩, rfl, rfl⟩

theorem witness_WhatDecodesIsTheEncoding : decode (.header [false, true]) = .ok .streamHdrInternal := rfl

theorem witness_IllegalCommandWords :
    ((withMove (.access (.write 32 0 0x0D))).quiet ∧ (withMove (.access (.write 32 0 0x0D))).st = .idle ∧
      (withMove (.access (.write 32 0 0x0D))).moves = .access (.write 32 0 0x0D) :: []) ∧
    ((faultedWithMove (.access (.write 32 0 0x102))).quiet ∧ (faultedWithMove (.access (.write 32 0 0x102))).st = .faulted ∧
      (faultedWithMove (.access (.write 32 0 0x102))).moves = .access (.write 32 0 0x102) :: []) ∧
    ∀ w ∈ ([0x00, 0x0D, 0x0F, 0x12, 0xFF, 0x102] : List Word),
      w ∉ ([0x01, 0x02, 0x03, 0x04, 0x05, 0x06, 0x07, 0x08, 0x09, 0x0A, 0x0B, 0x0C, 0x10, 0x11] : List Word) :=
  ⟨withMove_quiet _, faultedWithMove_quiet _, by simp⟩

theorem witness_StepRunsTheDecodedInstruction :
    ((withMove (.access (.write 32 0 2))).quiet ∧ (withMove (.access (.write 32 0 2))).moves = .access (.write 32 0 2) :: [] ∧
      decode (.command 2) = .ok .count) ∧
    (let s : State := { withInput [0x4C] with rd := .header (0 + 1) [] };
      s.rd = .header (0 + 1) [] ∧ decode (.header s.inp.rest) = .ok .streamHdrInternal) ∧
    (let s : State := { withInput [0xFA, 0xCE, 0x82, 0x01] with rd := .magic };
      s.rd = .magic ∧ decode (.magic s.inp.rest) = .ok (.streamMagic 0xFACE8201)) ∧
    (State.reset.quiet ∧ State.reset.moves = []) :=
  ⟨⟨⟨rfl, rfl, rfl⟩, rfl, rfl⟩, ⟨rfl, rfl⟩, ⟨rfl, rfl⟩, ⟨rfl, rfl, rfl⟩, rfl⟩

theorem witness_ResetEventGivesTheResetValues :
    (faultedWithMove .reset).quiet ∧ (faultedWithMove .reset).st = .faulted ∧ (faultedWithMove .reset).moves = .reset :: [] :=
  faultedWithMove_quiet _

theorem witness_ClearResetsTheEngine : (faultedWithMove .reset).st = .faulted ∧ Instr.count ≠ .clear := ⟨rfl, by decide⟩

theorem witness_IgnoredWrites :
    ((faultedWithMove (.access (.write 32 0 1))).quiet ∧ (faultedWithMove (.access (.write 32 0 1))).st = .faulted ∧
      (faultedWithMove (.access (.write 32 0 1))).moves = .access (.write 32 0 1) :: [] ∧ (0 : Offset).toNat % 4 = 0) ∧
    (∀ off ∈ ([0x400, 0x7FC, 0x800] : List Offset), off.toNat % 4 = 0 ∧ ¬(off = 0 ∧ (7 : Word) = 1)) ∧
    (∀ off ∈ ([0x004, 0x008, 0x00C, 0x3FC, 0x804, 0xFFC] : List Offset), off.toNat % 4 = 0 ∧
      (off.toNat = 0x004 ∨ off.toNat = 0x008 ∨ (0x00C ≤ off.toNat ∧ off.toNat < 0x400) ∨ 0x800 < off.toNat)) :=
  ⟨⟨⟨rfl, rfl, rfl⟩, rfl, rfl, rfl⟩, by simp, by simp⟩

theorem witness_HostReadGivesTheRegister :
    (∀ off : Offset, (withMove (.access (.read 32 off))).quiet ∧ (withMove (.access (.read 32 off))).moves = .access (.read 32 off) :: []) ∧
    (∀ off ∈ ([0x000, 0x004, 0x008, 0x00C, 0x3FC, 0x400, 0x7FC, 0x800, 0x804, 0xFFC] : List Offset), off.toNat % 4 = 0) ∧
    (0x400 : Offset).toNat = 0x400 + 4 * (0 : Fin 256).val ∧ (0x7FC : Offset).toNat = 0x400 + 4 * (255 : Fin 256).val ∧
    (0x00C ≤ (0x3FC : Offset).toNat ∧ (0x3FC : Offset).toNat < 0x400) ∧ 0x800 < (0x804 : Offset).toNat :=
  ⟨fun _ => ⟨⟨rfl, rfl, rfl⟩, rfl⟩, by simp, rfl, rfl, by simp, by simp⟩

theorem witness_HostWriteSetsOneCount :
    (∀ off : Offset, (withMove (.access (.write 32 off 9))).quiet ∧ (withMove (.access (.write 32 off 9))).st = .idle ∧
      (withMove (.access (.write 32 off 9))).moves = .access (.write 32 off 9) :: []) ∧
    (0x400 : Offset).toNat = 0x400 + 4 * (0 : Fin 256).val ∧ (0x7FC : Offset).toNat = 0x400 + 4 * (255 : Fin 256).val ∧
    (0x800 : Offset).toNat = 0x800 :=
  ⟨fun _ => withMove_quiet _, rfl, rfl, rfl⟩

theorem witness_FreqFileReadsWhatWasWritten : (255 : Symbol) ≠ Config.pseudoEof ∧ (255 : Symbol) ≠ 256 := by decide

theorem witness_BadWindowAccessIsRefused :
    (withMove (.access (.write 8 0 1))).quiet ∧ ((8 : Nat) ≠ 32 ∨ (0 : Offset).toNat % 4 ≠ 0) ∧
    (withMove (.access (.write 8 0 1))).moves = .access (.write 8 0 1) :: [] ∧
    (withMove (.access (.read 32 2))).quiet ∧ ((32 : Nat) ≠ 32 ∨ (2 : Offset).toNat % 4 ≠ 0) ∧
    (withMove (.access (.read 32 2))).moves = .access (.read 32 2) :: [] :=
  ⟨⟨rfl, rfl, rfl⟩, by decide, rfl, ⟨rfl, rfl, rfl⟩, by decide, rfl⟩

theorem witness_AttachReplacesAChannel :
    ((faultedWithMove (.access (.attachIn [true]))).quiet ∧ (faultedWithMove (.access (.attachIn [true]))).moves = .access (.attachIn [true]) :: []) ∧
    ((withMove (.access .attachOut)).quiet ∧ (withMove (.access .attachOut)).moves = .access .attachOut :: []) :=
  ⟨⟨⟨rfl, rfl, rfl⟩, rfl⟩, ⟨rfl, rfl, rfl⟩, rfl⟩

theorem witness_ClosedOutputIsReadAsBytes :
    (let s : State := { withMove (.access .readOut) with out := { bits := List.replicate 8 true, closed := true } };
      s.quiet ∧ s.moves = .access .readOut :: [] ∧ s.out.closed = true ∧ s.out.bits.length % 8 = 0) ∧
    ((withMove (.access .readOut)).quiet ∧ (withMove (.access .readOut)).moves = .access .readOut :: [] ∧ (withMove (.access .readOut)).out.closed = false) :=
  ⟨⟨⟨rfl, rfl, rfl⟩, rfl, rfl, rfl⟩, ⟨rfl, rfl, rfl⟩, rfl, rfl⟩

/-- One state and word for each clause: ENCODE reaches its channel in `stateAab`, and not in `withClosed` or without
codes; a leaf for a root; CLEAR while FAULTED; no command while FAULTED. -/
theorem witness_AccessWhileACommandRuns :
    (∀ e, (withMove (.during 9 e)).quiet ∧ (withMove (.during 9 e)).st = .idle ∧
      (withMove (.during 9 e)).moves = .during 9 e :: []) ∧ decode (.command 9) = .ok .rewind ∧
    (∃ t, exec .rewind { withMove (.during 9 (.access (.read 32 4))) with moves := [], reply := .nothing } = .next t) ∧
    Access.attachOut ≠ .read 32 0x004 ∧ Instr.rewind ∈ ([.count, .rdhdr, .rdmagic, .rewind, .compress, .decompress] : List Instr) ∧
    (∀ e, (faultedWithMove (.during 1 e)).quiet ∧ (faultedWithMove (.during 1 e)).moves = .during 1 e :: []) ∧
    decode (.command 1) = .ok .clear ∧ Instr.clear ∈ ([.clear, .build, .gencodes] : List Instr) ∧
    (stateAab.out.closed = false ∧ stateAab.tree ≠ none ∧ stateAab.codesValid = true ∧ ∃ n l r, stateAab.tree = some (.node n l r)) ∧
    (withInput []).tree = none ∧ (withInput []).codesValid = false ∧
    (∀ n l r, { withInput [] with tree := some (.leaf 256 1) }.tree ≠ some (.node n l r)) ∧
    ((∀ a, (faultedWithMove (.during 9 (.access a))).quiet ∧ (faultedWithMove (.during 9 (.access a))).st = .faulted ∧
      (faultedWithMove (.during 9 (.access a))).moves = .during 9 (.access a) :: []) ∧ (9 : Word) ≠ 1) :=
  ⟨fun _ => withMove_quiet _, rfl, ⟨_, rfl⟩, by decide, by decide, fun _ => ⟨⟨rfl, rfl, rfl⟩, rfl⟩, rfl, by decide,
    ⟨rfl, by simp [stateAab], rfl, _, _, _, rfl⟩, rfl, rfl, by simp, fun _ => faultedWithMove_quiet _, by decide⟩

/-- A command for each clause: ENCODE without codes and DECODE of a leaf root reach no channel, COMPRESS on a closed
output does not get to its REWIND, DECOMPRESS of "aab" is another format; CLEAR while FAULTED. -/
theorem witness_ResetCutsACommandShort :
    (∀ w, (withMove (.during w .reset)).quiet ∧ (withMove (.during w .reset)).st = .idle ∧
      (withMove (.during w .reset)).moves = .during w .reset :: [] ∧
      (withMove (.during w .reset)).inp.pos ≤ (withMove (.during w .reset)).inp.bits.length ∧
      (withMove (.during w .reset)).codesValid = false ∧ (withMove (.during w .reset)).tree = none ∧
      (withMove (.during w .reset)).inp.rest.take 32 ≠ bitsMsb (withMove (.during w .reset)).magic) ∧
    (∃ u, exec .rdmagic { withMove (.during 8 .reset) with moves := [], reply := .nothing } = .next u) ∧
    (let s : State := { withMove (.during 16 .reset) with out := { bits := [], closed := true } };
      s.quiet ∧ s.st = .idle ∧ s.moves = .during 16 .reset :: [] ∧ s.out.closed = true) ∧
    (∀ n l r, { withMove (.during 11 .reset) with tree := some (.leaf 97 0) }.tree ≠ some (.node n l r)) ∧
    decode (.command 8) = .ok .rdmagic ∧ decode (.command 9) = .ok .rewind ∧ decode (.command 10) = .ok .encode ∧
    decode (.command 11) = .ok .decode ∧ decode (.command 12) = .ok .close ∧ decode (.command 3) = .ok .build ∧
    decode (.command 16) = .ok .compress ∧ decode (.command 17) = .ok .decompress ∧
    ((faultedWithMove (.during 1 .reset)).quiet ∧ (faultedWithMove (.during 1 .reset)).moves = .during 1 .reset :: [] ∧
      decode (.command 1) = .ok .clear) :=
  ⟨fun _ => ⟨⟨rfl, rfl, rfl⟩, rfl, rfl, Nat.zero_le _, rfl, rfl,
    show (withInput [0x61, 0x61, 0x62]).inp.rest.take 32 ≠ bitsMsb (withInput []).magic by decide +kernel⟩, ⟨_, rfl⟩,
    ⟨⟨rfl, rfl, rfl⟩, rfl, rfl, rfl⟩, by simp, rfl, rfl, rfl, rfl, rfl, rfl, rfl, rfl, ⟨rfl, rfl, rfl⟩, rfl, rfl⟩

theorem witness_ReadBitsReadsOrReachesTheEnd :
    (let c : InChan := { bits := [true, false, true], pos := 1 };
      c.pos + 2 ≤ c.bits.length ∧ (1 : Nat) < 2 ∧ c.bits.length < c.pos + 3 ∧ (0 : Nat) < 1) := by decide

theorem witness_BytesAreBitsMostSignificantFirst : 1 < ([0x4C, 0x29] : List Byte).length ∧ (7 : Nat) < 8 := by decide

theorem witness_CountCountsEveryWord : (withInput [0x61, 0x61]).st = .idle ∧
    ∀ b : Byte, (withInput [0x61, 0x61]).inp.words.count b ≤ 4294967295 := by
  refine ⟨rfl, fun b => ?_⟩
  have h : (withInput [0x61, 0x61]).inp.words = [0x61, 0x61] := words_whole _
  rw [h]
  exact (List.count_le_length).trans (by decide)

/-- 2^32 words of one value. -/
theorem witness_CountStopsAtAFullCount :
    ∃ (s : State) (ws : List Byte) (b : Byte) (rest : List Byte), s.st = .idle ∧ s.quiet ∧
      s.inp.words = ws ++ b :: rest ∧ ws.count b = 4294967295 ∧ ∀ c : Byte, ws.count c ≤ 4294967295 := by
  generalize 4294967295 = n
  refine ⟨withInput (List.replicate n 0x61 ++ [0x61]), List.replicate n 0x61, 0x61, [], rfl, ⟨rfl, rfl, rfl⟩,
    words_whole _, List.count_replicate_self, fun c => ?_⟩
  exact (List.count_le_length).trans (by simp)

theorem witness_BuildMakesAMergedTree : (withInput [0x61]).st = .idle := rfl

theorem witness_BuildOfTheEmptyTable : State.reset.st = .idle ∧ (∀ n : Fin 256, State.reset.freq[n.val] = 0) ∧
    ∃ u t, exec .build counted = .next u ∧ u.tree = some t :=
  ⟨rfl, fun n => by simp [State.reset], let ⟨u, h, ht⟩ := build_counted; ⟨u, treeAab, h, ht⟩⟩

theorem witness_BuildIsAFunctionOfFreq : counted.st = .idle ∧ { counted with codesValid := true }.st = .idle ∧
    counted.freq = { counted with codesValid := true }.freq := ⟨rfl, rfl, rfl⟩

theorem witness_BuiltTreeIsMinimal : counted.st = .idle ∧ (∃ u, exec .build counted = .next u ∧ u.tree = some treeAab) ∧
    ∀ x ∈ positiveSymbols counted.freq, ∀ y ∈ positiveSymbols counted.freq,
      (fun v : Symbol => if v = 97 then [false] else if v = 98 then [true, false] else [true, true]) x <+:
        (fun v : Symbol => if v = 97 then [false] else if v = 98 then [true, false] else [true, true]) y → x = y := by
  refine ⟨rfl, build_counted, by decide +kernel⟩

theorem witness_QueueKeepsTheOrder :
    (let pq : List Entry := [leafEntry freqAab 98, leafEntry freqAab 256];
      (pq.Pairwise fun a b => a.before b = true) ∧ ∀ x ∈ pq, x.q ≠ (leafEntry freqAab 97).q) ∧
    pqInsert (leafEntry freqAab 97) [leafEntry freqAab 98, leafEntry freqAab 256] =
      leafEntry freqAab 98 :: [leafEntry freqAab 256, leafEntry freqAab 97] ∧
    leafEntry freqAab 97 ∈ [leafEntry freqAab 256, leafEntry freqAab 97] := by decide +kernel

theorem witness_GencodesGivesThePaths : (stateAab.st = .idle ∧ stateAab.tree = some treeAab) ∧
    (counted.st = .idle ∧ counted.quiet ∧ counted.tree = none) := ⟨⟨rfl, rfl⟩, rfl, ⟨rfl, rfl, rfl⟩, rfl⟩

theorem witness_GeneratedCodesArePrefixFree : stateAab.st = .idle ∧ stateAab.tree = some treeAab ∧
    (∃ s', exec .gencodes stateAab = .next s' ∧ codeRead s'.code 97 = some [false] ∧
      codeRead s'.code 98 = some [true, false]) ∧ (97 : Symbol) ≠ 98 ∧ 2 ≤ treeAab.leaves ∧ treeAab.nodes ≤ 513 := by
  refine ⟨rfl, rfl, ⟨_, rfl, ?_, ?_⟩, ?_, ?_, ?_⟩ <;> decide +kernel

theorem witness_BuiltCodesCoverTheTable : counted.st = .idle := rfl

theorem witness_WrhdrAppendsTheHeader :
    (stateAab.st = .idle ∧ stateAab.tree = some treeAab ∧ stateAab.out.closed = false) ∧
    (counted.st = .idle ∧ counted.quiet ∧ (counted.tree = none ∨ counted.out.closed = true)) :=
  ⟨⟨rfl, rfl, rfl⟩, rfl, ⟨rfl, rfl, rfl⟩, .inl rfl⟩

/-- An idle engine with these input bits. -/
def withBits (bits : Bits) : State := { withInput [] with inp := { bits := bits, pos := 0 } }

theorem withBits_spec (bits : Bits) : (withBits bits).st = .idle ∧ (withBits bits).quiet ∧ (withBits bits).inp.rest = bits ∧
    (withBits bits).inp.pos ≤ (withBits bits).inp.bits.length := ⟨rfl, ⟨rfl, rfl, rfl⟩, rfl, Nat.zero_le _⟩

theorem witness_RdhdrInvertsWrhdr : (withBits (treeAab.headerBits ++ [true])).st = .idle ∧ treeAab.nodes ≤ 513 ∧
    (withBits (treeAab.headerBits ++ [true])).inp.rest = treeAab.headerBits ++ [true] := ⟨rfl, by decide, rfl⟩

/-- The tokens of the witnesses: a leaf is followed by what is still due. -/
def tokens (internals leaves : Nat) : List (Option Symbol) := List.replicate internals none ++ List.replicate leaves (some 97)

theorem length_tokens (n m : Nat) : (tokens n m).length = n + m := by simp [tokens]

/-- 43_header.md R147: of `n` internal nodes and `m` leaves, `m` at most `n`, `n + 1 − m` subtrees are due. -/
theorem due_tokens (n m : Nat) (h : m ≤ n) : subtreesDue 1 (tokens n m) = n + 1 - m := by
  have leaves : ∀ (m d : Nat), m ≤ d → subtreesDue (d + 1) (List.replicate m (some 97)) = d + 1 - m := by
    intro m
    induction m with
    | zero => intro d _; rfl
    | succ m ih =>
      intro d h
      obtain ⟨d, rfl⟩ : ∃ k, d = k + 1 := ⟨d - 1, by omega⟩
      rw [List.replicate_succ, subtreesDue, ih d (by omega)]; omega
  have internals : ∀ (n d : Nat) (toks : List (Option Symbol)),
      subtreesDue (d + 1) (List.replicate n none ++ toks) = subtreesDue (d + 1 + n) toks := by
    intro n
    induction n with
    | zero => intro d toks; rfl
    | succ n ih =>
      intro d toks
      rw [List.replicate_succ, List.cons_append, subtreesDue, ih (d + 1) toks]
      congr 1; omega
  rw [tokens, internals n 0, show 0 + 1 + n = n + 1 by omega, leaves m n h]

/-- A cut of V7's header; 400 zero bits and the end; the last place for an end, at a discriminator and in a value. -/
theorem witness_RdhdrTruncatedHeader :
    ((withBits [false, true]).st = .idle ∧ (withBits [false, true]).quiet ∧ treeAab.nodes ≤ 513 ∧
      (withBits [false, true]).inp.rest <+: treeAab.headerBits ∧ (withBits [false, true]).inp.rest ≠ treeAab.headerBits) ∧
    (let s := withBits ((tokens 400 0).flatMap tokenBits ++ []);
      s.st = .idle ∧ s.quiet ∧ (tokens 400 0).length ≤ 512 ∧ 0 < subtreesDue 1 (tokens 400 0) ∧
      s.inp.rest = (tokens 400 0).flatMap tokenBits ++ []) ∧
    (let s := withBits ((tokens 256 256).flatMap tokenBits ++ true :: List.replicate 8 true);
      s.st = .idle ∧ s.quiet ∧ (tokens 256 256).length ≤ 512 ∧ 0 < subtreesDue 1 (tokens 256 256) ∧
      (List.replicate 8 true).length < 9 ∧ s.inp.rest = (tokens 256 256).flatMap tokenBits ++ true :: List.replicate 8 true) :=
  ⟨⟨rfl, ⟨rfl, rfl, rfl⟩, by decide, by decide +kernel, by decide +kernel⟩,
    ⟨rfl, ⟨rfl, rfl, rfl⟩, by rw [length_tokens]; decide, by rw [due_tokens] <;> omega, rfl⟩,
    rfl, ⟨rfl, rfl, rfl⟩, by rw [length_tokens], by rw [due_tokens] <;> omega, by decide, rfl⟩

/-- At the root, after a leaf, and at the last node there is room for, with the least and the greatest illegal value. -/
theorem witness_RdhdrIllegalLeafValue :
    ∀ x ∈ ([(0, 0, 257), (1, 1, 300), (512, 0, 511), (256, 256, 511)] : List (Nat × Nat × SymField)),
    let s := withBits ((tokens x.1 x.2.1).flatMap tokenBits ++ (true :: bitsMsb x.2.2) ++ []);
    s.st = .idle ∧ s.quiet ∧ (tokens x.1 x.2.1).length ≤ 512 ∧ 0 < subtreesDue 1 (tokens x.1 x.2.1) ∧ 256 < x.2.2.toNat ∧
      s.inp.rest = (tokens x.1 x.2.1).flatMap tokenBits ++ (true :: bitsMsb x.2.2) ++ [] := by
  intro x h
  have hx : x.2.1 ≤ x.1 ∧ x.1 + x.2.1 ≤ 512 ∧ 256 < x.2.2.toNat := by
    simp only [List.mem_cons, List.not_mem_nil, or_false] at h
    rcases h with rfl | rfl | rfl | rfl <;> decide
  refine ⟨rfl, ⟨rfl, rfl, rfl⟩, by rw [length_tokens]; omega, by rw [due_tokens _ _ hx.1]; omega, hx.2.2, rfl⟩

/-- A tree that goes left `n` times. -/
def comb : Nat → Tree
  | 0 => .leaf 256 0
  | n + 1 => .node 0 (comb n) (.leaf 97 0)

theorem nodes_comb (n : Nat) : (comb n).nodes = 2 * n + 1 := by
  induction n with
  | zero => rfl
  | succ n ih => simp only [comb, Tree.nodes, ih]; omega

theorem witness_RdhdrTooManyNodes :
    (∀ x ∈ ([(513, 0), (257, 256)] : List (Nat × Nat)),
      let s := withBits ((tokens x.1 x.2).flatMap tokenBits ++ []);
      s.st = .idle ∧ s.quiet ∧ (tokens x.1 x.2).length = 513 ∧ 0 < subtreesDue 1 (tokens x.1 x.2) ∧
        s.inp.rest = (tokens x.1 x.2).flatMap tokenBits ++ []) ∧
    (let s := withBits ((comb 257).headerBits ++ []);
      s.st = .idle ∧ s.quiet ∧ 513 < (comb 257).nodes ∧ s.inp.rest = (comb 257).headerBits ++ []) := by
  refine ⟨fun x h => ?_, rfl, ⟨rfl, rfl, rfl⟩, by rw [nodes_comb]; decide, rfl⟩
  have hx : x.2 ≤ x.1 ∧ x.1 + x.2 = 513 := by
    simp only [List.mem_cons, List.not_mem_nil, or_false] at h
    rcases h with rfl | rfl <;> decide
  exact ⟨rfl, ⟨rfl, rfl, rfl⟩, by rw [length_tokens]; omega, by rw [due_tokens _ _ hx.1]; omega, rfl⟩

/-- No, one and two left children read already, with an open node outside them and without. -/
theorem witness_StreamTokensRunInTheReader : (withInput []).st = .idle ∧ (withInput []).cur = none ∧ (withInput []).pq = [] ∧
    (97 : SymField).toNat = (97 : Symbol).val ∧ 256 < (257 : SymField).toNat ∧
    (∀ lefts ∈ ([[], [.leaf 97 0], [.leaf 97 0, treeAab]] : List (List Tree)),
      { withInput [] with rd := .header (512 + 1) (lefts.map some) }.rd = .header (512 + 1) (lefts.map some) ∧
      { withInput [] with rd := .header (512 + 1) (lefts.map some ++ none :: []) }.rd =
        .header (512 + 1) (lefts.map some ++ none :: [])) ∧
    { withInput [] with rd := .header 0 [] }.rd = .header 0 [] ∧ (withInput []).magic = 0xFACE8201 ∧
    (0xFACE8200 : Word) ≠ (withInput []).magic :=
  ⟨rfl, rfl, rfl, rfl, by decide, fun _ _ => ⟨rfl, rfl⟩, rfl, rfl, by decide⟩

theorem witness_RdhdrIsItsTokenSteps : ∃ t, exec .rdhdr (withBits treeAab.headerBits) = .next t ∧
    (withBits treeAab.headerBits).st = .idle ∧ (withBits treeAab.headerBits).quiet ∧
    (withBits treeAab.headerBits).inp.pos ≤ (withBits treeAab.headerBits).inp.bits.length :=
  ⟨_, rfl, rfl, ⟨rfl, rfl, rfl⟩, Nat.zero_le _⟩

/-- An idle engine whose output is closed. -/
def withClosed : State := { stateAab with out := { bits := [], closed := true } }

theorem witness_closed : withClosed.st = .idle ∧ withClosed.quiet ∧ withClosed.out.closed = true := ⟨rfl, ⟨rfl, rfl, rfl⟩, rfl⟩

theorem witness_WrmagicAppendsTheMagic : ((withInput []).st = .idle ∧ (withInput []).out.closed = false) ∧
    (withClosed.st = .idle ∧ withClosed.quiet ∧ withClosed.out.closed = true) := ⟨⟨rfl, rfl⟩, witness_closed⟩

theorem witness_RewindGoesToTheStart : stateAab.st = .idle := rfl

theorem witness_EncodeAppendsTheBody : stateAab.st = .idle ∧ stateAab.codesValid = true ∧ stateAab.out.closed = false ∧
    bodyBits (codeRead stateAab.code) stateAab.inp.words = some [false, false, true, false, true, true] :=
  ⟨rfl, rfl, rfl, by decide +kernel⟩

/-- V7's codes with the input "ac", and a table without a code for 256. -/
theorem witness_EncodeMissingCode :
    (let s : State := { stateAab with inp := { bits := bitsOfBytes [0x61, 0x63], pos := 0 } };
      s.st = .idle ∧ s.quiet ∧ s.codesValid = true ∧ s.out.closed = false ∧ s.inp.words = [0x61] ++ 0x63 :: [] ∧
      (codesOfWords (codeRead s.code) [0x61]).isSome = true ∧ codeRead s.code (byteSymbol 0x63) = none) ∧
    (let s : State := { stateAab with code := codeWrite codeNone 97 [false], inp := { bits := bitsOfBytes [0x61], pos := 0 } };
      s.st = .idle ∧ s.quiet ∧ s.codesValid = true ∧ s.out.closed = false ∧
      (codesOfWords (codeRead s.code) s.inp.words).isSome = true ∧ codeRead s.code Config.pseudoEof = none) :=
  ⟨⟨rfl, ⟨rfl, rfl, rfl⟩, rfl, rfl, by decide +kernel, by decide +kernel, by decide +kernel⟩,
    rfl, ⟨rfl, rfl, rfl⟩, rfl, rfl, by decide +kernel, by decide +kernel⟩

theorem witness_ClosePadsToAByte : (stateAab.st = .idle ∧ stateAab.out.closed = false) ∧
    (withClosed.st = .idle ∧ withClosed.quiet ∧ withClosed.out.closed = true) := ⟨⟨rfl, rfl⟩, witness_closed⟩

/-- With a closed output every clause but the first and the missing-tree and missing-codes halves; those in `counted`. -/
theorem witness_FailedPreconditionIsSequenceError :
    (withClosed.st = .idle ∧ withClosed.quiet ∧ withClosed.out.closed = true) ∧
    (counted.st = .idle ∧ counted.quiet ∧ counted.tree = none ∧ counted.codesValid = false) :=
  ⟨witness_closed, rfl, ⟨rfl, rfl, rfl⟩, rfl, rfl⟩

theorem launch_aab : (withInput [0x61, 0x61, 0x62]).launch [0x61, 0x61, 0x62] := ⟨⟨rfl, rfl⟩, ⟨rfl, rfl, rfl⟩, rfl, rfl⟩

theorem counts_aab (b : Byte) : ([0x61, 0x61, 0x62] : List Byte).count b ≤ 4294967295 :=
  (List.count_le_length).trans (by decide)

theorem witness_CompressWritesTheStream : (withInput [0x61, 0x61, 0x62]).launch [0x61, 0x61, 0x62] ∧
    ∀ b : Byte, ([0x61, 0x61, 0x62] : List Byte).count b ≤ 4294967295 := ⟨launch_aab, counts_aab⟩

theorem witness_RdmagicComparesTheMagic :
    (let s := withBits (bitsMsb (0xFACE8201 : Word) ++ [true]);
      s.st = .idle ∧ s.quiet ∧ s.inp.rest = bitsMsb (0xFACE8201 : Word) ++ [true] ∧ (0xFACE8201 : Word) = s.magic) ∧
    (let s := withBits (bitsMsb (0xFACE8200 : Word) ++ [true]);
      s.st = .idle ∧ s.quiet ∧ s.inp.rest = bitsMsb (0xFACE8200 : Word) ++ [true] ∧ (0xFACE8200 : Word) ≠ s.magic) ∧
    (let s := withBits (List.replicate 31 true);
      s.st = .idle ∧ s.quiet ∧ s.inp.rest.length < 32) :=
  ⟨⟨rfl, ⟨rfl, rfl, rfl⟩, rfl, rfl⟩, ⟨rfl, ⟨rfl, rfl, rfl⟩, rfl, by decide⟩, rfl, ⟨rfl, rfl, rfl⟩, by decide⟩

/-- The state with V7's tree and the body of "aab" and one more bit at the cursor. -/
def atBody : State := { stateAab with inp := { bits := [false, false, true, false, true, true, true], pos := 0 } }

theorem witness_DecodeInvertsEncode : atBody.st = .idle ∧ atBody.tree = some treeAab ∧ atBody.out.closed = false ∧
    bodyBits treeAab.codeOf [0x61, 0x61, 0x62] = some [false, false, true, false, true, true] ∧
    atBody.inp.rest = [false, false, true, false, true, true] ++ [true] ∧ atBody.inp.pos ≤ atBody.inp.bits.length :=
  ⟨rfl, rfl, rfl, by decide +kernel, rfl, Nat.zero_le _⟩

/-- Over V7's tree: the body of "aab", which spells it; and two codes with no terminator, which spell nothing. -/
theorem witness_DecodeAlwaysEnds :
    (atBody.st = .idle ∧ atBody.quiet ∧ atBody.tree = some treeAab ∧ atBody.out.closed = false ∧
      atBody.inp.pos ≤ atBody.inp.bits.length ∧ 2 ≤ treeAab.leaves ∧
      treeAab.spells [0x61, 0x61, 0x62] [false, false, true, false, true, true] ∧
      atBody.inp.rest = [false, false, true, false, true, true] ++ [true]) ∧
    (∀ (ws : List Byte) (q rest : Bits), treeAab.spells ws q → (withBits [false, true, false]).inp.rest ≠ q ++ rest) ∧
    (let s : State := { atBody with tree := some (.leaf 256 0) };
      s.st = .idle ∧ s.quiet ∧ s.tree = some (.leaf 256 0)) ∧
    (let s : State := { atBody with tree := some (.leaf 97 0) };
      s.st = .idle ∧ s.quiet ∧ s.tree = some (.leaf 97 0) ∧ (97 : Symbol) ≠ 256) := by
  refine ⟨⟨rfl, ⟨rfl, rfl, rfl⟩, rfl, rfl, Nat.zero_le _, by decide, ?_, rfl⟩, ?_, ⟨rfl, ⟨rfl, rfl, rfl⟩, rfl⟩,
    rfl, ⟨rfl, rfl, rfl⟩, rfl, by decide⟩
  · exact ⟨[false], _, by decide +kernel, rfl, [false], _, by decide +kernel, rfl, [true, false], _, by decide +kernel, rfl,
      show (Config.pseudoEof, [true, true]) ∈ treeAab.paths by decide +kernel⟩
  · intro ws q rest h e
    have hw := walkBits_spells 4 (.leaf 97 2) (.node 2 (.leaf 98 1) (.leaf 256 1)) ws q OutChan.fresh rest h
    rw [← e] at hw
    cases hw

/-- A body that ends, and one that is cut short. -/
theorem witness_DecodeIsItsWalkSteps :
    (∃ t, exec .decode atBody = .next t ∧ atBody.st = .idle ∧ atBody.quiet ∧ atBody.inp.pos ≤ atBody.inp.bits.length ∧
      atBody.tree = some (.node 4 (.leaf 97 2) (.node 2 (.leaf 98 1) (.leaf 256 1))) ∧ atBody.out.closed = false) ∧
    (let s : State := { stateAab with inp := { bits := [false, true], pos := 0 } };
      ∃ t, exec .decode s = .next t ∧ t.st = .faulted ∧ s.st = .idle ∧ s.quiet ∧ s.inp.pos ≤ s.inp.bits.length ∧
      s.tree = some (.node 4 (.leaf 97 2) (.node 2 (.leaf 98 1) (.leaf 256 1))) ∧ s.out.closed = false) :=
  ⟨⟨_, rfl, rfl, ⟨rfl, rfl, rfl⟩, Nat.zero_le _, rfl, rfl⟩, _, rfl, rfl, rfl, ⟨rfl, rfl, rfl⟩, Nat.zero_le _, rfl, rfl⟩

theorem witness_BuildIsItsMergeSteps : ∃ t, exec .build counted = .next t ∧ counted.st = .idle ∧ counted.quiet :=
  let ⟨t, h, _⟩ := build_counted; ⟨t, h, rfl, ⟨rfl, rfl, rfl⟩⟩

theorem witness_DecompressReadsTheStream :
    let s := withBits (bitsMsb (0xFACE8201 : Word) ++ treeAab.headerBits ++ [false, false, true, false, true, true] ++ [true]);
    s.st = .idle ∧ s.quiet ∧ treeAab.nodes ≤ 513 ∧ s.out = { bits := [], closed := false } ∧
    bodyBits treeAab.codeOf [0x61, 0x61, 0x62] = some [false, false, true, false, true, true] ∧
    s.inp.rest = bitsMsb s.magic ++ treeAab.headerBits ++ [false, false, true, false, true, true] ++ [true] ∧
    s.inp.pos ≤ s.inp.bits.length :=
  ⟨rfl, ⟨rfl, rfl, rfl⟩, by decide, rfl, by decide +kernel, rfl, Nat.zero_le _⟩

theorem witness_DecompressRefusesAnotherFormat : (withBits [true]).st = .idle ∧ (withBits [true]).quiet ∧
    (withBits [true]).inp.pos ≤ (withBits [true]).inp.bits.length ∧
    (withBits [true]).inp.rest.take 32 ≠ bitsMsb (withBits [true]).magic :=
  ⟨rfl, ⟨rfl, rfl, rfl⟩, Nat.zero_le _, by decide +kernel⟩

/-- A composite that ends well, and one whose first unit faults. -/
theorem witness_CompositesRunTheirUnits :
    ((withInput [0x61, 0x61, 0x62]).st = .idle ∧ (runUnits compressUnits (withInput [0x61, 0x61, 0x62])).st = .idle) ∧
    ((withBits [true]).st = .idle ∧ (runUnits decompressUnits (withBits [true])).st = .faulted) :=
  ⟨⟨rfl, by decide +kernel⟩, rfl, by decide +kernel⟩

theorem witness_RoundTrip : (withInput [0x61, 0x61, 0x62]).launch [0x61, 0x61, 0x62] ∧
    ∀ b : Byte, ([0x61, 0x61, 0x62] : List Byte).count b ≤ 4294967295 := ⟨launch_aab, counts_aab⟩

theorem witness_EveryInstructionEnds : stateAab.st = .idle := rfl

theorem witness_FaultCodesAreTheCommandsOwn : withClosed.st = .idle ∧
    ∃ t, exec .close withClosed = .next t ∧ t.st = .faulted := ⟨rfl, _, rfl, rfl⟩

theorem witness_OutputIsAppendOnly : (∃ t, exec .wrmagic (withInput []) = .next t) ∧ withClosed.out.closed = true ∧
    ∃ t, exec .close withClosed = .next t ∧ withClosed.st = .idle ∧ t.st = .faulted := ⟨⟨_, rfl⟩, rfl, _, rfl, rfl, rfl⟩

theorem witness_OnlyTheseInstructionsWriteFreq :
    ((∃ t, exec .rewind stateAab = .next t) ∧ Instr.rewind ∉ ([.clear, .count, .compress, .decompress] : List Instr)) ∧
    (∃ t, exec .clear stateAab = .next t ∧ stateAab.st = .idle ∧ t.st = .idle) ∧
    Instr.clear ∈ ([.clear, .compress, .decompress] : List Instr) :=
  ⟨⟨⟨_, rfl⟩, by decide⟩, ⟨_, rfl, rfl, rfl⟩, by decide⟩

theorem witness_OnlyTheseInstructionsWriteTreeAndCode : (∃ t, exec .rewind stateAab = .next t) ∧
    Instr.rewind ∉ ([.clear, .gencodes, .build, .rdhdr, .compress, .decompress] : List Instr) ∧
    Instr.rewind ∈ ([.gencodes, .wrhdr, .wrmagic, .rdmagic, .rewind, .count, .encode, .decode, .close] : List Instr) :=
  ⟨⟨_, rfl⟩, by decide, by decide⟩

theorem witness_OnlyTheseInstructionsTouchTheChannels : (∃ t, exec .clear stateAab = .next t) ∧
    Instr.clear ∈ ([.clear, .build, .gencodes, .wrhdr, .wrmagic, .close] : List Instr) ∧
    Instr.clear ∈ ([.clear, .build, .gencodes, .rdmagic, .rewind] : List Instr) ∧
    Instr.count ∈ ([.count, .rdhdr] : List Instr) ∧ Instr.count ∉ ([.rewind, .compress] : List Instr) ∧
    (∃ t, exec .count (withInput []) = .next t ∧ (withInput []).st = .idle ∧ t.st = .idle ∧
      (withInput []).inp.pos ≤ (withInput []).inp.bits.length) :=
  ⟨⟨_, rfl⟩, by decide, by decide, by decide, by decide, _, rfl, rfl, rfl, Nat.zero_le _⟩

/-- A state with a move to make that meets the invariant. -/
theorem witness_StepKeepsTheInvariant : (withMove (.access .attachOut)).Inv ∧ ∃ t, step (withMove (.access .attachOut)) = .next t := by
  refine ⟨⟨⟨rfl, rfl, rfl⟩, by decide, ⟨fun _ => rfl, fun _ => rfl⟩, by decide, by rintro _ ⟨⟩, ?_, by rintro ⟨⟩⟩, _, rfl⟩
  intro v p hp
  have h : codeRead (withMove (.access .attachOut)).code v = none := by simp [codeRead, withMove, withInput, State.reset]
  rw [h] at hp; cases hp

end Sys2Proof.Tests
end

section
/-! The invariant of the step (70_reset_and_hazards.md R254). -/

namespace Sys2Proof.Machine

open Sys2Proof

/-- The invariant does not speak of the host's moves and the last reply. -/
theorem State.Inv.withMoves {s : State} (h : s.Inv) (rest : List Move) (r : Reply) :
    ({ s with moves := rest, reply := r } : State).Inv :=
  ⟨h.quiet, h.memory, h.errMode, h.errLegal, h.treeFits, h.codesFit, h.codesMean⟩

/-- Settles O59: a state of the invariant stands between commands, so a step waits or takes a host move, and
host moves keep the invariant. -/
theorem stepKeepsTheInvariant : Obligations.StepKeepsTheInvariant := by
  unfold Obligations.StepKeepsTheInvariant
  intro s t hinv hstep
  cases hm : s.moves with
  | nil =>
    rw [step_wait s hinv.quiet hm] at hstep
    cases hstep
    exact hinv
  | cons m rest =>
    rw [step_move s m rest hinv.quiet hm] at hstep
    exact hostMove_inv m _ t (hinv.withMoves rest .nothing) hstep

end Sys2Proof.Machine
end

section
/-! FREQ and the priority queue (10_state.md R23, R31, R32). -/

namespace Sys2Proof.Machine

open Sys2Proof

theorem lt_of_ne_pseudoEof {a : Symbol} (h : a ≠ Config.pseudoEof) : a.val < 256 := by
  have hne : a.val ≠ 256 := fun e => h (Fin.ext e)
  have := a.isLt
  omega

@[simp] theorem freqWrite_pseudoEof (f : Vector Word 256) (v : Word) : freqWrite f Config.pseudoEof v = f := rfl

/-- Settles O11, from what a read gives after a write. -/
theorem freqFileReadsWhatWasWritten : Obligations.FreqFileReadsWhatWasWritten := by
  unfold Obligations.FreqFileReadsWhatWasWritten
  intro f a b v
  refine ⟨freqRead_eof f, freqWrite_pseudoEof f v, fun ha => ?_, fun hab => ?_⟩
  · rw [freqRead_freqWrite, if_pos ⟨rfl, lt_of_ne_pseudoEof ha⟩]
  · rw [freqRead_freqWrite, if_neg fun h => hab h.1.symm]

/-- Settles O26: insertion keeps the entries and the sorting, and the head of a sorted queue is its least entry. -/
theorem queueKeepsTheOrder : Obligations.QueueKeepsTheOrder := by
  unfold Obligations.QueueKeepsTheOrder
  intro e pq hsorted hnew
  have hsorted' := pqInsert_sorted e pq hsorted hnew
  refine ⟨hsorted', pqInsert_perm e pq, fun x xs hx y hy => ?_⟩
  rw [hx, List.pairwise_cons] at hsorted'
  exact (before_iff x y).mp (hsorted'.1 y hy)

end Sys2Proof.Machine
end

section
/-! BUILD (41_treebuild.md R120 to R123, `90_conflicts.md` C1). -/

namespace Sys2Proof.Machine

open Sys2Proof

/-- Settles O22: BUILD's tree is the one its merge loop ends in, and it has at most one leaf per symbol. -/
theorem buildMakesAMergedTree : Obligations.BuildMakesAMergedTree := by
  unfold Obligations.BuildMakesAMergedTree
  intro s hs
  obtain ⟨t, hbody, ⟨e, he, rfl⟩, hmerged, hleaves, hweight⟩ := buildBody_spec s
  have hcount : e.t.leaves ≤ 257 := by
    rw [leaves_eq_length, hleaves.length_eq, List.length_map]
    exact length_seeded_le s.freq
  have hnodes := nodes_eq e.t
  have hdepth := depth_lt_leaves e.t
  refine ⟨e.t, ?_, seedQueue_mergesTo s.freq e he, hleaves, hmerged, ?_, by omega, by omega⟩
  · rw [exec_run_build s hs, hbody]
    rfl
  · exact hweight.trans (sum_positive s.freq allSymbols)

/-- A tree with one leaf is that leaf. -/
theorem eq_leaf_of_leafList {t : Tree} {v : Symbol} {w : Weight} (h : t.leafList = [(v, w)]) : t = .leaf v w := by
  cases t with
  | leaf v' w' =>
    obtain ⟨rfl, rfl⟩ : v' = v ∧ w' = w := by simpa [Tree.leafList] using h
    rfl
  | node w' l r =>
    have hlen : l.leaves + r.leaves = 1 := by
      simpa [Tree.leafList, leaves_eq_length] using congrArg List.length h
    have := leaves_pos l
    have := leaves_pos r
    omega

/-- Only 256 has a positive count exactly when every stored count is 0. -/
theorem positiveSymbols_eq_eof_iff (f : Vector Word 256) :
    positiveSymbols f = [Config.pseudoEof] ↔ ∀ n : Fin 256, f[n.val] = 0 := by
  constructor
  · intro h n
    by_contra hn
    have hmem : (⟨n.val, by omega⟩ : Symbol) ∈ positiveSymbols f :=
      List.mem_filter.mpr ⟨mem_allSymbols _, by simpa [freqRead] using hn⟩
    rw [h, List.mem_singleton] at hmem
    have hval : n.val = 256 := congrArg Fin.val hmem
    omega
  · intro h
    have hpos : ∀ v, (freqRead f v != 0) = true ↔ v = Config.pseudoEof := by
      intro v
      constructor
      · intro hv
        by_contra hne
        have hlt := lt_of_ne_pseudoEof hne
        have h0 : freqRead f v = 0 := by simpa [freqRead, hlt] using h ⟨v.val, hlt⟩
        simp [h0] at hv
      · rintro rfl
        simp
    have hnodup : (positiveSymbols f).Nodup := (List.nodup_finRange 257).filter _
    refine List.perm_singleton.mp ((List.perm_ext_iff_of_nodup hnodup (List.nodup_singleton _)).mpr fun v => ?_)
    simp only [positiveSymbols, List.mem_filter, hpos, List.mem_singleton]
    exact and_iff_right (mem_allSymbols v)

/-- One symbol has a positive count exactly when it is 256 alone, which always has one. -/
theorem length_positiveSymbols_eq_one_iff (f : Vector Word 256) :
    (positiveSymbols f).length = 1 ↔ ∀ n : Fin 256, f[n.val] = 0 := by
  rw [← positiveSymbols_eq_eof_iff, List.length_eq_one_iff]
  refine ⟨?_, fun h => ⟨_, h⟩⟩
  rintro ⟨v, hv⟩
  have hmem : Config.pseudoEof ∈ positiveSymbols f := pseudoEof_seeded f
  rw [hv, List.mem_singleton] at hmem
  rw [hv, ← hmem]

/-- Settles O23: the built tree has one leaf per symbol of positive count, so a table of zeros leaves 256 alone. -/
theorem buildOfTheEmptyTable : Obligations.BuildOfTheEmptyTable := by
  unfold Obligations.BuildOfTheEmptyTable
  intro s hs
  obtain ⟨t, hexec, _, hleaves, _⟩ := buildMakesAMergedTree s hs
  refine ⟨fun hzero => ?_, fun t' u hu ht' => ?_⟩
  · rw [(positiveSymbols_eq_eof_iff s.freq).mpr hzero] at hleaves
    rw [hexec, eq_leaf_of_leafList (List.perm_singleton.mp hleaves)]
    rfl
  · rw [hexec] at hu
    cases hu
    cases ht'
    rw [leaves_eq_length, hleaves.length_eq, List.length_map]
    exact length_positiveSymbols_eq_one_iff s.freq

end Sys2Proof.Machine
end

section
/-! A reset inside a command (70_reset_and_hazards.md R242). -/

namespace Sys2Proof.Machine

open Sys2Proof

/-- RDMAGIC of a stream that does not begin with MAGIC raises FormatError. -/
theorem rdmagicBody_otherFormat (s : State) (h : s.inp.rest.take 32 ≠ bitsMsb s.magic) :
    ∃ u, rdmagicBody s = .raised .formatError u := by
  unfold rdmagicBody InChan.readBits
  by_cases hlen : s.inp.pos + 32 ≤ s.inp.bits.length
  · have hne : ofBitsMsb 32 (s.inp.rest.take 32) ≠ s.magic := by
      intro he
      have htake : (s.inp.rest.take 32).length = 32 := by
        rw [List.length_take, rest_length]
        omega
      exact h (by rw [← he, bitsMsb_ofBitsMsb 32 _ htake])
    simp only [if_pos hlen, streamMagicBody, if_neg hne]
    exact ⟨_, rfl⟩
  · rw [if_neg hlen]
    exact ⟨_, rfl⟩

theorem reachesOut_closed (i : Instr) {s : State} (h : s.out.closed = true) : reachesOut i s = false := by
  simp [reachesOut, h]

theorem reachesOut_otherFormat (s : State) (h : s.inp.rest.take 32 ≠ bitsMsb s.magic) :
    reachesOut .decompress s = false := by
  obtain ⟨u, hu⟩ := rdmagicBody_otherFormat s h
  simp [reachesOut, hu, Ending.andThen]

/-- The commands that only read, a closed output, and DECOMPRESS of another format do not reach OUT. -/
theorem reachesOut_reader (i : Instr) (s : State)
    (h : s.out.closed = true ∨ i ∈ ([.count, .rdhdr, .rdmagic, .rewind] : List Instr) ∨
      (i = .decompress ∧ s.inp.rest.take 32 ≠ bitsMsb s.magic)) : reachesOut i s = false := by
  rcases h with hc | hi | ⟨rfl, hm⟩
  · exact reachesOut_closed i hc
  · simp only [List.mem_cons, List.not_mem_nil, or_false] at hi
    rcases hi with rfl | rfl | rfl | rfl <;> simp [reachesOut]
  · exact reachesOut_otherFormat s hm

/-- Settles O16: the step is `cutShort`, whose engine is at its reset values, and whose channels are where
`cutCursor_spec` and `cutShort_out` say. -/
theorem resetCutsACommandShort : Obligations.ResetCutsACommandShort := by
  unfold Obligations.ResetCutsACommandShort
  intro s w i rest hq hs hd hm
  set s' : State := { s with moves := rest, reply := .nothing }
  obtain ⟨hbits, hinside, hforward, hrewind, hinp⟩ := cutCursor_spec i (Config.freeInPos s'.freeCtr) s'
  obtain ⟨hprefix, hclosed, hunreached, _⟩ := cutShort_out i s'
  refine ⟨cutShort i s', step_during hq hs hd hm, rfl, rfl, rfl, rfl, rfl, rfl, ⟨rfl, rfl, rfl⟩, hprefix, hclosed,
    hbits, hinside, fun hr hc => ?_, hrewind, fun h => ?_, fun h => hinp (.inr h), fun h => ?_⟩
  · refine hforward hr ?_
    rintro rfl
    exact reachesOut_closed .compress (hc.resolve_left fun hne => hne rfl)
  · obtain ⟨hchannel, hout⟩ := reaches_nothing i s' h
    exact ⟨hinp (.inl hchannel), hunreached hout⟩
  · exact hunreached (reachesOut_reader i s' h)

end Sys2Proof.Machine
end

section
/-! Frames: which instruction writes what (10_state.md R24, R25, R30, 42_codegen.md R138). -/

namespace Sys2Proof.Machine

open Sys2Proof

/-- What `exec` runs of an instruction while IDLE. -/
def bodyOf : Instr → State → Ending
  | .clear => fun s => .done (resetEngine s)
  | .count => countBody
  | .build => buildBody
  | .gencodes => gencodesBody
  | .wrhdr => wrhdrBody
  | .rdhdr => rdhdrBody
  | .wrmagic => wrmagicBody
  | .rdmagic => rdmagicBody
  | .rewind => rewindBody
  | .encode => encodeBody
  | .decode => decodeBody
  | .close => closeBody
  | .compress => compressBody
  | .decompress => decompressBody
  | .streamMagic m => streamMagicBody m
  | .streamHdrInternal => streamHdrInternalBody
  | .streamHdrLeaf v => streamHdrLeafBody v

/-- While IDLE every instruction is its body run to its end. -/
theorem exec_idle (i : Instr) (s : State) (h : s.st = .idle) : exec i s = finish s (bodyOf i s) := by
  cases i with
  | clear => rfl
  | count => exact exec_run_count s h
  | build => exact exec_run_build s h
  | gencodes => exact exec_run_gencodes s h
  | wrhdr => exact exec_run_wrhdr s h
  | rdhdr => exact exec_run_rdhdr s h
  | wrmagic => exact exec_run_wrmagic s h
  | rdmagic => exact exec_run_rdmagic s h
  | rewind => exact exec_run_rewind s h
  | encode => exact exec_run_encode s h
  | decode => exact exec_run_decode s h
  | close => exact exec_run_close s h
  | compress => exact exec_run_compress s h
  | decompress => exact exec_run_decompress s h
  | streamMagic m => exact exec_run_streamMagic m s h
  | streamHdrInternal => exact exec_run_streamHdrInternal s h
  | streamHdrLeaf v => exact exec_run_streamHdrLeaf v s h

/-- What an instruction can do: CLEAR resets, the others are ignored while FAULTED and run their body while IDLE. -/
theorem exec_next {i : Instr} {s t : State} (h : exec i s = .next t) :
    (i = .clear ∧ t = resetEngine s) ∨ (s.st = .faulted ∧ t = s) ∨
      (i ≠ .clear ∧ s.st = .idle ∧ finish s (bodyOf i s) = .next t) := by
  by_cases hi : i = .clear
  · subst hi
    cases h
    exact .inl ⟨rfl, rfl⟩
  · cases hs : s.st with
    | faulted => exact .inr (.inl ⟨rfl, exec_of_idle_next i s t h hs hi⟩)
    | idle => exact .inr (.inr ⟨hi, rfl, exec_idle i s hs ▸ h⟩)

/-! ### The engine's data -/

/-- The body left the data of the engine as it was. -/
structure KeepsData (s : State) (r : Ending) : Prop where
  freq : r.state.freq = s.freq
  tree : r.state.tree = s.tree
  codesValid : r.state.codesValid = s.codesValid
  code : r.state.code = s.code

/-- The instructions that work on the channels alone leave the data. -/
theorem bodyOf_keepsData (i : Instr) (s : State)
    (h : i ∉ ([.clear, .count, .build, .gencodes, .rdhdr, .compress, .decompress, .streamHdrInternal] : List Instr))
    (hl : ∀ v, i ≠ .streamHdrLeaf v) : KeepsData s (bodyOf i s) := by
  cases i with
  | clear | count | build | gencodes | rdhdr | compress | decompress | streamHdrInternal => simp at h
  | streamHdrLeaf v => exact absurd rfl (hl v)
  | wrhdr => rcases wrhdrBody_cases s with e | ⟨t, _, e⟩ <;> rw [bodyOf, e] <;> exact ⟨rfl, rfl, rfl, rfl⟩
  | wrmagic => rcases wrmagicBody_cases s with e | ⟨_, e⟩ <;> rw [bodyOf, e] <;> exact ⟨rfl, rfl, rfl, rfl⟩
  | rdmagic =>
    rcases rdmagicBody_cases s with ⟨p, _, e⟩ | ⟨p, rd, _, e⟩ <;> rw [bodyOf, e] <;> exact ⟨rfl, rfl, rfl, rfl⟩
  | rewind => exact ⟨rfl, rfl, rfl, rfl⟩
  | encode =>
    rcases encodeBody_cases s with e | ⟨_, q, e⟩ | ⟨_, q, p, _, e⟩ <;> rw [bodyOf, e] <;> exact ⟨rfl, rfl, rfl, rfl⟩
  | decode =>
    rcases decodeBody_cases s with e | e | e | ⟨_, q, p, _, e⟩ | ⟨_, q, e⟩ <;> rw [bodyOf, e] <;>
      exact ⟨rfl, rfl, rfl, rfl⟩
  | close => rcases closeBody_cases s with e | ⟨_, e⟩ <;> rw [bodyOf, e] <;> exact ⟨rfl, rfl, rfl, rfl⟩
  | streamMagic m => rw [bodyOf, streamMagicBody]; split <;> exact ⟨rfl, rfl, rfl, rfl⟩

/-- A header token writes TREE at most. -/
theorem applyFed_keeps (s : State) (f : Fed) : (applyFed s f).state.freq = s.freq ∧
    (applyFed s f).state.codesValid = s.codesValid ∧ (applyFed s f).state.code = s.code := by
  cases f <;> exact ⟨rfl, rfl, rfl⟩

theorem bodyOf_freq (i : Instr) (s : State) (h : i ∉ ([.clear, .count, .compress, .decompress] : List Instr)) :
    (bodyOf i s).state.freq = s.freq := by
  cases i with
  | clear | count | compress | decompress => simp at h
  | build => obtain ⟨t, _, e⟩ := buildBody_cases s; rw [bodyOf, e]; rfl
  | gencodes => rcases gencodesBody_cases s with e | ⟨t, _, e⟩ <;> rw [bodyOf, e] <;> rfl
  | rdhdr => rcases rdhdrBody_cases s with ⟨t, r, _, e⟩ | ⟨c, p, _, _, e⟩ <;> rw [bodyOf, e] <;> rfl
  | streamHdrInternal | streamHdrLeaf => exact (applyFed_keeps s _).1
  | wrhdr | wrmagic | rdmagic | rewind | encode | decode | close | streamMagic =>
    exact (bodyOf_keepsData _ s (by simp) (by simp)).freq

theorem bodyOf_code (i : Instr) (s : State) (h : i ∉ ([.clear, .gencodes, .compress, .decompress] : List Instr)) :
    (bodyOf i s).state.code = s.code := by
  cases i with
  | clear | gencodes | compress | decompress => simp at h
  | count => rcases countBody_cases s with ⟨f, e⟩ | ⟨f, p, _, e⟩ <;> rw [bodyOf, e] <;> rfl
  | build => obtain ⟨t, _, e⟩ := buildBody_cases s; rw [bodyOf, e]; rfl
  | rdhdr => rcases rdhdrBody_cases s with ⟨t, r, _, e⟩ | ⟨c, p, _, _, e⟩ <;> rw [bodyOf, e] <;> rfl
  | streamHdrInternal | streamHdrLeaf => exact (applyFed_keeps s _).2.2
  | wrhdr | wrmagic | rdmagic | rewind | encode | decode | close | streamMagic =>
    exact (bodyOf_keepsData _ s (by simp) (by simp)).code

theorem bodyOf_codesValid (i : Instr) (s : State)
    (h : i ∉ ([.clear, .gencodes, .build, .rdhdr, .compress, .decompress] : List Instr)) :
    (bodyOf i s).state.codesValid = s.codesValid := by
  cases i with
  | clear | gencodes | build | rdhdr | compress | decompress => simp at h
  | count => rcases countBody_cases s with ⟨f, e⟩ | ⟨f, p, _, e⟩ <;> rw [bodyOf, e] <;> rfl
  | streamHdrInternal | streamHdrLeaf => exact (applyFed_keeps s _).2.1
  | wrhdr | wrmagic | rdmagic | rewind | encode | decode | close | streamMagic =>
    exact (bodyOf_keepsData _ s (by simp) (by simp)).codesValid

theorem bodyOf_tree (i : Instr) (s : State)
    (h : i ∈ ([.gencodes, .wrhdr, .wrmagic, .rdmagic, .rewind, .count, .encode, .decode, .close] : List Instr)) :
    (bodyOf i s).state.tree = s.tree := by
  cases i with
  | clear | build | rdhdr | compress | decompress | streamMagic | streamHdrInternal | streamHdrLeaf => simp at h
  | count => rcases countBody_cases s with ⟨f, e⟩ | ⟨f, p, _, e⟩ <;> rw [bodyOf, e] <;> rfl
  | gencodes => rcases gencodesBody_cases s with e | ⟨t, _, e⟩ <;> rw [bodyOf, e] <;> rfl
  | wrhdr | wrmagic | rdmagic | rewind | encode | decode | close =>
    exact (bodyOf_keepsData _ s (by simp) (by simp)).tree

/-- A composite that succeeds ends in `discard`. -/
theorem composite_done_freq {i : Instr} {s t : State} (hi : i = .compress ∨ i = .decompress)
    (h : bodyOf i s = .done t) : t.freq = freqZero := by
  rcases hi with rfl | rfl <;> exact andDiscard_done h

/-- Settles O56: the frame of the bodies, and `discard` at the end of a composite. -/
theorem onlyTheseInstructionsWriteFreq : Obligations.OnlyTheseInstructionsWriteFreq := by
  unfold Obligations.OnlyTheseInstructionsWriteFreq
  intro i s t h
  rcases exec_next h with ⟨rfl, rfl⟩ | ⟨hs, rfl⟩ | ⟨hi, hs, hf⟩
  · exact ⟨by simp, fun _ _ _ n => freqZero_get n⟩
  · exact ⟨fun _ => rfl, fun _ hidle => by simp [hs] at hidle⟩
  · obtain ⟨hfreq, _, _, _, _, _, hdone⟩ := finish_next hf
    refine ⟨fun hm => hfreq.trans (bodyOf_freq i s hm), fun hm _ ht n => ?_⟩
    have hc : i = .compress ∨ i = .decompress := by simpa [hi] using hm
    rw [composite_done_freq hc (hdone ht)]
    exact freqZero_get n

/-- Settles O57: the frame of the bodies. -/
theorem onlyTheseInstructionsWriteTreeAndCode : Obligations.OnlyTheseInstructionsWriteTreeAndCode := by
  unfold Obligations.OnlyTheseInstructionsWriteTreeAndCode
  intro i s t h
  rcases exec_next h with ⟨rfl, rfl⟩ | ⟨_, rfl⟩ | ⟨_, _, hf⟩
  · simp
  · exact ⟨fun _ => rfl, fun _ => rfl, fun _ => rfl⟩
  · obtain ⟨_, htree, hvalid, hcode, _⟩ := finish_next hf
    exact ⟨fun hm => hcode.trans (bodyOf_code i s hm), fun hm => hvalid.trans (bodyOf_codesValid i s hm),
      fun hm => htree.trans (bodyOf_tree i s hm)⟩

/-! ### The channels -/

/-- No instruction writes MAGIC, the host's moves or the last reply. -/
theorem exec_hostFields {i : Instr} {s t : State} (h : exec i s = .next t) :
    t.magic = s.magic ∧ t.moves = s.moves ∧ t.reply = s.reply := by
  rcases exec_cases i s with ⟨_, e⟩ | ⟨_, _, e⟩ | ⟨_, _, r, e, hr⟩ <;> rw [e] at h
  · cases h; exact ⟨rfl, rfl, rfl⟩
  · cases h; exact ⟨rfl, rfl, rfl⟩
  · cases r <;> cases h <;> exact ⟨hr.magic, hr.moves, hr.reply⟩

theorem exec_inp_kept {i : Instr} {s t : State} (h : exec i s = .next t)
    (hi : i ∈ ([.clear, .build, .gencodes, .wrhdr, .wrmagic, .close] : List Instr)) : t.inp = s.inp := by
  refine exec_inp_unreached i s t h ?_
  have hsplit : i ∈ ([.clear, .build, .gencodes] : List Instr) ∨ i ∈ ([.wrhdr, .wrmagic, .close] : List Instr) :=
    List.mem_append.mp hi
  exact hsplit.imp_left fun hm => (reaches_nothing i s (.inl hm)).1

/-- These write nothing to OUT, and what GENCODES and RDMAGIC can raise does not either (60_exceptions.md R213). -/
theorem exec_out_kept {i : Instr} {s t : State} (h : exec i s = .next t)
    (hi : i ∈ ([.clear, .build, .gencodes, .rdmagic, .rewind] : List Instr)) : t.out = s.out := by
  rcases exec_next h with ⟨rfl, rfl⟩ | ⟨_, rfl⟩ | ⟨hc, _, hf⟩
  · rfl
  · rfl
  · simp only [List.mem_cons, List.not_mem_nil, or_false] at hi
    rcases hi with rfl | rfl | rfl | rfl | rfl
    · exact absurd rfl hc
    · obtain ⟨u, _, e⟩ := buildBody_cases s
      rw [bodyOf, e] at hf; cases hf; rfl
    · rcases gencodesBody_cases s with e | ⟨u, _, e⟩ <;> rw [bodyOf, e] at hf <;> cases hf <;> rfl
    · rcases rdmagicBody_cases s with ⟨p, _, e⟩ | ⟨p, rd, _, e⟩ <;> rw [bodyOf, e] at hf <;> cases hf <;> rfl
    · cases hf; rfl

/-- COUNT and RDHDR touch OUT by a fault at most. -/
theorem exec_out_reader {i : Instr} {s t : State} (h : exec i s = .next t)
    (hi : i ∈ ([.count, .rdhdr] : List Instr)) : t.out = s.out ∨ (s.st = .idle ∧ t.st = .faulted) := by
  rcases exec_next h with ⟨_, rfl⟩ | ⟨_, rfl⟩ | ⟨_, hs, hf⟩
  · exact .inl rfl
  · exact .inl rfl
  · simp only [List.mem_cons, List.not_mem_nil, or_false] at hi
    rcases hi with rfl | rfl
    · rcases countBody_cases s with ⟨f, e⟩ | ⟨f, p, _, e⟩ <;> rw [bodyOf, e] at hf <;> cases hf
      · exact .inl rfl
      · exact .inr ⟨hs, rfl⟩
    · rcases rdhdrBody_cases s with ⟨u, r, _, e⟩ | ⟨c, p, _, _, e⟩ <;> rw [bodyOf, e] at hf <;> cases hf
      · exact .inl rfl
      · exact .inr ⟨hs, rfl⟩

/-- COUNT and ENCODE that succeed have read the input to its end. -/
theorem exec_reads_all {i : Instr} {s t : State} (h : exec i s = .next t)
    (hi : i ∈ ([.count, .encode] : List Instr)) (hs : s.st = .idle) (ht : t.st = .idle) :
    t.inp.pos = s.inp.bits.length := by
  rw [exec_idle i s hs] at h
  obtain ⟨_, _, _, _, _, _, hdone⟩ := finish_next h
  have hbody := hdone ht
  simp only [List.mem_cons, List.not_mem_nil, or_false] at hi
  rcases hi with rfl | rfl
  · rcases countBody_cases s with ⟨f, e⟩ | ⟨f, p, _, e⟩ <;> rw [bodyOf, e] at hbody <;> cases hbody
    rfl
  · rcases encodeBody_cases s with e | ⟨_, q, e⟩ | ⟨_, q, p, _, e⟩ <;> rw [bodyOf, e] at hbody <;> cases hbody
    rfl

/-- Settles O58, from the frame of the host's fields, the cursor's growth and what each command does to the channels. -/
theorem onlyTheseInstructionsTouchTheChannels : Obligations.OnlyTheseInstructionsTouchTheChannels := by
  unfold Obligations.OnlyTheseInstructionsTouchTheChannels
  intro i s t h
  obtain ⟨hmagic, hmoves, hreply⟩ := exec_hostFields h
  refine ⟨exec_inp_bits i s t h, hmagic, hmoves, hreply, fun hi hp => ?_, exec_inp_kept h, exec_out_kept h,
    exec_out_reader h, exec_reads_all h⟩
  obtain ⟨hrewind, hcompress⟩ : i ≠ .rewind ∧ i ≠ .compress := by simpa using hi
  exact (exec_cursor i s t h hrewind (fun e => absurd e hcompress) hp).1

end Sys2Proof.Machine
end

section
/-! The channels as bit sequences (20_memory.md R51, R52, R54, R56). -/

namespace Sys2Proof.Machine

open Sys2Proof

/-- Bit `n − 1 − k` of a value stands at place `k` (20_memory.md R52). -/
theorem getElem?_bitsMsb {n : Nat} (v : BitVec n) {k : Nat} (h : k < n) :
    (bitsMsb v)[k]? = some (v.getLsbD (n - 1 - k)) := by
  rw [List.getElem?_eq_getElem (by simpa using h), getElem_bitsMsb]
  simp [BitVec.getMsbD, h]

/-- A read that finds its bits takes the value they spell. -/
theorem readBits_of_le {n : Nat} {c : InChan} (h : c.pos + n ≤ c.bits.length) :
    ∃ v : BitVec n, c.readBits n = (some v, { c with pos := c.pos + n }) ∧ c.rest.take n = bitsMsb v := by
  have hlen : (c.rest.take n).length = n := by
    rw [List.length_take, rest_length]
    omega
  exact ⟨ofBitsMsb n (c.rest.take n), if_pos h, (bitsMsb_ofBitsMsb n _ hlen).symm⟩

/-- A read that does not find its bits takes those that are left. -/
theorem readBits_of_lt {n : Nat} {c : InChan} (h : c.bits.length < c.pos + n) :
    c.readBits n = (none, { c with pos := c.bits.length }) :=
  if_neg (Nat.not_le.mpr h)

/-- Settles O17: the value read spells the bits behind the cursor; a short read leaves the cursor at the end, and
there every read of at least one bit is short again. -/
theorem readBitsReadsOrReachesTheEnd : Obligations.ReadBitsReadsOrReachesTheEnd := by
  unfold Obligations.ReadBitsReadsOrReachesTheEnd
  intro n m c
  refine ⟨fun h => ?_, fun h => ⟨readBits_of_lt h, fun hm => ?_⟩⟩
  · obtain ⟨v, hread, hbits⟩ := readBits_of_le h
    refine ⟨v, hread, fun k hk => ?_⟩
    calc c.bits[c.pos + k]? = (c.rest.take n)[k]? := by
          rw [List.getElem?_take_of_lt hk, InChan.rest, List.getElem?_drop]
      _ = some (v.getLsbD (n - 1 - k)) := by rw [hbits, getElem?_bitsMsb v hk]
  · rw [readBits_of_lt h]
    exact readBits_of_lt (Nat.lt_add_of_pos_right hm)

/-- Settles O18: the appended bits are what stands behind a cursor at the old length. -/
theorem writtenBitsReadBack : Obligations.WrittenBitsReadBack := by
  unfold Obligations.WrittenBitsReadBack
  intro n v o rest
  refine ⟨rfl, List.prefix_append _ _, readBits_some v _ rest ?_ ?_⟩
  · simp [InChan.rest, OutChan.writeBits, OutChan.writeCode]
  · simp [OutChan.writeBits, OutChan.writeCode]

/-- Bit `8i + j` of a byte sequence is bit `7 − j` of its byte `i` (20_memory.md R51). -/
theorem getElem?_bitsOfBytes (bs : List Byte) (i j : Nat) (h : i < bs.length) (hj : j < 8) :
    (bitsOfBytes bs)[8 * i + j]? = some (bs[i].getLsbD (7 - j)) := by
  induction bs generalizing i with
  | nil => simp at h
  | cons b bs ih =>
    rw [bitsOfBytes_cons]
    cases i with
    | zero =>
      rw [List.getElem?_append_left (by simpa using hj), Nat.mul_zero, Nat.zero_add]
      exact getElem?_bitsMsb b hj
    | succ i =>
      have hplace : 8 * (i + 1) + j - (bitsMsb b).length = 8 * i + j := by
        rw [length_bitsMsb]
        omega
      rw [List.getElem?_append_right (by rw [length_bitsMsb]; omega), hplace]
      exact ih i (by simpa using h)

/-- Settles O19, by induction on the bytes. -/
theorem bytesAreBitsMostSignificantFirst : Obligations.BytesAreBitsMostSignificantFirst := by
  unfold Obligations.BytesAreBitsMostSignificantFirst
  exact fun bs => ⟨length_bitsOfBytes bs, wordsOfBits_bitsOfBytes bs, getElem?_bitsOfBytes bs⟩

end Sys2Proof.Machine
end

section
/-! The host's accesses between commands (20_memory.md R58, R60, 70_reset_and_hazards.md R253). -/

namespace Sys2Proof.Machine

open Sys2Proof

/-- Between commands an access is the host's next move. -/
theorem step_access {s : State} {a : Access} {rest : List Move} (hq : s.quiet) (hm : s.moves = .access a :: rest) :
    step s = hostAccess a { s with moves := rest, reply := .nothing } :=
  step_move s (.access a) rest hq hm

/-- Settles O14: the bytes of a closed output are its words, whose bits are all of them if it is whole bytes. -/
theorem closedOutputIsReadAsBytes : Obligations.ClosedOutputIsReadAsBytes := by
  unfold Obligations.ClosedOutputIsReadAsBytes
  intro s rest hq hm
  rw [step_access hq hm]
  refine ⟨fun hc hwhole => ⟨wordsOfBits s.out.bits, ?_, bytes_of_whole _ hwhole⟩, fun hc => ?_⟩
  · simp [hostAccess, hc, OutChan.bytes]
  · simp [hostAccess, hc]

theorem goodAccess_eq_false {width : Nat} {off : Offset} (h : width ≠ 32 ∨ off.toNat % 4 ≠ 0) :
    goodAccess width off = false := by
  rcases h with h | h <;> simp [goodAccess, h]

/-- Settles O12: both window accesses test the width and the offset before anything else. -/
theorem badWindowAccessIsRefused : Obligations.BadWindowAccessIsRefused := by
  unfold Obligations.BadWindowAccessIsRefused
  intro s width off v rest hq hbad
  have hgood := goodAccess_eq_false hbad
  refine ⟨fun hm => ?_, fun hm => ?_⟩
  · simp [step_access hq hm, hostAccess, hgood]
  · simp [step_access hq hm, hostAccess, hgood]

/-- Settles O13: an attachment is the whole of the step. -/
theorem attachReplacesAChannel : Obligations.AttachReplacesAChannel := by
  unfold Obligations.AttachReplacesAChannel
  intro s bits rest hq
  exact ⟨fun hm => step_access hq hm, fun hm => step_access hq hm⟩

end Sys2Proof.Machine
end

section
/-! OUT under the instructions: append-only, and the `require` lines (20_memory.md R54, R57, 60_exceptions.md
R213, R216). -/

namespace Sys2Proof.Machine

open Sys2Proof

/-- What the end of a command may have done to OUT, `s` the state before it. -/
structure OutAppended (s t : State) : Prop where
  grows : s.out.bits <+: t.out.bits
  closedStays : s.out.closed = true → t.out = s.out
  faultKeepsFlag : s.st = .idle → t.st = .faulted → t.out.closed = s.out.closed

theorem OutAppended.of_out_eq {s t : State} (h : t.out = s.out) : OutAppended s t :=
  ⟨by rw [h], fun _ => h, fun _ _ => by rw [h]⟩

/-- A body that keeps its frame and then succeeds or has its fault taken only appends to OUT. -/
theorem BodyFrame.outAppended {cs : List Cause} {s t : State} {r : Ending} (h : BodyFrame cs s r)
    (ht : finish s r = .next t) : OutAppended s t := by
  cases r with
  | done u =>
    cases ht
    refine ⟨h.outGrows, h.outClosed, fun hidle hfaulted => ?_⟩
    have hst : t.st = s.st := h.st
    rw [hidle, hfaulted] at hst
    cases hst
  | raised e u =>
    cases ht
    obtain ⟨_, hflag⟩ := h.raises e u rfl
    obtain ⟨bits, ctr, hprefix, hclosed, hout⟩ := outAfterFault_spec e s.out u.out u.freeCtr h.outGrows hflag h.outClosed
    refine ⟨?_, fun hc => ?_, fun _ _ => ?_⟩ <;> simp only [takeFault_out, hout]
    · exact hprefix
    · rw [hclosed hc]

/-- Settles O55: CLEAR and an ignored instruction leave OUT, and every body's frame only appends to it. -/
theorem outputIsAppendOnly : Obligations.OutputIsAppendOnly := by
  unfold Obligations.OutputIsAppendOnly
  intro i s t h
  have hout : OutAppended s t := by
    rcases exec_cases i s with ⟨_, e⟩ | ⟨_, _, e⟩ | ⟨_, _, r, e, hr⟩ <;> rw [e] at h
    · cases h
      exact .of_out_eq rfl
    · cases h
      exact .of_out_eq rfl
    · exact hr.outAppended h
  exact ⟨hout.grows, hout.closedStays, hout.faultKeepsFlag⟩

/-- The instruction's `require` line fails in this state (60_exceptions.md R210, code 7). -/
def RequireFails (s : State) (i : Instr) : Prop :=
  (i = .gencodes ∧ s.tree = none) ∨ (i = .wrhdr ∧ (s.tree = none ∨ s.out.closed = true)) ∨
    (i = .wrmagic ∧ s.out.closed = true) ∨ (i = .encode ∧ (s.codesValid = false ∨ s.out.closed = true)) ∨
    (i = .decode ∧ (s.tree = none ∨ s.out.closed = true)) ∨ (i = .close ∧ s.out.closed = true)

/-- A body whose `require` line fails does nothing else. -/
theorem bodyOf_requireFails {s : State} {i : Instr} (h : RequireFails s i) :
    bodyOf i s = .raised .sequenceError s := by
  rcases h with ⟨rfl, ht⟩ | ⟨rfl, h⟩ | ⟨rfl, hc⟩ | ⟨rfl, h⟩ | ⟨rfl, h⟩ | ⟨rfl, hc⟩
  · simp [bodyOf, gencodesBody, ht]
  · rcases h with ht | hc
    · simp [bodyOf, wrhdrBody, ht]
    · cases ht : s.tree <;> simp [bodyOf, wrhdrBody, requireElse, ht, hc]
  · simp [bodyOf, wrmagicBody, requireElse, hc]
  · rcases h with hv | hc
    · simp [bodyOf, encodeBody, requireElse, hv]
    · simp [bodyOf, encodeBody, requireElse, hc]
  · rcases h with ht | hc
    · simp [bodyOf, decodeBody, ht]
    · cases ht : s.tree <;> simp [bodyOf, decodeBody, requireElse, ht, hc]
  · simp [bodyOf, closeBody, requireElse, hc]

/-- SequenceError raised at the start of a command changes ST and ERR alone. -/
theorem finish_sequenceError {s : State} (hq : s.quiet) :
    finish s (.raised .sequenceError s) = .next { s with st := .faulted, err := 7 } := by
  obtain ⟨hrd, hcur, hpq⟩ := hq
  rw [finish, takeFault_writesNothing s s .sequenceError rfl, ← hrd, ← hcur, ← hpq]
  rfl

/-- Settles O42: the body is a `raise` before anything else, and a SequenceError writes nothing to OUT. -/
theorem failedPreconditionIsSequenceError : Obligations.FailedPreconditionIsSequenceError := by
  unfold Obligations.FailedPreconditionIsSequenceError
  intro s i hs hq hfails
  rw [exec_idle i s hs, bodyOf_requireFails hfails, finish_sequenceError hq]

end Sys2Proof.Machine
end

section
/-! An access, or a silent channel, while a command runs (70_reset_and_hazards.md R246, R251, R253). -/

namespace Sys2Proof.Machine

open Sys2Proof

theorem busyStatusWord_busy (ctr : Nat) : (busyStatusWord ctr).getLsbD 0 = true := by
  simp [busyStatusWord]

/-- The commands, and the states, in which a channel is reached; the converse is `reaches_nothing`. -/
theorem reaches_channel (i : Instr) (s : State)
    (h : i ∈ ([.count, .rdhdr, .rdmagic, .rewind, .compress, .decompress] : List Instr) ∨
      (s.out.closed = false ∧ (i = .wrmagic ∨ i = .close ∨ (i = .wrhdr ∧ s.tree ≠ none) ∨
        (i = .encode ∧ s.codesValid = true) ∨ (i = .decode ∧ ∃ n l r, s.tree = some (.node n l r))))) :
    reachesChannel i s = true := by
  rcases h with h | ⟨hc, h⟩
  · simp only [List.mem_cons, List.not_mem_nil, or_false] at h
    rcases h with rfl | rfl | rfl | rfl | rfl | rfl <;> rfl
  · rcases h with rfl | rfl | ⟨rfl, ht⟩ | ⟨rfl, hv⟩ | ⟨rfl, n, l, r, ht⟩
    · simp [reachesChannel, reachesOut, hc]
    · simp [reachesChannel, reachesOut, hc]
    · simp [reachesChannel, reachesOut, hc, Option.isSome_iff_ne_none, ht]
    · simp [reachesChannel, reachesOut, hc, hv]
    · simp [reachesChannel, reachesOut, hc, ht]

/-- Only the word 1 is CLEAR (30_encoding.md R89). -/
theorem ne_clear_of_decode {w : Word} {i : Instr} (h : decode (.command w) = .ok i) (hw : w ≠ 1) : i ≠ .clear := by
  rintro rfl
  have henc : Fetched.command 1 = .command w := decodeCommand_ok w .clear h
  exact hw (Fetched.command.inj henc).symm

/-- While FAULTED no word but 1 starts a command (30_encoding.md R91). -/
theorem startsCommand_faulted {w : Word} {s : State} (hs : s.st = .faulted) (hw : w ≠ 1) :
    startsCommand w s = none := by
  unfold startsCommand
  split
  · next _ hidle => rw [hs] at hidle; cases hidle
  · next hd _ => exact absurd rfl (ne_clear_of_decode hd hw)
  · rfl

/-- While FAULTED a CMD write of a word but 1 changes nothing (30_encoding.md R91). -/
theorem cmdWrite_faulted {w : Word} {s : State} (hs : s.st = .faulted) (hw : w ≠ 1) : cmdWrite w s = .next s := by
  unfold cmdWrite
  split
  · next i hd => exact exec_faulted i s hs (ne_clear_of_decode hd hw)
  · simp only [runCommand, hs]

/-- A word that starts no command leaves the event for after the write. -/
theorem duringCommand_faulted {w : Word} {s : State} (e : BusyEvent) (hs : s.st = .faulted) (hw : w ≠ 1) :
    duringCommand w e s = eventWhileIdle e s := by
  simp only [duringCommand, startsCommand_faulted hs hw, cmdWrite_faulted hs hw]

/-- A STATUS read while `i` runs: BUSY = 1, and the command's own result. -/
theorem statusRead_whileRunning {i : Instr} {s t : State} (h : exec i s = .next t) :
    eventWhileRunning i (.access (.read 32 0x004)) s =
      .next { t with reply := .word (busyStatusWord t.freeCtr), freeCtr := t.freeCtr + 1 } := by
  simp only [eventWhileRunning, accessWhileRunning, if_true, h]

theorem otherAccess_whileRunning {a : Access} (i : Instr) (s : State) (h : a ≠ .read 32 0x004) :
    eventWhileRunning i (.access a) s = .refused .accessWhileBusy := by
  simp only [eventWhileRunning, accessWhileRunning, if_neg h]

theorem silentChannel_reached {i : Instr} {s : State} (h : reachesChannel i s = true) :
    eventWhileRunning i .channelHangs s = .fault .channelBlocked := if_pos h

theorem silentChannel_unreached {i : Instr} {s : State} (h : reachesChannel i s = false) :
    eventWhileRunning i .channelHangs s = exec i s := by
  simp only [eventWhileRunning, h, Bool.false_eq_true, if_false]

/-- Settles O15: the event falls into the command, where `reaches_channel` and `reaches_nothing` say whether a silent
channel stops it; while FAULTED a word but 1 is ignored, and the access after it is one between commands. -/
theorem accessWhileACommandRuns : Obligations.AccessWhileACommandRuns := by
  unfold Obligations.AccessWhileACommandRuns
  refine ⟨fun s t w i rest hq hs hd => ?_, fun s w a rest hq hs hw hm => ?_⟩
  · set s' : State := { s with moves := rest, reply := .nothing }
    refine ⟨fun hm hexec => ?_, fun a ha hm => ?_, fun hm => ⟨fun h => ?_, fun h => ?_⟩⟩ <;> rw [step_during hq hs hd hm]
    · exact ⟨_, statusRead_whileRunning hexec, busyStatusWord_busy _⟩
    · exact otherAccess_whileRunning i s' ha
    · exact silentChannel_reached (reaches_channel i s' h)
    · exact silentChannel_unreached (reaches_nothing i s' h).1
  · calc step s = duringCommand w (.access a) { s with moves := rest, reply := .nothing } := step_move s _ rest hq hm
      _ = hostAccess a { s with moves := rest, reply := .nothing } := duringCommand_faulted (.access a) hs hw
      _ = step { s with moves := .access a :: rest } :=
        (step_access (s := { s with moves := .access a :: rest }) hq rfl).symm

end Sys2Proof.Machine
end

section
/-! The decoder against the encoder (30_encoding.md R81, R82, R88, R89). -/

namespace Sys2Proof.Machine

open Sys2Proof

theorem take_bitsMsb_append {n : Nat} (v : BitVec n) (rest : Bits) : (bitsMsb v ++ rest).take n = bitsMsb v :=
  List.take_left' (length_bitsMsb v)

/-- The first `n` bits, made a value and written out again, and the bits behind them. -/
theorem bitsMsb_take_append_drop {n : Nat} {bits : Bits} (h : n ≤ bits.length) :
    bitsMsb (ofBitsMsb n (bits.take n)) ++ bits.drop n = bits := by
  rw [bitsMsb_ofBitsMsb n _ (List.length_take_of_le h), List.take_append_drop]

/-! ### The magic field -/

theorem decodeMagic_bitsMsb (m : Word) (rest : Bits) : decodeMagic (bitsMsb m ++ rest) = .ok (.streamMagic m) := by
  have hlen : 32 ≤ (bitsMsb m ++ rest).length := by simp
  rw [decodeMagic, if_pos hlen, take_bitsMsb_append, ofBitsMsb_bitsMsb]

theorem decodeMagic_ok {bits : Bits} {i : Instr} (h : decodeMagic bits = .ok i) :
    ∃ m rest, i = .streamMagic m ∧ bits = bitsMsb m ++ rest := by
  unfold decodeMagic at h
  split at h
  · next hlen =>
    cases h
    exact ⟨_, _, rfl, (bitsMsb_take_append_drop hlen).symm⟩
  · cases h

/-! ### The header tokens -/

theorem decodeHeader_leaf (v : SymField) (rest : Bits) :
    decodeHeader (true :: (bitsMsb v ++ rest)) = .ok (.streamHdrLeaf v) := by
  have hlen : 9 ≤ (bitsMsb v ++ rest).length := by simp
  rw [decodeHeader, if_pos hlen, take_bitsMsb_append, ofBitsMsb_bitsMsb]

/-- What decodes as a header token begins with the token's bits. -/
theorem decodeHeader_ok {bits : Bits} {i : Instr} (h : decodeHeader bits = .ok i) :
    (∃ rest, i = .streamHdrInternal ∧ bits = false :: rest) ∨
    (∃ v rest, i = .streamHdrLeaf v ∧ bits = true :: (bitsMsb v ++ rest)) := by
  match bits with
  | [] => cases h
  | false :: rest =>
    cases h
    exact .inl ⟨rest, rfl, rfl⟩
  | true :: rest =>
    rw [decodeHeader] at h
    split at h
    · next hlen =>
      cases h
      exact .inr ⟨_, _, rfl, by rw [bitsMsb_take_append_drop hlen]⟩
    · cases h

/-! ### All three fetch spaces -/

/-- Settles O2: a command word is looked up in the opcode map, and the operand of a token is read back from its bits
(`ofBitsMsb_bitsMsb`), whatever stands behind them. -/
theorem decodeOfEncodeIsTheInstruction : Obligations.DecodeOfEncodeIsTheInstruction := by
  unfold Obligations.DecodeOfEncodeIsTheInstruction
  intro i rest
  cases i with
  | streamMagic m => exact decodeMagic_bitsMsb m rest
  | streamHdrInternal => rfl
  | streamHdrLeaf v => exact decodeHeader_leaf v rest
  | clear | count | build | gencodes | wrhdr | rdhdr | wrmagic | rdmagic | rewind | encode | decode | close
  | compress | decompress => rfl

/-- Settles O3: each fetch space's decoder accepts only what begins with the encoding. -/
theorem whatDecodesIsTheEncoding : Obligations.WhatDecodesIsTheEncoding := by
  unfold Obligations.WhatDecodesIsTheEncoding
  intro f i h
  cases f with
  | command w =>
    refine ⟨[], ?_⟩
    rw [decodeCommand_ok w i h]
    rfl
  | magic bits =>
    obtain ⟨m, rest, rfl, rfl⟩ := decodeMagic_ok h
    exact ⟨rest, rfl⟩
  | header bits =>
    rcases decodeHeader_ok h with ⟨rest, rfl, rfl⟩ | ⟨v, rest, rfl, rfl⟩
    · exact ⟨rest, rfl⟩
    · exact ⟨rest, rfl⟩

theorem followedBy_nil (f : Fetched) : f.followedBy [] = f := by
  cases f <;> simp [Fetched.followedBy]

theorem decode_encode (i : Instr) : decode (encode i) = .ok i := by
  rw [← followedBy_nil (encode i)]
  exact decodeOfEncodeIsTheInstruction i []

/-- Settles O1: each of the words is the encoding of its instruction. -/
theorem wordsDecodeToTheirInstructions : Obligations.WordsDecodeToTheirInstructions := by
  unfold Obligations.WordsDecodeToTheirInstructions
  exact ⟨decode_encode .clear, decode_encode .count, decode_encode .build, decode_encode .gencodes,
    decode_encode .wrhdr, decode_encode .rdhdr, decode_encode .wrmagic, decode_encode .rdmagic,
    decode_encode .rewind, decode_encode .encode, decode_encode .decode, decode_encode .close,
    decode_encode .compress, decode_encode .decompress, decode_encode .streamHdrInternal,
    decode_encode (.streamHdrLeaf 97), decode_encode (.streamHdrLeaf 256), decode_encode (.streamMagic 0xFACE8201)⟩

end Sys2Proof.Machine
end

section
/-! What a step does with a fetched word or token (30_encoding.md R90, R91, 43_header.md R147, 45_decompress.md
R180). -/

namespace Sys2Proof.Machine

open Sys2Proof

/-! ### A CMD write -/

/-- Between commands a 32-bit write at offset 0 is a CMD write. -/
theorem step_cmdWrite {s : State} {w : Word} {rest : List Move} (hq : s.quiet)
    (hm : s.moves = .access (.write 32 0 w) :: rest) :
    step s = cmdWrite w { s with moves := rest, reply := .nothing } :=
  step_access hq hm

theorem cmdWrite_ok {w : Word} {i : Instr} (s : State) (h : decode (.command w) = .ok i) : cmdWrite w s = exec i s := by
  simp only [cmdWrite, h]

/-- The fourteen command words (30_encoding.md R89). -/
def commandWords : List Word :=
  [0x01, 0x02, 0x03, 0x04, 0x05, 0x06, 0x07, 0x08, 0x09, 0x0A, 0x0B, 0x0C, 0x10, 0x11]

theorem mem_commandWords_of_encode {i : Instr} {w : Word} (h : encode i = .command w) : w ∈ commandWords := by
  cases i with
  | streamMagic | streamHdrInternal | streamHdrLeaf => cases h
  | clear | count | build | gencodes | wrhdr | rdhdr | wrmagic | rdmagic | rewind | encode | decode | close
  | compress | decompress => cases h; decide

theorem decode_command_error {w : Word} (h : w ∉ commandWords) : ∃ e, decode (.command w) = .error e := by
  cases hd : decode (.command w) with
  | ok i => exact absurd (mem_commandWords_of_encode (decodeCommand_ok w i hd)) h
  | error e => exact ⟨e, rfl⟩

/-- A fault that writes nothing to OUT, raised where neither DECODE nor BUILD stands. -/
theorem finish_writesNothing (s0 : State) {s : State} {e : Cause} (he : e.writesNothing = true) (hcur : s.cur = none)
    (hpq : s.pq = []) :
    finish s0 (.raised e s) = .next { s with st := .faulted, err := e.code, rd := .off } := by
  rw [finish, takeFault_writesNothing s0 s e he, ← hcur, ← hpq]

/-- While IDLE a word that is no command has IllegalCommandError taken, and nothing else happens. -/
theorem cmdWrite_illegal {w : Word} {s : State} (hw : w ∉ commandWords) (hs : s.st = .idle) (hq : s.quiet) :
    cmdWrite w s = .next { s with st := .faulted, err := 8 } := by
  obtain ⟨hrd, hcur, hpq⟩ := hq
  obtain ⟨e, he⟩ := decode_command_error hw
  have hraise : cmdWrite w s = finish s (.raised .illegalCommandError s) := by
    simp only [cmdWrite, he, runCommand, hs]
  rw [hraise, finish_writesNothing s rfl hcur hpq, ← hrd]
  rfl

/-- Settles O4: the word decodes to an error, which is a `raise` and nothing else while IDLE, and ignored while
FAULTED. -/
theorem illegalCommandWords : Obligations.IllegalCommandWords := by
  unfold Obligations.IllegalCommandWords
  intro s w rest hq hm hw
  have hclear : w ≠ 1 := fun h1 => hw (by simp [h1])
  rw [step_cmdWrite hq hm]
  exact ⟨fun hs => cmdWrite_illegal hw hs hq, fun hs => cmdWrite_faulted hs hclear⟩

/-! ### A token inside RDHDR or RDMAGIC -/

theorem tokenLength_of_decodeHeader {bits : Bits} {i : Instr} (h : decodeHeader bits = .ok i) :
    tokenLength i = (encode i).size := by
  rcases decodeHeader_ok h with ⟨_, rfl, _⟩ | ⟨v, _, rfl, _⟩
  · rfl
  · simp [tokenLength, encode, Fetched.size]

theorem step_header {s : State} {room : Nat} {openNodes : List (Option Tree)} {i : Instr}
    (hrd : s.rd = .header (room + 1) openNodes) (hd : decode (.header s.inp.rest) = .ok i) :
    step s = exec i { s with inp := { s.inp with pos := s.inp.pos + (encode i).size } } := by
  have hroom : room + 1 ≠ 0 := Nat.succ_ne_zero room
  simp only [step, stepOf, hrd, headerStep, if_neg hroom, hd, tokenLength_of_decodeHeader hd]

theorem step_magic {s : State} {i : Instr} (hrd : s.rd = .magic) (hd : decode (.magic s.inp.rest) = .ok i) :
    step s = exec i { s with inp := { s.inp with pos := s.inp.pos + 32 } } := by
  simp only [step, stepOf, hrd, magicStep, hd]

/-- Settles O5: a CMD write between commands, a token inside RDHDR, the field inside RDMAGIC, and no move left. -/
theorem stepRunsTheDecodedInstruction : Obligations.StepRunsTheDecodedInstruction := by
  unfold Obligations.StepRunsTheDecodedInstruction
  refine ⟨fun s w rest i hq hm hd => ?_, fun s room openNodes i hrd hd => step_header hrd hd,
    fun s i hrd hd => step_magic hrd hd, fun s hq hm => step_wait s hq hm⟩
  rw [step_cmdWrite hq hm, cmdWrite_ok _ hd]

end Sys2Proof.Machine
end

section
/-! One stream token in the reader (43_header.md R147, R148, 45_decompress.md R180; log 5). -/

namespace Sys2Proof.Machine

open Sys2Proof

theorem feedLeaf_legal (room : Nat) (openNodes : List (Option Tree)) {v : SymField} {sym : Symbol}
    (h : v.toNat = sym.val) : feedLeaf (room + 1) openNodes v = deliver room (.leaf sym 0) openNodes := by
  simp only [feedLeaf, symbolOfField_eq v sym h]

/-- Inside a header an internal token feeds the header that is being read. -/
theorem exec_streamHdrInternal {s : State} {room : Nat} {openNodes : List (Option Tree)} (hs : s.st = .idle)
    (hrd : s.rd = .header room openNodes) :
    exec .streamHdrInternal s = finish s (applyFed s (feedInternal room openNodes)) := by
  rw [exec_run_streamHdrInternal s hs, streamHdrInternalBody, hrd]
  rfl

/-- Inside a header a leaf token feeds the header that is being read. -/
theorem exec_streamHdrLeaf {s : State} {room : Nat} {openNodes : List (Option Tree)} (v : SymField) (hs : s.st = .idle)
    (hrd : s.rd = .header room openNodes) :
    exec (.streamHdrLeaf v) s = finish s (applyFed s (feedLeaf room openNodes v)) := by
  rw [exec_run_streamHdrLeaf v s hs, streamHdrLeafBody, hrd]
  rfl

/-- A malformed header, met where neither DECODE nor BUILD stands, leaves the reader off. -/
theorem finish_malformed {s : State} (hcur : s.cur = none) (hpq : s.pq = []) :
    ∃ u, finish s (applyFed s .malformed) = .next u ∧ State.faultLeaves { s with rd := .off } 4 u := by
  have h := takeFault_faultLeaves s s .malformedHeaderError List.prefix_rfl rfl fun _ => rfl
  rw [← hcur, ← hpq] at h
  exact ⟨_, rfl, h⟩

/-- Settles O35: `deliver_lefts` completes the open nodes whose left child has been read; a malformed token and a
foreign magic field have their fault taken. -/
theorem streamTokensRunInTheReader : Obligations.StreamTokensRunInTheReader := by
  unfold Obligations.StreamTokensRunInTheReader
  intro s room openNodes lefts v sym hs
  refine ⟨fun hrd => ?_, fun hrd hv => ?_, fun hrd hv => ?_, fun hv hcur hpq => ?_, fun hrd hcur hpq => ⟨?_, ?_⟩,
    fun m hm => ?_, fun m hm hcur hpq => ?_⟩
  · exact exec_streamHdrInternal hs hrd
  · rw [exec_streamHdrLeaf v hs hrd, feedLeaf_legal _ _ hv, ← List.append_nil (lefts.map some), deliver_lefts]
    rfl
  · rw [exec_streamHdrLeaf v hs hrd, feedLeaf_legal _ _ hv, deliver_lefts]
    rfl
  · rw [exec_run_streamHdrLeaf v s hs, streamHdrLeafBody, feedLeaf_bad _ _ _ hv]
    exact finish_malformed hcur hpq
  · rw [exec_streamHdrInternal hs hrd]
    exact finish_malformed hcur hpq
  · rw [exec_streamHdrLeaf v hs hrd]
    exact finish_malformed hcur hpq
  · rw [exec_run_streamMagic m s hs, streamMagicBody, if_pos hm]
    rfl
  · rw [exec_run_streamMagic m s hs, streamMagicBody, if_neg hm]
    exact finish_writesNothing s rfl hcur hpq

end Sys2Proof.Machine
end

section
/-! ENCODE and DECODE (44_compress.md R162, 45_decompress.md R181 to R184). -/

namespace Sys2Proof.Machine

open Sys2Proof

theorem bodyBits_some {c : Symbol → Option Bits} {ws : List Byte} {q : Bits} (h : bodyBits c ws = some q) :
    ∃ p e, codesOfWords c ws = some p ∧ c Config.pseudoEof = some e ∧ q = p ++ e := by
  unfold bodyBits at h
  split at h
  · next p e hp he =>
    cases h
    exact ⟨p, e, hp, he, rfl⟩
  · cases h

/-- Settles O39: the loop appends the words' codes (`encodeWords_eq`), and the last line that of 256. -/
theorem encodeAppendsTheBody : Obligations.EncodeAppendsTheBody := by
  unfold Obligations.EncodeAppendsTheBody
  intro s q hs hv hc hq
  obtain ⟨p, e, hp, he, rfl⟩ := bodyBits_some hq
  have hbody : encodeBody s =
      .done { s with out := { s.out with bits := s.out.bits ++ (p ++ e) }, inp := s.inp.toEnd } := by
    simp [encodeBody, requireElse, hv, hc, encodeWords_eq _ _ _ _ _ hp, he, OutChan.writeCode]
  rw [exec_run_encode s hs, hbody]
  rfl

/-- Past its `require` line DECODE is the walk over its tree. -/
theorem exec_decode_open {s : State} {t : Tree} (hs : s.st = .idle) (ht : s.tree = some t) (hc : s.out.closed = false) :
    exec .decode s = finish s (decodeTree t s) := by
  rw [exec_run_decode s hs]
  simp only [decodeBody, ht, requireElse, hc, Bool.not_false, if_true]

/-- DECODE over bits that spell words and then 256 writes the words and stops behind 256. -/
theorem decodeTree_spells {s : State} {w : Weight} {l r : Tree} {ws : List Byte} {q rest : Bits}
    (h : (Tree.node w l r).spells ws q) (hr : s.inp.rest = q ++ rest) (hp : s.inp.pos ≤ s.inp.bits.length) :
    decodeTree (.node w l r) s = .done
      { s with
        out := { s.out with bits := s.out.bits ++ bitsOfBytes ws }
        inp := { s.inp with pos := s.inp.pos + q.length }, cur := none } := by
  simp only [decodeTree, hr, walkBits_spells w l r ws q s.out rest h, leaving_eq _ _ _ hr hp]

/-- DECODE over bits that spell nothing runs out of input, having appended some words. -/
theorem decodeTree_truncated {s : State} {w : Weight} {l r : Tree}
    (h : ∀ (ws : List Byte) (q rest : Bits), (Tree.node w l r).spells ws q → s.inp.rest ≠ q ++ rest) :
    ∃ ws, decodeTree (.node w l r) s = .raised .truncatedBodyError
      { s with out := { s.out with bits := s.out.bits ++ bitsOfBytes ws }, inp := s.inp.toEnd } := by
  rcases walkBits_spec (.node w l r) (.node w l r) s.out s.inp.rest with ⟨ws, rest, hstop, _⟩ | ⟨ws, htrunc⟩
  · obtain ⟨ws', q, hspell, hrest⟩ :=
      walkBits_stopped (.node w l r) ⟨w, l, r, rfl⟩ _ w l r [] _ _ rest (fun _ _ hm => hm) hstop
    exact absurd hrest (h ws' q rest hspell)
  · exact ⟨ws, by simp only [decodeTree, htrunc]⟩

theorem decodeTree_leafEof (w : Weight) (s : State) :
    decodeTree (.leaf Config.pseudoEof w) s = .done { s with cur := none } := rfl

theorem decodeTree_leafOther {v : Symbol} (h : v ≠ Config.pseudoEof) (w : Weight) (s : State) :
    decodeTree (.leaf v w) s = .raised .malformedHeaderError s := if_neg h

/-- Settles O46: an internal root's walk stops behind what the bits spell or runs to the end of the input; a root
that is a leaf is decided before a bit is read. -/
theorem decodeAlwaysEnds : Obligations.DecodeAlwaysEnds := by
  unfold Obligations.DecodeAlwaysEnds
  intro s t hs hq ht hc hp
  rw [exec_decode_open hs ht hc]
  have hcur : s.cur = none := hq.2.1
  refine ⟨fun hleaves => ?_, ?_, ?_⟩
  · cases t with
    | leaf v w => simp [Tree.leaves] at hleaves
    | node w l r =>
      refine ⟨fun ws q rest hspell hr => ?_, fun hnone => ?_⟩
      · rw [decodeTree_spells hspell hr hp, ← hcur]
        rfl
      · obtain ⟨ws, hbody⟩ := decodeTree_truncated hnone
        rw [hbody]
        exact finish_faultLeaves .truncatedBodyError hq (List.prefix_append _ _) rfl (by simp [hc])
  · rintro w rfl
    have hleaf : decodeTree (.leaf 256 w) s = .done { s with cur := none } := decodeTree_leafEof w s
    rw [hleaf, ← hcur]
    rfl
  · rintro v w rfl hv
    rw [decodeTree_leafOther hv]
    exact finish_faultLeaves .malformedHeaderError hq List.prefix_rfl rfl fun _ => rfl

end Sys2Proof.Machine
end

section
/-! COUNT: the counts, their sum, and the word that overflows one (40_count.md R110, R111). -/

namespace Sys2Proof.Machine

open Sys2Proof

/-- COUNT over words none of which fills its count. -/
theorem countBody_counted {s : State} (h : ∀ b : Byte, s.inp.words.count b ≤ 4294967295) :
    ∃ f, countBody s = .done { s with freq := f, inp := s.inp.toEnd } ∧
      ∀ b : Byte, (freqRead f (byteSymbol b)).toNat = s.inp.words.count b := by
  obtain ⟨f, hloop, hcount⟩ := countWords_eq s.inp.words [] freqZero 0 (by simpa using h)
  rw [List.append_nil] at hloop
  exact ⟨f, by rw [countBody, hloop]; rfl, by simpa using hcount⟩

/-- COUNT up to a word whose count is full: that word is read, and not counted. -/
theorem countBody_overflow {s : State} {ws rest : List Byte} {b : Byte} (hw : s.inp.words = ws ++ b :: rest)
    (hfull : ws.count b = 4294967295) (h : ∀ c : Byte, ws.count c ≤ 4294967295) :
    ∃ f, countBody s = .raised .countOverflowError
        { s with freq := f, inp := { s.inp with pos := s.inp.pos + 8 * (ws.length + 1) } } ∧
      ∀ c : Byte, (freqRead f (byteSymbol c)).toNat = ws.count c := by
  obtain ⟨f, hloop, hcount⟩ := countWords_eq ws (b :: rest) freqZero 0 (by simpa using h)
  replace hcount (c : Byte) : (freqRead f (byteSymbol c)).toNat = ws.count c := by simpa using hcount c
  have hmax : freqRead f (byteSymbol b) = Config.countMax :=
    BitVec.eq_of_toNat_eq ((hcount b).trans hfull)
  rw [countWords_full _ _ _ _ hmax, Nat.zero_add] at hloop
  exact ⟨f, by rw [countBody, hw, hloop], hcount⟩

/-- The stored count at an index is the count of the byte with that value. -/
theorem freqRead_byteSymbol_ofFin (f : Vector Word 256) (n : Fin 256) :
    freqRead f (byteSymbol (BitVec.ofFin n)) = f[n.val] :=
  dif_pos n.isLt

/-- Every byte of a list is one of the 256 values, so the numbers of occurrences add up to the length. -/
theorem sum_count_bytes (ws : List Byte) :
    ((List.finRange 256).map fun n => ws.count (BitVec.ofFin n)).sum = ws.length := by
  induction ws with
  | nil => exact sum_map_zero (List.finRange 256)
  | cons w ws ih =>
    have hcons (n : Fin 256) : (w :: ws).count (BitVec.ofFin n) =
        ws.count (BitVec.ofFin n) + if w.toFin = n then 1 else 0 := by
      simp [List.count_cons, ← BitVec.toFin_inj]
    simp only [hcons, sum_map_add', sum_indicator, ih, List.length_cons]

/-- Settles O20: the loop counts every word, and the counts of all byte values add up to the number of words. -/
theorem countCountsEveryWord : Obligations.CountCountsEveryWord := by
  unfold Obligations.CountCountsEveryWord
  intro s hs h
  obtain ⟨f, hbody, hcount⟩ := countBody_counted h
  refine ⟨f, ?_, hcount, freqRead_eof f, ?_, words_length s.inp⟩
  · rw [exec_run_count s hs, hbody]
    rfl
  · simp only [← freqRead_byteSymbol_ofFin, hcount]
    exact sum_count_bytes s.inp.words

/-- Settles O21: the raise stands at the full count, and the fault taken leaves the rest of OUT open. -/
theorem countStopsAtAFullCount : Obligations.CountStopsAtAFullCount := by
  unfold Obligations.CountStopsAtAFullCount
  intro s ws b rest hs hq hw hfull h
  obtain ⟨f, hbody, hcount⟩ := countBody_overflow hw hfull h
  rw [exec_run_count s hs, hbody]
  obtain ⟨t, hnext, hleaves⟩ := finish_faultLeaves (s := s)
    (u := { s with freq := f, inp := { s.inp with pos := s.inp.pos + 8 * (ws.length + 1) } })
    .countOverflowError hq List.prefix_rfl rfl fun _ => rfl
  exact ⟨f, t, hnext, hleaves, hcount⟩

end Sys2Proof.Machine
end

section
/-! COMPRESS: the stream it writes (44_compress.md R166 to R169). -/

namespace Sys2Proof.Machine

open Sys2Proof

/-- A tree whose leaves are the symbols of positive count has a code for each of them. -/
theorem codeOf_isSome_of_positive {f : Vector Word 256} {t : Tree} {v : Symbol}
    (hl : t.leafList.Perm ((seeded f).map fun v => (v, (freqRead f v).setWidth 41))) (hv : freqRead f v ≠ 0) :
    (t.codeOf v).isSome = true := by
  rw [codeOf_isSome, paths_map_fst, (hl.map _).mem_iff, List.map_map]
  exact List.mem_map.mpr ⟨v, List.mem_filter.mpr ⟨mem_allSymbols v, by simpa using hv⟩, rfl⟩

/-- Words that all have a code have a body, if 256 has one too. -/
theorem bodyBits_isSome {c : Symbol → Option Bits} {ws : List Byte} (h : ∀ w ∈ ws, (c (byteSymbol w)).isSome = true)
    (heof : (c Config.pseudoEof).isSome = true) : ∃ q, bodyBits c ws = some q := by
  obtain ⟨p, hp⟩ := codesOfWords_isSome c ws h
  obtain ⟨e, he⟩ := Option.isSome_iff_exists.mp heof
  exact ⟨p ++ e, by simp only [bodyBits, hp, he]⟩

/-- The tree of a table that counts these words spells them. -/
theorem bodyBits_of_counts {f : Vector Word 256} {t : Tree} {ws : List Byte}
    (hf : ∀ b : Byte, (freqRead f (byteSymbol b)).toNat = ws.count b)
    (hl : t.leafList.Perm ((seeded f).map fun v => (v, (freqRead f v).setWidth 41))) :
    ∃ q, bodyBits t.codeOf ws = some q := by
  refine bodyBits_isSome (fun w hw => codeOf_isSome_of_positive hl fun h0 => ?_)
    (codeOf_isSome_of_positive hl (by simp))
  have hpos := List.count_pos_iff.mpr hw
  rw [← hf, h0] at hpos
  exact absurd hpos (by simp)

/-- A command that leaves the machine IDLE ran its body to the last line. -/
theorem bodyOf_done_of_exec {i : Instr} {s t : State} (hs : s.st = .idle) (h : exec i s = .next t)
    (ht : t.st = .idle) : bodyOf i s = .done t := by
  rw [exec_idle i s hs] at h
  obtain ⟨_, _, _, _, _, _, hdone⟩ := finish_next h
  exact hdone ht

@[simp] theorem Ending.done_andThen (s : State) (body : State → Ending) : (Ending.done s).andThen body = body s := rfl

theorem gencodesBody_tree {s : State} {t : Tree} (ht : s.tree = some t) :
    gencodesBody s = .done { s with code := codeTable t, codesValid := true } := by
  rw [gencodesBody, ht]

theorem wrmagicBody_open {s : State} (hc : s.out.closed = false) :
    wrmagicBody s = .done { s with out := s.out.writeCode (bitsMsb s.magic) } := by
  rw [wrmagicBody, hc]
  rfl

theorem wrhdrBody_open {s : State} {t : Tree} (ht : s.tree = some t) (hc : s.out.closed = false) :
    wrhdrBody s = .done { s with out := s.out.writeCode t.headerBits } := by
  simp [wrhdrBody, ht, requireElse, hc, emitHeader_eq, OutChan.writeCode]

@[simp] theorem writeCode_closed (p : Bits) (o : OutChan) : (o.writeCode p).closed = o.closed := rfl

theorem encodeBody_codes {s : State} {q : Bits} (hs : s.st = .idle) (hv : s.codesValid = true)
    (hc : s.out.closed = false) (hq : bodyBits (codeRead s.code) s.inp.words = some q) :
    encodeBody s = .done { s with out := s.out.writeCode q, inp := s.inp.toEnd } :=
  bodyOf_done_of_exec hs (encodeAppendsTheBody s q hs hv hc hq) hs

theorem closeBody_open {s : State} (hc : s.out.closed = false) :
    closeBody s = .done { s with out := s.out.close } := by
  rw [closeBody, hc]
  rfl

/-- The units of COMPRESS from GENCODES on, with a tree in TREE and OUT open. -/
theorem streamUnits_done {s : State} {t : Tree} {q : Bits} (hs : s.st = .idle) (ht : s.tree = some t)
    (hc : s.out.closed = false) (hq : bodyBits t.codeOf s.inp.resetToStart.words = some q) :
    ((((((gencodesBody s).andThen wrmagicBody).andThen wrhdrBody).andThen rewindBody).andThen encodeBody).andThen
        closeBody) = .done
      { s with
        code := codeTable t, codesValid := true, inp := s.inp.toEnd
        out := (((s.out.writeCode (bitsMsb s.magic)).writeCode t.headerBits).writeCode q).close } := by
  have hcode : codeRead (codeTable t) = t.codeOf := funext (codeRead_codeTable t)
  simp only [gencodesBody_tree ht, Ending.done_andThen, wrmagicBody_open, wrhdrBody_open (t := t), rewindBody,
    encodeBody_codes (q := q), closeBody_open, writeCode_closed, hcode, hs, ht, hc, hq]
  rfl

/-- BUILD makes one tree of a table, whatever else the state holds (41_treebuild.md R125). -/
theorem buildBody_freq (f : Vector Word 256) : ∃ t : Tree,
    t.leafList.Perm ((seeded f).map fun v => (v, (freqRead f v).setWidth 41)) ∧
    ∀ s : State, s.freq = f → buildBody s = .done { s with codesValid := false, tree := some t, pq := [] } := by
  obtain ⟨t, _, ⟨e, he, rfl⟩, _, hleaves, _⟩ := buildBody_spec { State.reset with freq := f }
  refine ⟨e.t, hleaves, ?_⟩
  rintro s rfl
  obtain ⟨t', hbody, ⟨e', he', rfl⟩, _⟩ := buildBody_spec s
  obtain rfl : e = e' := by simpa using he.symm.trans he'
  exact hbody

/-- COMPRESS on an open OUT when no byte value fills its count and the tree of the counts spells the whole input. -/
theorem compressBody_done {s : State} {f : Vector Word 256} {t : Tree} {q : Bits} (hs : s.st = .idle)
    (hc : s.out.closed = false) (hcount : countBody s = .done { s with freq := f, inp := s.inp.toEnd })
    (hbuild : ∀ s : State, s.freq = f → buildBody s = .done { s with codesValid := false, tree := some t, pq := [] })
    (hq : bodyBits t.codeOf s.inp.resetToStart.words = some q) :
    compressBody s = .done
      (Machine.discard { s with
        pq := [], inp := s.inp.toEnd
        out := (((s.out.writeCode (bitsMsb s.magic)).writeCode t.headerBits).writeCode q).close }) := by
  have hstream := streamUnits_done (s := { s with
    freq := f, inp := s.inp.toEnd, codesValid := false, tree := some t, pq := [] }) hs rfl hc hq
  rw [compressBody, hcount, Ending.done_andThen, hbuild _ rfl, Ending.done_andThen, hstream]
  rfl

/-- Settles O43: COUNT's table has a positive count for every byte of the input, so BUILD's tree spells it. -/
theorem compressWritesTheStream : Obligations.CompressWritesTheStream := by
  unfold Obligations.CompressWritesTheStream
  rintro s input ⟨⟨hs, _⟩, ⟨_, _, hpq⟩, hin, hout⟩ hcounts
  have hwords : s.inp.words = input := by rw [hin, words_whole]
  have hrewound : s.inp.resetToStart.words = input := by rw [hin]; exact words_whole input
  obtain ⟨f, hcount, hf⟩ := countBody_counted (hwords ▸ hcounts)
  rw [hwords] at hf
  obtain ⟨t, hleaves, hbuild⟩ := buildBody_freq f
  obtain ⟨q, hq⟩ := bodyBits_of_counts hf hleaves
  have hexec := (exec_run_build { s with freq := f } hs).trans (congrArg (finish _) (hbuild _ rfl))
  refine ⟨f, t, q, hf, ⟨_, hexec, rfl⟩, hq, ?_⟩
  rw [exec_run_compress s hs,
    compressBody_done hs (by rw [hout]; rfl) hcount hbuild (hrewound.symm ▸ hq), ← hpq, hout, hin]
  simp [finish, Machine.discard, InChan.toEnd, OutChan.fresh, OutChan.close, OutChan.writeCode, padBits,
    freqZero, codeNone, Nat.add_assoc]

end Sys2Proof.Machine
end

section
/-! BUILD: it depends on FREQ alone, and its merges one by one (41_treebuild.md R120, R122, R125). -/

namespace Sys2Proof.Machine

open Sys2Proof

theorem exec_build_of_body {s : State} {t : Tree} (hs : s.st = .idle)
    (hbody : buildBody s = .done { s with codesValid := false, tree := some t, pq := [] }) :
    exec .build s = .next { s with tree := some t, codesValid := false, pq := [] } := by
  rw [exec_run_build s hs, hbody]
  rfl

/-- Settles O24: the tree of a table does not depend on the rest of the state. -/
theorem buildIsAFunctionOfFreq : Obligations.BuildIsAFunctionOfFreq := by
  unfold Obligations.BuildIsAFunctionOfFreq
  intro s₁ s₂ hs₁ hs₂ hfreq
  obtain ⟨t, _, hbuild⟩ := buildBody_freq s₁.freq
  exact ⟨t, exec_build_of_body hs₁ (hbuild s₁ rfl), exec_build_of_body hs₂ (hbuild s₂ hfreq.symm)⟩

/-- BUILD's body seeds the queue, merges, and takes the root. -/
theorem buildBody_startMerge (s : State) : buildBody s =
    .done (takeRoot { startMerge s with pq := mergeAll (seedQueue s.freq).length 0 (seedQueue s.freq) }) := rfl

/-- Settles O48: the seeded queue is not empty and as long as the list of seeded symbols, so the single steps
number their merges as the loop does. -/
theorem buildIsItsMergeSteps : Obligations.BuildIsItsMergeSteps := by
  unfold Obligations.BuildIsItsMergeSteps
  rintro s t hs ⟨hrd, hcur, _⟩ hexec
  rw [exec_run_build s hs, buildBody_startMerge] at hexec
  obtain ⟨_, hlength, _⟩ := seedQueue_spec s.freq
  obtain ⟨n, hn⟩ := run_merge (seedQueue s.freq).length 0 (seedQueue s.freq) (startMerge s) hrd hcur rfl
    (seedQueue_ne_nil s.freq) (Nat.le_succ _) hlength
  exact ⟨n, hn.trans hexec⟩

end Sys2Proof.Machine
end

section
/-! The codes of a built tree (42_codegen.md R138). -/

namespace Sys2Proof.Machine

open Sys2Proof

theorem mem_positiveSymbols {f : Vector Word 256} {v : Symbol} : v ∈ positiveSymbols f ↔ freqRead f v ≠ 0 := by
  rw [positiveSymbols, List.mem_filter, bne_iff_ne, and_iff_right (mem_allSymbols v)]

theorem exec_gencodes_of_tree {s : State} {t : Tree} (hs : s.st = .idle) (ht : s.tree = some t) :
    exec .gencodes s = .next { s with code := codeTable t, codesValid := true } := by
  rw [exec_run_gencodes s hs, gencodesBody_tree ht]
  rfl

/-- A tree whose leaves are the symbols of positive count has a code for those symbols only. -/
theorem codeOf_isSome_iff_positive {f : Vector Word 256} {t : Tree} {v : Symbol}
    (hl : t.leafList.Perm ((positiveSymbols f).map fun v => (v, (freqRead f v).setWidth 41))) :
    (t.codeOf v).isSome = true ↔ freqRead f v ≠ 0 := by
  have hsymbols : (t.leafList.map (·.1)).Perm (positiveSymbols f) := by
    simpa [Function.comp_def] using hl.map (·.1)
  rw [codeOf_isSome, paths_map_fst, hsymbols.mem_iff, mem_positiveSymbols]

/-- Settles O29: the built tree has one leaf for each symbol of positive count, and 256 has count 1. -/
theorem builtCodesCoverTheTable : Obligations.BuiltCodesCoverTheTable := by
  unfold Obligations.BuiltCodesCoverTheTable
  intro s hs
  obtain ⟨t, hbuild, _, hleaves, _⟩ := buildMakesAMergedTree s hs
  have hcodes : ∀ v, (codeRead (codeTable t) v).isSome = true ↔ freqRead s.freq v ≠ 0 := fun v => by
    rw [codeRead_codeTable, codeOf_isSome_iff_positive hleaves]
  refine ⟨_, _, hbuild, exec_gencodes_of_tree hs rfl, hcodes, ?_⟩
  rw [hcodes, freqRead_eof]
  decide

end Sys2Proof.Machine
end

section
/-! Minimality of the built tree (41_treebuild.md R124). -/

namespace Sys2Proof.Machine

open Sys2Proof

/-- The seeded entries, each hung at the length of its symbol's code. -/
def hungLeaves (f : Vector Word 256) (c : Symbol → Bits) : List (Entry × Nat) :=
  (positiveSymbols f).map fun v => (leafEntry f v, (c v).length)

theorem hungLeaves_entries (f : Vector Word 256) (c : Symbol → Bits) :
    ((hungLeaves f c).map (·.1)).Perm (seedQueue f) := by
  rw [hungLeaves, List.map_map]
  exact (seedQueue_perm f).symm

theorem hungLeaves_lengths (f : Vector Word 256) (c : Symbol → Bits) :
    (hungLeaves f c).map (·.2) = ((positiveSymbols f).map c).map List.length := by
  simp [hungLeaves]

@[simp] theorem cost_leafEntry (f : Vector Word 256) (v : Symbol) : (leafEntry f v).t.cost f 0 = 0 := Nat.zero_mul _

/-- A leaf alone costs its count times its depth. -/
theorem forestCost_hungLeaves (f : Vector Word 256) (c : Symbol → Bits) : forestCost f (hungLeaves f c) =
    ((positiveSymbols f).map fun v => (freqRead f v).toNat * (c v).length).sum := by
  simp [forestCost, hungLeaves, Function.comp_def, toNat_leafEntry]

theorem weighed_seedQueue (f : Vector Word 256) : Weighed f (seedQueue f) := by
  intro e he
  obtain ⟨v, _, rfl⟩ := List.mem_map.mp ((seedQueue_perm f).mem_iff.mp he)
  exact toNat_leafEntry f v

theorem nodup_positiveSymbols (f : Vector Word 256) : (positiveSymbols f).Nodup := (List.nodup_finRange 257).filter _

/-- R124's condition on an assignment, in the form that Kraft's inequality needs. -/
theorem prefixFree_map {l : List Symbol} {c : Symbol → Bits} (hl : l.Nodup)
    (hc : ∀ x ∈ l, ∀ y ∈ l, c x <+: c y → x = y) : PrefixFree (l.map c) :=
  List.pairwise_map.mpr <| List.Pairwise.imp_of_mem
    (fun hx hy hne => ⟨fun h => hne (hc _ hx _ hy h), fun h => hne (hc _ hy _ hx h).symm⟩) hl

/-- Kraft's inequality, with the strings' whole length as the unit's exponent. -/
theorem PrefixFree.exists_kraft_le {ps : List Bits} (h : PrefixFree ps) :
    ∃ n, (∀ l ∈ ps.map List.length, l ≤ n) ∧ kraft n (ps.map List.length) ≤ 2 ^ n := by
  have hbound : ∀ p ∈ ps, p.length ≤ ps.flatten.length := fun p hp => (List.sublist_flatten_of_mem hp).length_le
  exact ⟨_, List.forall_mem_map.mpr hbound, kraft_le _ ps h hbound⟩

/-- Settles O25: the lengths of strings of which none begins another meet Kraft's inequality, and the merge loop is
optimal among all lengths that do. -/
theorem builtTreeIsMinimal : Obligations.BuiltTreeIsMinimal := by
  unfold Obligations.BuiltTreeIsMinimal
  intro s u t c hs hexec htree hprefix
  obtain ⟨_, hbody, ⟨e, hmerge, rfl⟩, _⟩ := buildBody_spec s
  obtain rfl : e.t = t := by
    rw [exec_build_of_body hs hbody] at hexec
    cases hexec
    exact Option.some.inj htree
  obtain ⟨n, hle, hkraft⟩ := (prefixFree_map (nodup_positiveSymbols s.freq) hprefix).exists_kraft_le
  rw [← hungLeaves_lengths s.freq c] at hle hkraft
  rw [← forestCost_hungLeaves]
  exact mergeAll_minimal s.freq _ 0 n _ (seedQueue_spec s.freq).1 (weighed_seedQueue s.freq) (Nat.le_succ _)
    (seedQueue_ne_nil s.freq) _ (hungLeaves_entries s.freq c) hle hkraft e hmerge

end Sys2Proof.Machine
end

section
/-! GENCODES: the paths of the leaves, and that no code begins another symbol's (42_codegen.md R135 to R138). -/

namespace Sys2Proof.Machine

open Sys2Proof

/-- Settles O27: the code table holds `codeOf`, and without a tree GENCODES fails its `require` line. -/
theorem gencodesGivesThePaths : Obligations.GencodesGivesThePaths := by
  unfold Obligations.GencodesGivesThePaths
  refine ⟨decode_encode .gencodes, fun s t hs ht => ?_, fun s hs hq ht => ?_⟩
  · exact ⟨codeTable t, exec_gencodes_of_tree hs ht, codeRead_codeTable t⟩
  · exact failedPreconditionIsSequenceError s .gencodes hs hq (.inl ⟨rfl, ht⟩)

/-- A tree of at least two leaves is a node, so every leaf is at least one branch away from the root. -/
theorem path_length_pos {t : Tree} {v : Symbol} {p : Bits} (h : (v, p) ∈ t.paths) (hl : 2 ≤ t.leaves) :
    1 ≤ p.length := by
  cases t with
  | leaf => simp [Tree.leaves] at hl
  | node w l r => exact List.length_pos_of_ne_nil (path_ne_nil w l r v p h)

/-- Settles O28: every code is the path of a leaf, a path is as long as its leaf is deep, and no path begins that of
another leaf. -/
theorem generatedCodesArePrefixFree : Obligations.GeneratedCodesArePrefixFree := by
  unfold Obligations.GeneratedCodesArePrefixFree
  intro s s' t hs ht hexec
  rw [exec_gencodes_of_tree hs ht] at hexec
  cases hexec
  have hpath {v : Symbol} {p : Bits} (h : codeRead (codeTable t) v = some p) : (v, p) ∈ t.paths :=
    codeOf_mem t v p (codeRead_codeTable t v ▸ h)
  refine ⟨fun v => ?_, fun v p hv => ⟨path_length_pos (hpath hv), fun hn => codeTable_fits t hn v p hv⟩,
    fun u v p q hne hu hv hprefix => ?_⟩
  · rw [codeRead_codeTable, codeOf_isSome, paths_map_fst]
  · exact hne (paths_noPrefix t u v p q (hpath hu) (hpath hv) hprefix).1

end Sys2Proof.Machine
end

section
/-! The header codec: WRHDR, and how RDHDR ends on what it finds (43_header.md R145 to R149). -/

namespace Sys2Proof.Machine

open Sys2Proof

/-! ### What the reader finds -/

/-- The header of a tree that fits is read back, whatever follows it. -/
theorem readHeader_fits {t : Tree} (rest : Bits) (h : t.nodes ≤ Config.nodeCap) :
    readHeader Config.nodeCap [] (t.headerBits ++ rest) = .tree t.zeroWeights rest := by
  rw [readHeader_headerBits t _ _ _ h]
  rfl

/-- A token that the end of the input cuts short. -/
theorem readHeader_cutToken {cut : Bits} (room : Nat) (openNodes : List (Option Tree))
    (h : cut = [] ∨ ∃ bits, cut = true :: bits ∧ bits.length < 9) :
    readHeader (room + 1) openNodes cut = .truncated := by
  rcases h with rfl | ⟨bits, rfl, hlt⟩
  · rfl
  · rw [readHeader, if_pos hlt]

/-- A leaf token whose value is no symbol is refused with its value read. -/
theorem readHeader_illegalLeaf {v : SymField} (room : Nat) (openNodes : List (Option Tree)) (rest : Bits)
    (hv : 256 < v.toNat) :
    readHeader (room + 1) openNodes (true :: bitsMsb v ++ rest) = .malformed rest := by
  have hlen : (bitsMsb v).length = 9 := length_bitsMsb v
  rw [List.cons_append, readHeader, if_neg (by simp), List.take_left' hlen, List.drop_left' hlen, ofBitsMsb_bitsMsb,
    feedLeaf_bad _ _ _ hv]

/-- Where a subtree is still due after tokens that fit, the reader goes on with what follows them. -/
theorem readHeader_afterTokens {toks : List (Option Symbol)} {room : Nat} (tail : Bits)
    (hroom : toks.length + room = Config.nodeCap) (hdue : 0 < subtreesDue 1 toks) :
    ∃ openNodes, readHeader Config.nodeCap [] (toks.flatMap tokenBits ++ tail) = readHeader room openNodes tail := by
  rw [← hroom]
  exact readHeader_tokens toks room [] tail hdue

/-- The same with room left for one more node. -/
theorem readHeader_afterTokens_room {toks : List (Option Symbol)} (tail : Bits) (hlen : toks.length ≤ 512)
    (hdue : 0 < subtreesDue 1 toks) :
    ∃ room openNodes,
      readHeader Config.nodeCap [] (toks.flatMap tokenBits ++ tail) = readHeader (room + 1) openNodes tail :=
  ⟨512 - toks.length, readHeader_afterTokens tail (by simp only [Config.nodeCap]; omega) hdue⟩

/-! ### What RDHDR makes of it -/

/-- The cursor when `n` bits have been read and `rest` is left. -/
theorem leaving_of_length {c : InChan} {rest : Bits} {n : Nat} (h : rest.length + n = c.rest.length)
    (hp : c.pos ≤ c.bits.length) : c.leaving rest = { c with pos := c.pos + n } := by
  rw [rest_length] at h
  have hpos : c.bits.length - rest.length = c.pos + n := by omega
  rw [InChan.leaving, hpos]

theorem exec_rdhdr_truncated {s : State} (hs : s.st = .idle) (hq : s.quiet)
    (h : readHeader Config.nodeCap [] s.inp.rest = .truncated) :
    ∃ u, exec .rdhdr s = .next u ∧ State.faultLeaves
      { s with tree := none, codesValid := false, inp := { s.inp with pos := s.inp.bits.length } } 2 u := by
  rw [exec_run_rdhdr s hs, rdhdrBody, h]
  exact finish_faultLeaves .truncatedHeaderError hq List.prefix_rfl rfl fun _ => rfl

/-- A malformed header, refused after `n` bits. -/
theorem exec_rdhdr_malformed {s : State} {rest : Bits} {n : Nat} (hs : s.st = .idle) (hq : s.quiet)
    (h : readHeader Config.nodeCap [] s.inp.rest = .malformed rest) (hn : rest.length + n = s.inp.rest.length)
    (hp : s.inp.pos ≤ s.inp.bits.length) :
    ∃ u, exec .rdhdr s = .next u ∧ State.faultLeaves
      { s with tree := none, codesValid := false, inp := { s.inp with pos := s.inp.pos + n } } 4 u := by
  rw [exec_run_rdhdr s hs, rdhdrBody, h]
  simp only [leaving_of_length hn hp]
  exact finish_faultLeaves .malformedHeaderError hq List.prefix_rfl rfl fun _ => rfl

/-- From between commands RDHDR leaves what its reader's end leaves of the state its first line makes. -/
theorem exec_rdhdr_endHeader {s : State} (hs : s.st = .idle) (hq : s.quiet) :
    exec .rdhdr s = .next (endHeader (startHeader s) (readHeader Config.nodeCap [] s.inp.rest)) := by
  rw [exec_run_rdhdr s hs, rdhdrBody]
  cases readHeader Config.nodeCap [] s.inp.rest with
  | tree t rest => rw [finish, endHeader, ← hq.1]; rfl
  | truncated => rfl
  | malformed rest => rfl

/-! ### The obligations -/

/-- Settles O31: the reader hands back the tree with weights 0 and leaves what follows its header unread. -/
theorem rdhdrInvertsWrhdr : Obligations.RdhdrInvertsWrhdr := by
  unfold Obligations.RdhdrInvertsWrhdr
  intro s t rest hs hfits hr
  have hp : s.inp.pos ≤ s.inp.bits.length := pos_le_of_rest _ (by simp [hr, headerBits_ne_nil])
  rw [exec_run_rdhdr s hs, rdhdrBody, ← leaving_eq _ _ _ hr hp, hr, readHeader_fits rest hfits]
  rfl

/-- Settles O30: past its `require` lines WRHDR appends the header, and a failed one is SequenceError. -/
theorem wrhdrAppendsTheHeader : Obligations.WrhdrAppendsTheHeader := by
  unfold Obligations.WrhdrAppendsTheHeader
  refine ⟨rfl, fun s t hs ht hc => ⟨?_, length_headerBits t⟩, fun s hs hq hfails => ?_⟩
  · rw [exec_run_wrhdr s hs, wrhdrBody_open ht hc]
    rfl
  · exact failedPreconditionIsSequenceError s .wrhdr hs hq (.inr (.inl ⟨rfl, hfails⟩))

/-- Settles O32: a proper part of a header that fits, and a token cut short after tokens that fit, both end the
reader at the end of the input. -/
theorem rdhdrTruncatedHeader : Obligations.RdhdrTruncatedHeader := by
  unfold Obligations.RdhdrTruncatedHeader
  refine fun s hs hq => ⟨fun t hfits hprefix hne => ?_, fun toks cut hlen hdue hcut hr => ?_⟩
  · exact exec_rdhdr_truncated hs hq (readHeader_truncated t _ _ _ hfits hprefix hne)
  · obtain ⟨room, openNodes, hread⟩ := readHeader_afterTokens_room cut hlen hdue
    exact exec_rdhdr_truncated hs hq (by rw [hr, hread, readHeader_cutToken room openNodes hcut])

/-- Settles O33: where the tokens leave a subtree due and room for a node, the value is read and refused. -/
theorem rdhdrIllegalLeafValue : Obligations.RdhdrIllegalLeafValue := by
  unfold Obligations.RdhdrIllegalLeafValue
  intro s toks v rest hs hq hlen hdue hv hr
  rw [List.append_assoc] at hr
  obtain ⟨room, openNodes, hread⟩ := readHeader_afterTokens_room (true :: bitsMsb v ++ rest) hlen hdue
  rw [Nat.add_assoc]
  refine exec_rdhdr_malformed (rest := rest) hs hq ?_ ?_ (pos_le_of_rest _ (by simp [hr]))
  · rw [hr, hread, readHeader_illegalLeaf room openNodes rest hv]
  · simp [hr]; omega

/-- Settles O34: 513 tokens leave no room for the node due next, and neither does a tree that does not fit, of
whose header the reader has taken at least a bit for each of 513 nodes. -/
theorem rdhdrTooManyNodes : Obligations.RdhdrTooManyNodes := by
  unfold Obligations.RdhdrTooManyNodes
  refine ⟨fun s toks rest hs hq hlen hdue hr => ?_, fun s t rest hs hq hbig hr => ?_⟩
  · obtain ⟨openNodes, hread⟩ := readHeader_afterTokens (room := 0) rest hlen hdue
    have htoks : toks.flatMap tokenBits ≠ [] := by
      cases toks with
      | nil => simp at hlen
      | cons tok toks => cases tok <;> simp [tokenBits]
    refine exec_rdhdr_malformed (rest := rest) hs hq ?_ ?_ (pos_le_of_rest _ (by simp [hr, htoks]))
    · rw [hr, hread, readHeader]
    · rw [hr, List.length_append, Nat.add_comm]
  · obtain ⟨left, hread, hleft⟩ := readHeader_tooBig t Config.nodeCap [] rest hbig
    rw [← hr] at hread hleft
    have hlong : 513 < s.inp.rest.length := by
      rw [hr, List.length_append, length_headerBits]
      omega
    simp only [Config.nodeCap] at hleft
    obtain ⟨u, hexec, hu⟩ := exec_rdhdr_malformed (n := s.inp.rest.length - left.length) hs hq hread (by omega)
      (pos_le_of_rest _ (List.ne_nil_of_length_pos (by omega)))
    exact ⟨_, u, by omega, hexec, hu⟩

/-- Settles O36: `run_header` steps token by token to the reader's end, and RDHDR ends there. -/
theorem rdhdrIsItsTokenSteps : Obligations.RdhdrIsItsTokenSteps := by
  unfold Obligations.RdhdrIsItsTokenSteps
  intro s t hs hq hp hexec
  obtain ⟨n, hn⟩ := run_header Config.nodeCap [] s.inp.rest (startHeader s) hs rfl hq.2.1 hq.2.2 hp rfl
  rw [exec_rdhdr_endHeader hs hq] at hexec
  exact ⟨n, hn.trans hexec⟩

end Sys2Proof.Machine
end

section
/-! WRMAGIC, REWIND, CLOSE, ENCODE without a code, and the composites as their units (44_compress.md R160 to R168,
45_decompress.md R185, R186). -/

namespace Sys2Proof.Machine

open Sys2Proof

/-! ### Magic, rewind, close -/

/-- Settles O37: past its `require` line WRMAGIC is one append, and a failed one is SequenceError. -/
theorem wrmagicAppendsTheMagic : Obligations.WrmagicAppendsTheMagic := by
  unfold Obligations.WrmagicAppendsTheMagic
  refine ⟨decode_encode .wrmagic, fun s hs => ⟨fun hc => ?_, fun hc hq => ?_⟩⟩
  · rw [exec_run_wrmagic s hs, wrmagicBody_open hc]
    rfl
  · exact failedPreconditionIsSequenceError s .wrmagic hs hq (.inr (.inr (.inl ⟨rfl, hc⟩)))

/-- Settles O38: REWIND has no `require` line, and its body is the return to the start. -/
theorem rewindGoesToTheStart : Obligations.RewindGoesToTheStart := by
  unfold Obligations.RewindGoesToTheStart
  exact ⟨decode_encode .rewind, fun s hs => exec_run_rewind s hs⟩

theorem padLength_lt (n : Nat) : padLength n < 8 := Nat.mod_lt _ (by decide)

/-- The pad makes whole bytes (20_memory.md R56). -/
theorem add_padLength_mod (n : Nat) : (n + padLength n) % 8 = 0 := by
  unfold padLength
  omega

/-- Settles O41: an open OUT gets the pad of its length, and a closed one fails the `require` line. -/
theorem closePadsToAByte : Obligations.ClosePadsToAByte := by
  unfold Obligations.ClosePadsToAByte
  refine ⟨decode_encode .close, fun s hs => ⟨fun hc => ?_, fun hc hq => ?_⟩⟩
  · refine ⟨padLength s.out.bits.length, padLength_lt _, add_padLength_mod _, ?_⟩
    rw [exec_run_close s hs, closeBody_open hc]
    rfl
  · exact failedPreconditionIsSequenceError s .close hs hq (.inr (.inr (.inr (.inr (.inr ⟨rfl, hc⟩)))))

/-! ### A word, or 256, without a code -/

/-- ENCODE up to the first word without a code: that word is read, and the codes before it are appended. -/
theorem encodeBody_missingWord {s : State} {ws rest : List Byte} {w : Byte} {q : Bits} (hv : s.codesValid = true)
    (hc : s.out.closed = false) (hw : s.inp.words = ws ++ w :: rest)
    (hq : codesOfWords (codeRead s.code) ws = some q) (hnone : codeRead s.code (byteSymbol w) = none) :
    encodeBody s = .raised .missingCodeError
      { s with out := s.out.writeCode q, inp := { s.inp with pos := s.inp.pos + 8 * (ws.length + 1) } } := by
  rw [encodeBody, hv, hc, hw, encodeWords_missing _ _ _ _ _ _ _ hq hnone, Nat.zero_add]
  rfl

/-- ENCODE when only 256 has no code: all words are read, and their codes appended. -/
theorem encodeBody_missingEof {s : State} {q : Bits} (hv : s.codesValid = true) (hc : s.out.closed = false)
    (hq : codesOfWords (codeRead s.code) s.inp.words = some q) (hnone : codeRead s.code Config.pseudoEof = none) :
    encodeBody s = .raised .missingCodeError { s with out := s.out.writeCode q, inp := s.inp.toEnd } := by
  rw [encodeBody, hv, hc, encodeWords_eq _ _ _ _ _ hq, hnone]
  rfl

/-- An ENCODE whose body raises MissingCodeError behind some codes leaves the cursor where the `raise` found it. -/
theorem exec_encode_missing {s : State} {q : Bits} {i : InChan} (hs : s.st = .idle) (hq : s.quiet)
    (hc : s.out.closed = false)
    (hbody : encodeBody s = .raised .missingCodeError { s with out := s.out.writeCode q, inp := i }) :
    ∃ u, exec .encode s = .next u ∧ State.faultLeaves { s with inp := i } 6 u := by
  rw [exec_run_encode s hs, hbody]
  exact finish_faultLeaves .missingCodeError hq (List.prefix_append _ _) rfl fun h => by simp [hc] at h

/-- Settles O40: the loop stops at the first word without a code, and the last line at 256. -/
theorem encodeMissingCode : Obligations.EncodeMissingCode := by
  unfold Obligations.EncodeMissingCode
  refine fun s hs hq hv hc => ⟨fun ws w rest hw hcodes hnone => ?_, fun hcodes hnone => ?_⟩
  · obtain ⟨q, hcodes⟩ := Option.isSome_iff_exists.mp hcodes
    exact exec_encode_missing hs hq hc (encodeBody_missingWord hv hc hw hcodes hnone)
  · obtain ⟨q, hcodes⟩ := Option.isSome_iff_exists.mp hcodes
    exact exec_encode_missing hs hq hc (encodeBody_missingEof hv hc hcodes hnone)

/-! ### The composites -/

/-- A composite before its first unit. -/
theorem CompositeAt.start {s : State} (hs : s.st = .idle) (units : List Instr) :
    CompositeAt s units (.done s) units :=
  ⟨hs, rfl, rfl, List.prefix_rfl, fun _ => rfl⟩

/-- The units of COMPRESS before CLOSE, in the order of 44_compress.md R166. -/
theorem compressUnits_beforeClose {s : State} (hs : s.st = .idle) :
    CompositeAt s compressUnits
      (((((((countBody s).andThen buildBody).andThen gencodesBody).andThen wrmagicBody).andThen wrhdrBody).andThen
        rewindBody).andThen encodeBody) [.close] :=
  (CompositeAt.start hs compressUnits).andThen exec_run_count countBody_frame keepsClosed_count
    |>.andThen exec_run_build buildBody_frame keepsClosed_build
    |>.andThen exec_run_gencodes gencodesBody_frame keepsClosed_gencodes
    |>.andThen exec_run_wrmagic wrmagicBody_frame keepsClosed_wrmagic
    |>.andThen exec_run_wrhdr wrhdrBody_frame keepsClosed_wrhdr
    |>.andThen exec_run_rewind rewindBody_frame keepsClosed_rewind
    |>.andThen exec_run_encode encodeBody_frame keepsClosed_encode

/-- The units of DECOMPRESS before CLOSE, in the order of 45_decompress.md R185. -/
theorem decompressUnits_beforeClose {s : State} (hs : s.st = .idle) :
    CompositeAt s decompressUnits (((rdmagicBody s).andThen rdhdrBody).andThen decodeBody) [.close] :=
  (CompositeAt.start hs decompressUnits).andThen exec_run_rdmagic rdmagicBody_frame keepsClosed_rdmagic
    |>.andThen exec_run_rdhdr rdhdrBody_frame keepsClosed_rdhdr
    |>.andThen exec_run_decode decodeBody_frame keepsClosed_decode

/-- Settles O51: each body is its units' bodies one after another, and both composites end in CLOSE and `discard`. -/
theorem compositesRunTheirUnits : Obligations.CompositesRunTheirUnits := by
  unfold Obligations.CompositesRunTheirUnits
  rintro c units s hs (⟨rfl, rfl⟩ | ⟨rfl, rfl⟩)
  · rw [exec_run_compress s hs]
    exact (compressUnits_beforeClose hs).close
  · rw [exec_run_decompress s hs]
    exact (decompressUnits_beforeClose hs).close

end Sys2Proof.Machine
end

section
/-! RDMAGIC, DECODE and DECOMPRESS: what each makes of its input, and the round trip (45_decompress.md R180 to R187). -/

namespace Sys2Proof.Machine

open Sys2Proof

/-! ### The walk over a body -/

/-- Settles O45: past its `require` line DECODE is the walk, and the walk over a body stops behind its terminator. -/
theorem decodeInvertsEncode : Obligations.DecodeInvertsEncode := by
  unfold Obligations.DecodeInvertsEncode
  intro s t ws q rest hs ht hc hq hr hp
  rw [exec_decode_open hs ht hc, decodeTree_body t s ws q rest hq hr hp]
  rfl

/-- DECODE of an internal root leaves what its walk's end leaves of the state at the root before the first bit. -/
theorem exec_decode_endWalk {s : State} {w : Weight} {l r : Tree} (hs : s.st = .idle) (hq : s.quiet)
    (ht : s.tree = some (.node w l r)) (hc : s.out.closed = false) :
    exec .decode s = .next
      (endWalk s.out (startWalk s) (walkBits (.node w l r) (.node w l r) s.out s.inp.rest)) := by
  rw [exec_decode_open hs ht hc, decodeTree]
  cases walkBits (.node w l r) (.node w l r) s.out s.inp.rest with
  | stopped o rest =>
    obtain ⟨hrd, _⟩ := hq
    rw [finish, endWalk, ← hrd]
    rfl
  | truncated o => rfl

/-- Settles O47: `run_walk` steps bit by bit to the walk's end, and DECODE ends there. -/
theorem decodeIsItsWalkSteps : Obligations.DecodeIsItsWalkSteps := by
  unfold Obligations.DecodeIsItsWalkSteps
  intro s t w l r hs hq hp ht hc hexec
  obtain ⟨n, hn⟩ := run_walk w l r s.out.bits.length s.out s.inp.rest w l r (startWalk s) hs rfl ht ht hp rfl le_rfl
    (by simp [OutChan.firstBits])
  rw [exec_decode_endWalk hs hq ht hc] at hexec
  exact ⟨n, hn.trans hexec⟩

/-! ### The magic field -/

/-- RDMAGIC with 32 bits at the cursor compares them. -/
theorem rdmagicBody_field {s : State} {m : Word} {rest : Bits} (hr : s.inp.rest = bitsMsb m ++ rest) :
    rdmagicBody s = streamMagicBody m { s with inp := { s.inp with pos := s.inp.pos + 32 } } := by
  have hne : s.inp.rest ≠ [] := List.ne_nil_of_length_pos (by simp [hr])
  rw [rdmagicBody, readBits_some m s.inp rest hr (pos_le_of_rest _ hne)]

theorem rdmagicBody_magic {s : State} {rest : Bits} (hr : s.inp.rest = bitsMsb s.magic ++ rest) :
    rdmagicBody s = .done { s with inp := { s.inp with pos := s.inp.pos + 32 }, rd := .off } := by
  rw [rdmagicBody_field hr, streamMagicBody, if_pos rfl]

/-- RDMAGIC with fewer than 32 bits left reads them all. -/
theorem rdmagicBody_short {s : State} (h : s.inp.rest.length < 32) :
    rdmagicBody s = .raised .formatError { s with inp := { s.inp with pos := s.inp.bits.length } } := by
  rw [rest_length] at h
  rw [rdmagicBody, readBits_of_lt (by omega)]

/-- The FormatError of a read that began between commands: the cursor where the read left it, and no bit of OUT. -/
theorem finish_formatError {s : State} {i : InChan} {rd : Reader} (hq : s.quiet) :
    finish s (.raised .formatError { s with inp := i, rd := rd }) =
      .next { s with st := .faulted, err := 1, inp := i } := by
  obtain ⟨hrd, hcur, hpq⟩ := hq
  have htaken := finish_writesNothing s (s := { s with inp := i, rd := rd }) (e := .formatError) rfl hcur hpq
  rw [htaken, ← hrd]
  rfl

/-- Settles O44: a whole field is compared with MAGIC, a short one equals no value, and FormatError writes nothing. -/
theorem rdmagicComparesTheMagic : Obligations.RdmagicComparesTheMagic := by
  unfold Obligations.RdmagicComparesTheMagic
  refine ⟨decode_encode .rdmagic, fun s rest m hs hq => ?_⟩
  rw [exec_run_rdmagic s hs]
  refine ⟨fun hr hm => ?_, fun hr hm => ?_, fun hshort => ?_⟩
  · obtain ⟨hrd, _⟩ := hq
    rw [rdmagicBody_magic (hm ▸ hr), finish, ← hrd]
  · rw [rdmagicBody_field hr, streamMagicBody, if_neg hm]
    exact finish_formatError hq
  · rw [rdmagicBody_short hshort]
    exact finish_formatError (rd := s.rd) hq

/-! ### DECOMPRESS -/

/-- A FormatError ends DECOMPRESS where it ends RDMAGIC. -/
theorem exec_decompress_otherFormat {s : State} (hs : s.st = .idle) (h : s.inp.rest.take 32 ≠ bitsMsb s.magic) :
    exec .decompress s = exec .rdmagic s := by
  obtain ⟨u, hu⟩ := rdmagicBody_otherFormat s h
  rw [exec_run_decompress s hs, exec_run_rdmagic s hs, decompressBody, hu]
  rfl

/-- Settles O50: DECOMPRESS ends as RDMAGIC does, on a field that is not MAGIC and on a short one. -/
theorem decompressRefusesAnotherFormat : Obligations.DecompressRefusesAnotherFormat := by
  unfold Obligations.DecompressRefusesAnotherFormat
  intro s hs hq hp hother
  obtain ⟨_, hmagic⟩ := rdmagicComparesTheMagic
  rw [exec_decompress_otherFormat hs hother]
  have hlen := rest_length s.inp
  by_cases hshort : s.inp.rest.length < 32
  · obtain ⟨_, _, htooShort⟩ := hmagic s [] 0 hs hq
    rw [Nat.min_eq_right (by omega)]
    exact htooShort hshort
  · have hlong : 32 ≤ s.inp.rest.length := Nat.le_of_not_lt hshort
    obtain ⟨_, hwrong, _⟩ := hmagic s (s.inp.rest.drop 32) (ofBitsMsb 32 (s.inp.rest.take 32)) hs hq
    rw [Nat.min_eq_left (by omega)]
    refine hwrong (bitsMsb_take_append_drop hlong).symm fun hm => hother ?_
    rw [← hm, bitsMsb_ofBitsMsb 32 _ (List.length_take_of_le hlong)]

theorem rdhdrBody_header {s : State} {t : Tree} {rest : Bits} (hs : s.st = .idle) (hfits : t.nodes ≤ 513)
    (hr : s.inp.rest = t.headerBits ++ rest) :
    rdhdrBody s = .done
      { s with
        tree := some t.zeroWeights, codesValid := false
        inp := { s.inp with pos := s.inp.pos + t.headerBits.length } } :=
  bodyOf_done_of_exec hs (rdhdrInvertsWrhdr s t rest hs hfits hr) hs

theorem decodeBody_open {s : State} {t : Tree} (ht : s.tree = some t) (hc : s.out.closed = false) :
    decodeBody s = decodeTree t s := by
  simp only [decodeBody, ht, requireElse, hc, Bool.not_false, if_true]

/-- An open OUT of whole bytes is closed as it stands. -/
theorem close_wholeBytes (ws : List Byte) :
    OutChan.close { bits := bitsOfBytes ws, closed := false } = { bits := bitsOfBytes ws, closed := true } := by
  have hpad : padLength (bitsOfBytes ws).length = 0 := by rw [length_bitsOfBytes, padLength]; omega
  rw [OutChan.close, hpad, List.replicate_zero, List.append_nil]

/-- DECOMPRESS over a stream: each unit takes its part of the input, and OUT is closed without a pad. -/
theorem decompressBody_stream {s : State} {t : Tree} {ws : List Byte} {q rest : Bits} (hs : s.st = .idle)
    (hfits : t.nodes ≤ 513) (hout : s.out = { bits := [], closed := false }) (hbody : bodyBits t.codeOf ws = some q)
    (hr : s.inp.rest = bitsMsb s.magic ++ (t.headerBits ++ (q ++ rest))) (hp : s.inp.pos ≤ s.inp.bits.length) :
    decompressBody s = .done (Machine.discard
      { s with
        out := { bits := bitsOfBytes ws, closed := true }
        inp := { s.inp with pos := s.inp.pos + (32 + t.headerBits.length + q.length) }, cur := none, rd := .off }) := by
  have hheader : InChan.rest { s.inp with pos := s.inp.pos + 32 } = t.headerBits ++ (q ++ rest) := by
    rw [rest_advance, hr, List.drop_left' (length_bitsMsb _)]
  have hcodes : InChan.rest { s.inp with pos := s.inp.pos + 32 + t.headerBits.length } = q ++ rest := by
    rw [rest_advance { s.inp with pos := s.inp.pos + 32 }, hheader, List.drop_left]
  have hinside : s.inp.pos + 32 + t.headerBits.length ≤ s.inp.bits.length := by
    have hlen := congrArg List.length hr
    simp only [rest_length, List.length_append, length_bitsMsb] at hlen
    omega
  rw [decompressBody, rdmagicBody_magic hr, Ending.done_andThen,
    rdhdrBody_header (rest := q ++ rest) (by exact hs) hfits (by exact hheader), Ending.done_andThen,
    decodeBody_open rfl (by simp only [hout]),
    decodeTree_body t.zeroWeights _ ws q rest (by rw [codeOf_zeroWeights, hbody]) (by exact hcodes) (by exact hinside)]
  simp only [Ending.done_andThen, hout, List.nil_append, closeBody_open, close_wholeBytes, Nat.add_assoc]
  rfl

/-- Settles O49: what follows the terminator is never read, and the discarded data hides the units' work. -/
theorem decompressReadsTheStream : Obligations.DecompressReadsTheStream := by
  unfold Obligations.DecompressReadsTheStream
  intro s t ws q rest hs hq hfits hout hbody hr hp
  obtain ⟨hrd, hcur, _⟩ := hq
  rw [exec_run_decompress s hs, decompressBody_stream hs hfits hout hbody (by simpa using hr) hp]
  simp only [finish, hcur, hrd]
  rfl

/-! ### The round trip -/

theorem exec_build_nodes_le {s u : State} {t : Tree} (hs : s.st = .idle) (h : exec .build s = .next u)
    (ht : u.tree = some t) : t.nodes ≤ 513 := by
  obtain ⟨t', hbuild, _, _, _, _, hnodes, _⟩ := buildMakesAMergedTree s hs
  cases hbuild.symm.trans h
  cases ht
  exact hnodes

/-- Settles O52: DECOMPRESS reads the magic, the header and the body that COMPRESS wrote, and leaves its pad unread. -/
theorem roundTrip : Obligations.RoundTrip := by
  unfold Obligations.RoundTrip
  intro s input hlaunch hcounts
  obtain ⟨f, t, q, _, ⟨b, hbuild, ht⟩, hbody, hcompress⟩ := compressWritesTheStream s input hlaunch hcounts
  obtain ⟨⟨hs, herr⟩, hq, _, _⟩ := hlaunch
  have hfits : t.nodes ≤ 513 := exec_build_nodes_le (s := { s with freq := f }) hs hbuild ht
  have hwhole : (bitsMsb s.magic ++ t.headerBits ++ q ++
      padBits (32 + t.headerBits.length + q.length)).length % 8 = 0 := by
    simpa [padBits, Nat.add_assoc] using add_padLength_mod (32 + t.headerBits.length + q.length)
  exact ⟨_, _, hcompress, ⟨hs, herr⟩, rfl, hwhole,
    decompressReadsTheStream _ t input q _ hs hq hfits rfl hbody rfl (Nat.zero_le _),
    ⟨hs, herr⟩, rfl, wordsOfBits_bitsOfBytes input, rfl⟩

end Sys2Proof.Machine
end

section
/-! CLEAR, the FAULTED mode and the register window (46_control.md R195 to R198). -/

namespace Sys2Proof.Machine

open Sys2Proof

/-! ### CLEAR -/

/-- Settles O7: the word is the encoding of CLEAR, CLEAR is `resetEngine`, and `runCommand` ignores the rest. -/
theorem clearResetsTheEngine : Obligations.ClearResetsTheEngine := by
  unfold Obligations.ClearResetsTheEngine
  exact ⟨decode_encode .clear, fun _ => rfl, exec_faulted⟩

/-! ### The register map (20_memory.md R59) -/

theorem windowReg_cmd {off : Offset} (h : off.toNat = 0x000) : windowReg off = .cmd := by
  simp [windowReg, h]

theorem windowReg_status {off : Offset} (h : off.toNat = 0x004) : windowReg off = .status := by
  simp [windowReg, h]

theorem windowReg_err {off : Offset} (h : off.toNat = 0x008) : windowReg off = .err := by
  simp [windowReg, h]

theorem windowReg_freq {off : Offset} (sym : Symbol) (h : off.toNat = 0x400 + 4 * sym.val) :
    windowReg off = .freq sym := by
  have hsym := sym.isLt
  have hfile : 0x400 ≤ off.toNat ∧ off.toNat ≤ 0x800 := by omega
  have hindex : (off.toNat - 0x400) / 4 = sym.val := by omega
  simp only [windowReg]
  rw [if_neg (by omega), if_neg (by omega), if_neg (by omega), dif_pos hfile]
  exact congrArg WindowReg.freq (Fin.ext hindex)

theorem windowReg_reserved {off : Offset} (h : (0x00C ≤ off.toNat ∧ off.toNat < 0x400) ∨ 0x800 < off.toNat) :
    windowReg off = .reserved := by
  simp only [windowReg]
  rw [if_neg (by omega), if_neg (by omega), if_neg (by omega), dif_neg (by omega)]

/-- CMD is the one register at its offset. -/
theorem eq_zero_of_windowReg_cmd {off : Offset} (h : windowReg off = .cmd) : off = 0 := by
  by_contra hne
  have hpos : off.toNat ≠ 0 := fun h0 => hne (BitVec.eq_of_toNat_eq h0)
  simp only [windowReg, if_neg hpos] at h
  split_ifs at h

/-! ### Window writes -/

/-- Between commands a 32-bit write at a multiple of 4 is `HostWrite`. -/
theorem step_write {s : State} {off : Offset} {v : Word} {rest : List Move} (hq : s.quiet)
    (hm : s.moves = .access (.write 32 off v) :: rest) (hoff : off.toNat % 4 = 0) :
    step s = hostWrite off v { s with moves := rest, reply := .nothing } := by
  rw [step_access hq hm]
  simp [hostAccess, goodAccess, hoff]

theorem runCommand_idle {s : State} (body : State → Ending) (hs : s.st = .idle) :
    runCommand body s = finish s (body s) := by
  simp only [runCommand, hs]

theorem runCommand_faulted {s : State} (body : State → Ending) (hs : s.st = .faulted) : runCommand body s = .next s := by
  simp only [runCommand, hs]

theorem hostWrite_freq {off : Offset} {sym : Symbol} {s : State} (v : Word) (hreg : windowReg off = .freq sym)
    (hs : s.st = .idle) : hostWrite off v s = .next { s with freq := freqWrite s.freq sym v } := by
  simp only [hostWrite, hreg, runCommand_idle _ hs, finish]

theorem hostWrite_readOnly {off : Offset} (v : Word) (s : State)
    (hreg : windowReg off = .status ∨ windowReg off = .err ∨ windowReg off = .reserved) :
    hostWrite off v s = .next s := by
  rcases hreg with hreg | hreg | hreg <;> simp only [hostWrite, hreg]

/-- While FAULTED every write but that of CLEAR's word to CMD is ignored. -/
theorem hostWrite_faulted {off : Offset} {v : Word} {s : State} (hs : s.st = .faulted) (h : ¬(off = 0 ∧ v = 1)) :
    hostWrite off v s = .next s := by
  cases hreg : windowReg off with
  | cmd =>
    have hv : v ≠ 1 := fun hv => h ⟨eq_zero_of_windowReg_cmd hreg, hv⟩
    simp only [hostWrite, hreg, cmdWrite_faulted hs hv]
  | freq sym => simp only [hostWrite, hreg, runCommand_faulted _ hs]
  | status => exact hostWrite_readOnly v s (.inl hreg)
  | err => exact hostWrite_readOnly v s (.inr (.inl hreg))
  | reserved => exact hostWrite_readOnly v s (.inr (.inr hreg))

/-- Settles O8: CLEAR's word decodes to CLEAR, the other writes are ignored while FAULTED, and the read-only and
reserved offsets ignore every write. -/
theorem ignoredWrites : Obligations.IgnoredWrites := by
  unfold Obligations.IgnoredWrites
  intro s off v rest hq hm hoff
  refine ⟨fun _ h => ?_, fun hs h => ?_, fun h => ?_⟩
  · obtain ⟨rfl, rfl⟩ := h
    rw [step_cmdWrite hq hm]
    exact cmdWrite_ok _ (decode_encode .clear)
  · rw [step_write hq hm hoff]
    exact hostWrite_faulted hs h
  · rw [step_write hq hm hoff]
    refine hostWrite_readOnly v _ ?_
    rcases h with h | h | h
    · exact .inl (windowReg_status h)
    · exact .inr (.inl (windowReg_err h))
    · exact .inr (.inr (windowReg_reserved h))

theorem freqWrite_castSucc (f : Vector Word 256) (n : Fin 256) (v : Word) :
    freqWrite f n.castSucc v = f.set n.val v :=
  dif_pos n.isLt

/-- While IDLE a write at a FREQ offset writes that count, which for FREQ[256] is no change. -/
theorem step_writeFreq {s : State} {off : Offset} {v : Word} {rest : List Move} (hq : s.quiet) (hs : s.st = .idle)
    (hm : s.moves = .access (.write 32 off v) :: rest) (sym : Symbol) (h : off.toNat = 0x400 + 4 * sym.val) :
    step s = .next { s with moves := rest, reply := .nothing, freq := freqWrite s.freq sym v } := by
  rw [step_write hq hm (by omega)]
  exact hostWrite_freq v (windowReg_freq sym h) hs

/-- Settles O10: the offset is that of FREQ[n], and `freqWrite` at 256 changes nothing. -/
theorem hostWriteSetsOneCount : Obligations.HostWriteSetsOneCount := by
  unfold Obligations.HostWriteSetsOneCount
  intro s off v rest hq hs hm
  refine ⟨fun n h => ?_, fun h => ?_⟩
  · rw [step_writeFreq hq hs hm n.castSucc h, freqWrite_castSucc]
  · rw [step_writeFreq hq hs hm Config.pseudoEof h, freqWrite_pseudoEof]

/-! ### Window reads -/

/-- Between commands a 32-bit read at a multiple of 4 replies with the register's word and does nothing else. -/
theorem step_read {s : State} {off : Offset} {rest : List Move} (hq : s.quiet)
    (hm : s.moves = .access (.read 32 off) :: rest) (hoff : off.toNat % 4 = 0) :
    step s = .next { s with moves := rest, reply := .word (windowWord off s) } := by
  rw [step_access hq hm]
  simp only [hostAccess, goodAccess, hoff, BEq.rfl, Bool.and_self, if_true]
  rfl

/-- The four flags stand in bits 0 to 3. -/
theorem toNat_flagBits : ∀ codes tree fault busy : Bool,
    ((0#28 ++ BitVec.ofBool codes ++ BitVec.ofBool tree ++ BitVec.ofBool fault ++ BitVec.ofBool busy).setWidth 32 :
      Word).toNat = busy.toNat + 2 * fault.toNat + 4 * tree.toNat + 8 * codes.toNat := by
  decide

theorem toNat_statusWord (s : State) :
    s.statusWord.toNat = s.busy.toNat + 2 * s.faultFlag.toNat + 4 * s.treeValid.toNat + 8 * s.codesValid.toNat :=
  toNat_flagBits s.codesValid s.treeValid s.faultFlag s.busy

theorem busy_of_quiet {s : State} (hq : s.quiet) : s.busy = false := by
  obtain ⟨hrd, hcur, hpq⟩ := hq
  simp [State.busy, hrd, hcur, hpq]

theorem toNat_errWord (s : State) : s.errWord.toNat = s.err.toNat :=
  BitVec.toNat_setWidth_of_le (by decide)

theorem freqRead_castSucc (f : Vector Word 256) (n : Fin 256) : freqRead f n.castSucc = f[n.val] :=
  dif_pos n.isLt

/-- Settles O9: the word of each register, at the offsets where the map has it. -/
theorem hostReadGivesTheRegister : Obligations.HostReadGivesTheRegister := by
  unfold Obligations.HostReadGivesTheRegister
  intro s off rest hq hm hoff
  refine ⟨windowWord off s, step_read hq hm hoff, fun h => ?_, fun h => ?_, fun h => ?_, fun n h => ?_, fun h => ?_,
    fun h => ?_⟩
  · simp only [windowWord, windowReg_cmd h]
  · have hfault : 2 * s.faultFlag.toNat = if s.st = .faulted then 2 else 0 := by
      cases hst : s.st <;> simp [State.faultFlag, hst]
    have htree : 4 * s.treeValid.toNat = if s.tree.isSome then 4 else 0 := by
      cases ht : s.tree <;> simp [State.treeValid, ht]
    have hcodes : 8 * s.codesValid.toNat = if s.codesValid then 8 else 0 := by
      cases s.codesValid <;> rfl
    simp only [windowWord, windowReg_status h, toNat_statusWord, busy_of_quiet hq, hfault, htree, hcodes,
      Bool.toNat_false, Nat.zero_add]
  · simp only [windowWord, windowReg_err h, toNat_errWord]
  · simp only [windowWord, windowReg_freq n.castSucc h, freqRead_castSucc]
  · simp only [windowWord, windowReg_freq Config.pseudoEof h, freqRead_eof]
  · simp only [windowWord, windowReg_reserved h]

end Sys2Proof.Machine
end

section
/-! The faults of each instruction (60_exceptions.md R210, R212). -/

namespace Sys2Proof.Machine

open Sys2Proof

/-- A body run from IDLE ends FAULTED only by a fault taken, and ERR is then the code of one it may raise. -/
theorem BodyFrame.err_of_faulted {cs : List Cause} {s t : State} {r : Ending} (h : BodyFrame cs s r)
    (hs : s.st = .idle) (ht : finish s r = .next t) (hf : t.st = .faulted) : ∃ e ∈ cs, t.err = e.code := by
  cases r with
  | done u =>
    cases ht
    have hst : t.st = s.st := h.st
    rw [hs, hf] at hst
    cases hst
  | raised e u =>
    cases ht
    obtain ⟨hmem, _⟩ := h.raises e u rfl
    exact ⟨e, hmem, takeFault_err s e u⟩

/-- Settles O54: CLEAR ends IDLE, and every other instruction's body keeps the frame of its own causes. -/
theorem faultCodesAreTheCommandsOwn : Obligations.FaultCodesAreTheCommandsOwn := by
  unfold Obligations.FaultCodesAreTheCommandsOwn
  intro i s t hs h hf
  rcases exec_cases i s with ⟨_, e⟩ | ⟨_, hfaulted, _⟩ | ⟨_, _, r, e, hr⟩
  · rw [e] at h
    cases h
    cases hf
  · rw [hs] at hfaulted
    cases hfaulted
  · rw [e] at h
    exact hr.err_of_faulted hs h hf

end Sys2Proof.Machine
end

section
/-! Reset, the state after it, and how every instruction ends (70_reset_and_hazards.md R241, R251, R254). -/

namespace Sys2Proof.Machine

open Sys2Proof

/-! ### How an instruction ends -/

/-- A body run to its end is over without a fault, with ERR as it was, or a fault is taken. -/
theorem BodyFrame.finish_ends {cs : List Cause} {s : State} {r : Ending} (h : BodyFrame cs s r) :
    ∃ t, finish s r = .next t ∧ ((t.st = s.st ∧ t.err = s.err) ∨ (t.st = .faulted ∧ t.err ≠ 0)) := by
  cases r with
  | done u => exact ⟨u, rfl, .inl ⟨h.st, h.err⟩⟩
  | raised e u => exact ⟨takeFault s e u, rfl, .inr ⟨rfl, code_ne_zero e⟩⟩

/-- Settles O53: CLEAR ends IDLE, an ignored instruction changes nothing, and every other one is a body run to its
end. -/
theorem everyInstructionEnds : Obligations.EveryInstructionEnds := by
  unfold Obligations.EveryInstructionEnds
  intro i s
  rcases exec_cases i s with ⟨hi, e⟩ | ⟨_, _, e⟩ | ⟨_, _, r, e, hr⟩
  · exact ⟨resetEngine s, e, fun _ => .inl ⟨rfl, .inr ⟨hi, rfl⟩⟩⟩
  · exact ⟨s, e, fun hidle => .inl ⟨hidle, .inl rfl⟩⟩
  · obtain ⟨t, ht, hend⟩ := hr.finish_ends
    refine ⟨t, e.trans ht, fun hidle => hend.imp_left ?_⟩
    rintro ⟨hst, herr⟩
    exact ⟨hst.trans hidle, .inl herr⟩

/-! ### The reset values -/

/-- The state after reset has its engine at the reset values. -/
theorem resetEngine_reset : resetEngine State.reset = State.reset := rfl

/-- STATUS shows no flag once the engine is reset. -/
theorem statusWord_resetEngine (s : State) : (resetEngine s).statusWord = 0 := by
  refine BitVec.eq_of_toNat_eq ?_
  have hbusy : (resetEngine s).busy = false := busy_of_quiet ⟨rfl, rfl, rfl⟩
  rw [toNat_statusWord, hbusy]
  simp [State.faultFlag, State.treeValid]

theorem windowWord_status_resetEngine (s : State) : windowWord 0x004 (resetEngine s) = 0 := by
  simp only [windowWord, windowReg_status (show (0x004 : Offset).toNat = 0x004 from rfl), statusWord_resetEngine]

theorem windowWord_err_resetEngine (s : State) : windowWord 0x008 (resetEngine s) = 0 := by
  simp only [windowWord, windowReg_err (show (0x008 : Offset).toNat = 0x008 from rfl), State.errWord, resetEngine_err]
  rfl

/-- Settles O6: the reset event is `resetEngine`, as CLEAR is, and the state after reset is a fixed point of it. -/
theorem resetEventGivesTheResetValues : Obligations.ResetEventGivesTheResetValues := by
  unfold Obligations.ResetEventGivesTheResetValues
  refine ⟨fun s rest hq hm => ?_, rfl, rfl, ?_, freqZero_get, rfl, rfl, codeRead_codeNone, rfl, rfl⟩
  · exact ⟨resetEngine { s with moves := rest, reply := .nothing }, step_move s .reset rest hq hm, rfl, rfl, rfl, rfl,
      windowWord_status_resetEngine _, windowWord_err_resetEngine _, freqZero_get, freqRead_eof _, rfl, rfl,
      codeRead_codeNone, rfl, rfl, rfl, rfl⟩
  · rw [← resetEngine_reset]
    exact windowWord_status_resetEngine _

/-- Settles O60: the channels are empty, and the engine holds no fault, no tree and no code. -/
theorem resetHasTheInvariant : Obligations.ResetHasTheInvariant where
  quiet := ⟨rfl, rfl, rfl⟩
  memory := wf_reset
  errMode := ⟨fun _ => rfl, fun _ => rfl⟩
  errLegal := Nat.zero_le 8
  treeFits := by rintro t ⟨⟩
  codesFit v p hp := by
    have hnone : codeRead State.reset.code v = none := codeRead_codeNone v
    rw [hnone] at hp
    cases hp
  codesMean := by rintro ⟨⟩

end Sys2Proof.Machine
end
